-- ==== Sys2Proof/Word.lean ====
section
/-! DEFINITION. The word types of the block (00_scope.md R6, R7, R14; 30_encoding.md R70). -/

namespace Sys2Proof

/-- `u8` (R14): the SPI word and one byte of the frame. -/
abbrev Byte := BitVec 8

/-- `u24` (R14): a conversion result as the three received bytes. -/
abbrev U24 := BitVec 24

/-- A 32-bit operand, result or channel value; an `i32` is held as this pattern (R14). -/
abbrev Word32 := BitVec 32

/-- The 132-bit command word `W` (R70). -/
abbrev CmdWord := BitVec 132

/-- The 4-bit operation code (R7). -/
abbrev OpCode := BitVec 4

end Sys2Proof
end

