-- ==== Sys2Proof/Config.lean ====
section
/-! DEFINITION. What the implementation fixes (00_scope.md R5), what the outside agents drive
(10_state.md R20 to R24), and the free values. -/

namespace Sys2Proof

/-- The build-time parameters of R5. `GUARD_US` is the constant `Config.guardUs`.
No value rule depends on any of them but `frameLsbDefect`. -/
structure Config where
  /-- `CLK_PER_US`, OPEN, at least 1. -/
  clkPerUs : Nat
  /-- `SCLK_DIV`, OPEN, even, at least 2. -/
  sclkDiv : Nat
  /-- `SPI_CPOL`: the idle level of SCLK. -/
  spiCpol : Bool
  /-- `SPI_CPHA`: true, MISO is sampled on the trailing edge; false, on the leading edge. -/
  spiCpha : Bool
  /-- `XFER_TIMEOUT_CYCLES`, OPEN, at least `8*SCLK_DIV + 2`. -/
  xferTimeoutCycles : Nat
  /-- `FRAME_LSB_DEFECT`: true reproduces the framer defect (44_framer.md R182). -/
  frameLsbDefect : Bool
  deriving DecidableEq, Repr, Inhabited

/-- `GUARD_US = 2` (R5, 41_select_ready.md R122). -/
abbrev Config.guardUs : Nat := 2

/-- The bounds R5 puts on the OPEN parameters. -/
abbrev Config.Legal (c : Config) : Prop :=
  1 ≤ c.clkPerUs ∧ 2 ≤ c.sclkDiv ∧ c.sclkDiv % 2 = 0 ∧ 8 * c.sclkDiv + 2 ≤ c.xferTimeoutCycles

/-- The defaults of R5; the OPEN parameters are at the least values R5 allows
(DESIGN CHOICE, unsafe for a claim that rests on them: log 4). -/
def Config.default : Config where
  clkPerUs := 1
  sclkDiv := 2
  spiCpol := false
  spiCpha := true
  xferTimeoutCycles := 18
  frameLsbDefect := false

/-- What HOST presents on the command port (10_state.md R21): a command word of format H, or a
converter command byte, which reaches the block as the XCHG of that byte
(30_encoding.md R74; log 13). -/
inductive Presented where
  | op (word : CmdWord)
  | busByte (b : Byte)
  deriving DecidableEq, Repr, Inhabited

/-- The levels the outside agents drive during one step of the block (10_state.md R20 to R24).
All of them are free (60_exceptions.md R236; log 3). -/
structure Inputs where
  /-- `rst_n` (R20). -/
  rstN : Bool
  /-- `op_valid` with `op_code` and `op_arg0`..`op_arg3` (R21). -/
  host : Option Presented
  /-- The eight MISO levels CONV drives during the transfer of this step, the first in bit 7
  (R22, 40_bus_primitive.md R103). -/
  misoByte : Byte
  /-- The MODEL's own: the shifter fails in the transfer of this step (R102; log 5). -/
  xferStall : Bool
  /-- `drdy_n` (R23). -/
  drdyN : Bool
  /-- `tx_rd_addr` (R24). -/
  txRdAddr : BitVec 5
  /-- `tx_done` (R24). -/
  txDone : Bool
  deriving DecidableEq, Repr, Inhabited

/-- The levels at `State.reset`: no reset asserted, no operation presented, not ready, no
`tx_done` (DESIGN CHOICE: log 3). -/
def Inputs.quiet : Inputs where
  rstN := true
  host := none
  misoByte := 0x00#8
  xferStall := false
  drdyN := true
  txRdAddr := 0#5
  txDone := false

/-- Where a failed transfer stands when the watchdog ends it: the "undefined/last-seen data" of
40_bus_primitive.md R102 and the two shifter counters. -/
structure StallPoint where
  /-- The content of `shreg`. -/
  byte : Byte
  /-- The bits transferred: fewer than 8, or the transfer would have completed. -/
  bits : Fin 8
  /-- The clk cycles in the current half-period. -/
  cnt : Nat
  deriving DecidableEq, Repr, Inhabited

/-- The levels the outside agents drive in the next step: FREE, no proof can see them (log 3). -/
opaque Config.outside : Nat → Inputs

/-- Where the failed transfer of a step stands: FREE, no proof can see it (R102; log 5). -/
opaque Config.stalled : Nat → StallPoint

end Sys2Proof
end

