-- ==== Sys2Proof/Syntax.lean ====
section
/-! DEFINITION. The operations: one constructor per row of the opcode table
(30_encoding.md R72; 42_bus_commands.md R142 to R146). -/

namespace Sys2Proof

/-- One constructor per row of spec/opcode_table.json. The first sixteen are the block's
operations (format H); the last six are the converter's command bytes (format BUS), which the
block carries as data of an XCHG (40_bus_primitive.md R100). An operand has exactly the bits
R72 gives it: the bits R72 does not name are ignored (R74), so they are no part of the syntax. -/
inductive Instr where
  /-- XCHG, `tx = op_arg0[7:0]` (R101). -/
  | xchg (tx : Byte)
  /-- DELAY, `n = op_arg0[15:0]` microseconds (R105). -/
  | delay (n : BitVec 16)
  /-- CSEL, `a = op_arg0[0]`: true activates (R121). -/
  | csel (a : Bool)
  /-- RDYT (R125). -/
  | rdyt
  /-- RDYW (R127). -/
  | rdyw
  /-- SX24, `u = op_arg0[23:0]` (R171). -/
  | sx24 (u : U24)
  /-- FRAME, `ch1`..`ch4` the four operands (R181). -/
  | frame (ch1 ch2 ch3 ch4 : Word32)
  /-- STAT (R201). -/
  | stat
  /-- Reserved code 0x0 (R203). -/
  | reserved0
  /-- Reserved code 0x9 (R203). -/
  | reserved9
  /-- Reserved code 0xA (R203). -/
  | reservedA
  /-- Reserved code 0xB (R203). -/
  | reservedB
  /-- Reserved code 0xC (R203). -/
  | reservedC
  /-- Reserved code 0xD (R203). -/
  | reservedD
  /-- Reserved code 0xE (R203). -/
  | reservedE
  /-- Reserved code 0xF (R203). -/
  | reservedF
  /-- Converter command byte `0101aaaa`, single-register write (R142). -/
  | wreg (addr : BitVec 4)
  /-- Converter command byte `0001aaaa`, burst read (R143). -/
  | rreg (start : BitVec 4)
  /-- Converter command byte 0x01, single-result read (R144). -/
  | rdata
  /-- Converter command byte 0xFC, synchronize (R145). -/
  | sync
  /-- Converter command byte 0xFF, wake-up (R145). -/
  | wakeup
  /-- Converter command byte 0xFE, reset of the converter (R146). -/
  | reset
  deriving DecidableEq, Repr

end Sys2Proof
end

