-- ==== Sys2Proof/WellFormed.lean ====
section
/-! DEFINITION. Which instructions are well formed. A block operation always is: its operands have
exactly the bits the encoding gives them. A client byte that carries a register address is, when the
address is one the client protocol uses (42_bus_commands.md R141, R143; log 26). The block runs
the others too (40_bus_primitive.md R100), so no meaning asks for well-formedness. -/

namespace Sys2Proof

/-- The converter's five registers have the addresses 0 to 4 (R141). -/
def wregAddressNamed (addr : BitVec 4) : Bool := decide (addr.toNat < 5)

/-- "No other start address or count is used" than start address 0 (R143). -/
def rregStartUsed (start : BitVec 4) : Bool := start == 0#4

/-- Well-formedness of an instruction. -/
def Instr.wellFormed : Instr → Bool
  | .xchg _ => true
  | .delay _ => true
  | .csel _ => true
  | .rdyt => true
  | .rdyw => true
  | .sx24 _ => true
  | .frame _ _ _ _ => true
  | .stat => true
  | .reserved0 => true
  | .reserved9 => true
  | .reservedA => true
  | .reservedB => true
  | .reservedC => true
  | .reservedD => true
  | .reservedE => true
  | .reservedF => true
  | .wreg addr => wregAddressNamed addr
  | .rreg start => rregStartUsed start
  | .rdata => true
  | .sync => true
  | .wakeup => true
  | .reset => true

/-- The rows of the table that are reserved operation codes (30_encoding.md R75). -/
def Instr.isReserved : Instr → Bool
  | .reserved0 => true
  | .reserved9 => true
  | .reservedA => true
  | .reservedB => true
  | .reservedC => true
  | .reservedD => true
  | .reservedE => true
  | .reservedF => true
  | .xchg _ => false
  | .delay _ => false
  | .csel _ => false
  | .rdyt => false
  | .rdyw => false
  | .sx24 _ => false
  | .frame _ _ _ _ => false
  | .stat => false
  | .wreg _ => false
  | .rreg _ => false
  | .rdata => false
  | .sync => false
  | .wakeup => false
  | .reset => false

/-- The rows of format BUS (30_encoding.md R74). -/
def Instr.isBus : Instr → Bool
  | .wreg _ => true
  | .rreg _ => true
  | .rdata => true
  | .sync => true
  | .wakeup => true
  | .reset => true
  | .xchg _ => false
  | .delay _ => false
  | .csel _ => false
  | .rdyt => false
  | .rdyw => false
  | .sx24 _ => false
  | .frame _ _ _ _ => false
  | .stat => false
  | .reserved0 => false
  | .reserved9 => false
  | .reservedA => false
  | .reservedB => false
  | .reservedC => false
  | .reservedD => false
  | .reservedE => false
  | .reservedF => false

end Sys2Proof
end

