-- ==== Sys2Proof/Decode.lean ====
section
/-! DEFINITION. Decoding and encoding (30_encoding.md R70 to R75; 42_bus_commands.md R142 to R146):
the fields of the command word, the operation map, the converter command bytes, the opcode table as
data, and the encoder. -/

namespace Sys2Proof

/-! ## The fields of format H (R71) -/

/-- `W[3:0]`. -/
def fieldOpCode (w : CmdWord) : OpCode := w.extractLsb' 0 4
/-- `W[35:4]`. -/
def fieldArg0 (w : CmdWord) : Word32 := w.extractLsb' 4 32
/-- `W[67:36]`. -/
def fieldArg1 (w : CmdWord) : Word32 := w.extractLsb' 36 32
/-- `W[99:68]`. -/
def fieldArg2 (w : CmdWord) : Word32 := w.extractLsb' 68 32
/-- `W[131:100]`. -/
def fieldArg3 (w : CmdWord) : Word32 := w.extractLsb' 100 32

/-- `W = op_arg3 ++ op_arg2 ++ op_arg1 ++ op_arg0 ++ op_code` (R71). -/
def packWord (code : OpCode) (a0 a1 a2 a3 : Word32) : CmdWord :=
  a3 ++ a2 ++ a1 ++ a0 ++ code

/-! ## Operands (R73): slices of operand 0, with no scaling -/

/-- `op_arg0[7:0]`. -/
def operandByte (a0 : Word32) : Byte := a0.extractLsb' 0 8
/-- `op_arg0[15:0]`. -/
def operandCount (a0 : Word32) : BitVec 16 := a0.extractLsb' 0 16
/-- `op_arg0[0]`. -/
def operandFlag (a0 : Word32) : Bool := a0.getLsbD 0
/-- `op_arg0[23:0]`. -/
def operandU24 (a0 : Word32) : U24 := a0.extractLsb' 0 24

/-! ## The operation map (R72): `W[3:0]` alone selects -/

/-- The operation of a code and its operands. Total: every code has a row (R72, R75). -/
def decodeFields (code : OpCode) (a0 a1 a2 a3 : Word32) : Instr :=
  match code with
  | 0x0#4 => .reserved0
  | 0x1#4 => .xchg (operandByte a0)
  | 0x2#4 => .delay (operandCount a0)
  | 0x3#4 => .csel (operandFlag a0)
  | 0x4#4 => .rdyt
  | 0x5#4 => .rdyw
  | 0x6#4 => .sx24 (operandU24 a0)
  | 0x7#4 => .frame a0 a1 a2 a3
  | 0x8#4 => .stat
  | 0x9#4 => .reserved9
  | 0xA#4 => .reservedA
  | 0xB#4 => .reservedB
  | 0xC#4 => .reservedC
  | 0xD#4 => .reservedD
  | 0xE#4 => .reservedE
  | _ => .reservedF

/-- The operation of a command word. -/
def decodeWord (w : CmdWord) : Instr :=
  decodeFields (fieldOpCode w) (fieldArg0 w) (fieldArg1 w) (fieldArg2 w) (fieldArg3 w)

/-! ## Converter command bytes (R142 to R147) -/

/-- Why a byte is no row of format BUS. -/
inductive DecodeRefusal where
  /-- R147: no other command byte is used; what the converter does with it is outside the spec. -/
  | notACommandByte (b : Byte)
  deriving DecidableEq, Repr

/-- The command a converter command byte stands for, rejecting every other byte by name. -/
def decodeBus (b : Byte) : Except DecodeRefusal Instr :=
  if b &&& 0xF0#8 = 0x50#8 then .ok (.wreg (b.extractLsb' 0 4))
  else if b &&& 0xF0#8 = 0x10#8 then .ok (.rreg (b.extractLsb' 0 4))
  else if b = 0x01#8 then .ok .rdata
  else if b = 0xFC#8 then .ok .sync
  else if b = 0xFF#8 then .ok .wakeup
  else if b = 0xFE#8 then .ok .reset
  else .error (.notACommandByte b)

/-- The byte of a converter command: `0x50 | (addr & 0x0F)` and so on (R142 to R146). -/
def wregByte (addr : Byte) : Byte := 0x50#8 ||| (addr &&& 0x0F#8)
/-- `0x10 | start` (R143). -/
def rregByte (start : BitVec 4) : Byte := 0x10#8 ||| start.zeroExtend 8
/-- R144. -/
def rdataByte : Byte := 0x01#8
/-- R145. -/
def syncByte : Byte := 0xFC#8
/-- R145. -/
def wakeupByte : Byte := 0xFF#8
/-- R146. -/
def resetByte : Byte := 0xFE#8

/-! ## What HOST presents -/

/-- The XCHG word that carries a byte: unnamed operand bits are 0 (R74). -/
def xchgWord (b : Byte) : CmdWord :=
  packWord 0x1#4 (b.zeroExtend 32) 0#32 0#32 0#32

/-- The command word on the port: a client byte is the operand of an XCHG (R74). -/
def Presented.word : Presented → CmdWord
  | .op w => w
  | .busByte b => xchgWord b

/-- The instruction HOST presents. A client byte that is no command byte is data of a plain XCHG
(40_bus_primitive.md R100), so nothing HOST can present is refused. -/
def decodePresented : Presented → Instr
  | .op w => decodeWord w
  | .busByte b =>
    match decodeBus b with
    | .ok i => i
    | .error _ => .xchg b

/-! ## The encoder -/

/-- The word, or the client byte, of an instruction; operand bits the operation does not name are
zero (R74, R80). -/
def encode : Instr → Presented
  | .xchg tx => .op (xchgWord tx)
  | .delay n => .op (packWord 0x2#4 (n.zeroExtend 32) 0#32 0#32 0#32)
  | .csel a => .op (packWord 0x3#4 (if a then 1#32 else 0#32) 0#32 0#32 0#32)
  | .rdyt => .op (packWord 0x4#4 0#32 0#32 0#32 0#32)
  | .rdyw => .op (packWord 0x5#4 0#32 0#32 0#32 0#32)
  | .sx24 u => .op (packWord 0x6#4 (u.zeroExtend 32) 0#32 0#32 0#32)
  | .frame ch1 ch2 ch3 ch4 => .op (packWord 0x7#4 ch1 ch2 ch3 ch4)
  | .stat => .op (packWord 0x8#4 0#32 0#32 0#32 0#32)
  | .reserved0 => .op (packWord 0x0#4 0#32 0#32 0#32 0#32)
  | .reserved9 => .op (packWord 0x9#4 0#32 0#32 0#32 0#32)
  | .reservedA => .op (packWord 0xA#4 0#32 0#32 0#32 0#32)
  | .reservedB => .op (packWord 0xB#4 0#32 0#32 0#32 0#32)
  | .reservedC => .op (packWord 0xC#4 0#32 0#32 0#32 0#32)
  | .reservedD => .op (packWord 0xD#4 0#32 0#32 0#32 0#32)
  | .reservedE => .op (packWord 0xE#4 0#32 0#32 0#32 0#32)
  | .reservedF => .op (packWord 0xF#4 0#32 0#32 0#32 0#32)
  | .wreg addr => .busByte (wregByte (addr.zeroExtend 8))
  | .rreg start => .busByte (rregByte start)
  | .rdata => .busByte rdataByte
  | .sync => .busByte syncByte
  | .wakeup => .busByte wakeupByte
  | .reset => .busByte resetByte

/-- The code an instruction has on the command port: a client byte is an XCHG (R74). -/
def Instr.opCode : Instr → OpCode
  | .xchg _ => 0x1#4
  | .delay _ => 0x2#4
  | .csel _ => 0x3#4
  | .rdyt => 0x4#4
  | .rdyw => 0x5#4
  | .sx24 _ => 0x6#4
  | .frame _ _ _ _ => 0x7#4
  | .stat => 0x8#4
  | .reserved0 => 0x0#4
  | .reserved9 => 0x9#4
  | .reservedA => 0xA#4
  | .reservedB => 0xB#4
  | .reservedC => 0xC#4
  | .reservedD => 0xD#4
  | .reservedE => 0xE#4
  | .reservedF => 0xF#4
  | .wreg _ => 0x1#4
  | .rreg _ => 0x1#4
  | .rdata => 0x1#4
  | .sync => 0x1#4
  | .wakeup => 0x1#4
  | .reset => 0x1#4

/-! ## The opcode table as data -/

/-- The two encoding spaces of the table (R74). -/
inductive Format where
  | H
  | BUS
  deriving DecidableEq, Repr

/-- One row: a word belongs to it when its masked low bits are the row's pattern. -/
structure OpRow where
  format : Format
  pattern : Byte
  mask : Byte
  deriving DecidableEq, Repr

/-- The rows of format H: the mask is over `op_code` only (R74). -/
def opcodeRowsH : List OpRow :=
  [⟨.H, 0x1#8, 0xF#8⟩, ⟨.H, 0x2#8, 0xF#8⟩, ⟨.H, 0x3#8, 0xF#8⟩, ⟨.H, 0x4#8, 0xF#8⟩,
   ⟨.H, 0x5#8, 0xF#8⟩, ⟨.H, 0x6#8, 0xF#8⟩, ⟨.H, 0x7#8, 0xF#8⟩, ⟨.H, 0x8#8, 0xF#8⟩] ++
  [⟨.H, 0x0#8, 0xF#8⟩, ⟨.H, 0x9#8, 0xF#8⟩, ⟨.H, 0xA#8, 0xF#8⟩, ⟨.H, 0xB#8, 0xF#8⟩,
   ⟨.H, 0xC#8, 0xF#8⟩, ⟨.H, 0xD#8, 0xF#8⟩, ⟨.H, 0xE#8, 0xF#8⟩, ⟨.H, 0xF#8, 0xF#8⟩]

/-- The rows of format BUS (R142 to R146). -/
def opcodeRowsBus : List OpRow :=
  [⟨.BUS, 0x50#8, 0xF0#8⟩, ⟨.BUS, 0x10#8, 0xF0#8⟩, ⟨.BUS, 0x01#8, 0xFF#8⟩,
   ⟨.BUS, 0xFC#8, 0xFF#8⟩, ⟨.BUS, 0xFF#8, 0xFF#8⟩, ⟨.BUS, 0xFE#8, 0xFF#8⟩]

/-- The row of an instruction. -/
def Instr.row : Instr → OpRow
  | .xchg _ => ⟨.H, 0x1#8, 0xF#8⟩
  | .delay _ => ⟨.H, 0x2#8, 0xF#8⟩
  | .csel _ => ⟨.H, 0x3#8, 0xF#8⟩
  | .rdyt => ⟨.H, 0x4#8, 0xF#8⟩
  | .rdyw => ⟨.H, 0x5#8, 0xF#8⟩
  | .sx24 _ => ⟨.H, 0x6#8, 0xF#8⟩
  | .frame _ _ _ _ => ⟨.H, 0x7#8, 0xF#8⟩
  | .stat => ⟨.H, 0x8#8, 0xF#8⟩
  | .reserved0 => ⟨.H, 0x0#8, 0xF#8⟩
  | .reserved9 => ⟨.H, 0x9#8, 0xF#8⟩
  | .reservedA => ⟨.H, 0xA#8, 0xF#8⟩
  | .reservedB => ⟨.H, 0xB#8, 0xF#8⟩
  | .reservedC => ⟨.H, 0xC#8, 0xF#8⟩
  | .reservedD => ⟨.H, 0xD#8, 0xF#8⟩
  | .reservedE => ⟨.H, 0xE#8, 0xF#8⟩
  | .reservedF => ⟨.H, 0xF#8, 0xF#8⟩
  | .wreg _ => ⟨.BUS, 0x50#8, 0xF0#8⟩
  | .rreg _ => ⟨.BUS, 0x10#8, 0xF0#8⟩
  | .rdata => ⟨.BUS, 0x01#8, 0xFF#8⟩
  | .sync => ⟨.BUS, 0xFC#8, 0xFF#8⟩
  | .wakeup => ⟨.BUS, 0xFF#8, 0xFF#8⟩
  | .reset => ⟨.BUS, 0xFE#8, 0xFF#8⟩

/-- Does a byte match a row? For format H the byte is the low byte of the command word. -/
def OpRow.matches (r : OpRow) (b : Byte) : Bool := b &&& r.mask == r.pattern

/-! ## The host's reading of a table word -/

/-- What HOST presents for a table row's word of `nbits` bits: a BUS row is one byte wide, a word of
format H is 132 bits. A word of at most 8 bits that is no command byte is the low end of a command
word whose other bits are 0 (log 14). -/
def presentedOfTable (nbits w : Nat) : Presented :=
  if nbits ≤ 8 then
    match decodeBus (BitVec.ofNat 8 w) with
    | .ok _ => .busByte (BitVec.ofNat 8 w)
    | .error _ => .op (BitVec.ofNat 132 w)
  else .op (BitVec.ofNat 132 w)

/-- The instruction the decoder reads from a table row's word; none where the number does not fit
the command word. -/
def decodeTableWord (nbits w : Nat) : Option Instr :=
  if w < 2 ^ 132 then some (decodePresented (presentedOfTable nbits w)) else none

end Sys2Proof
end

