-- ==== Sys2Proof/Machine/State.lean ====
section
/-! DEFINITION. The state of the block: 10_state.md R25 (architectural), R29 (hidden), the port
levels of R20 to R24, the parameters of 00_scope.md R5, and the observation of R12. Plain data. -/

namespace Sys2Proof.Machine

/-- The frame buffer (20_memory.md R50): address and byte pairs in the canonical form of
`Memory.Wf`; an unlisted address reads as 0x00, its reset value (10_state.md R25). -/
abbrev Memory := List Host.Cell

/-- The states of the control machine (10_state.md R29, R30). -/
inductive Fsm where
  | idle
  | xfer
  | delay
  | guard
  | rdyWait
  | frameWait
  /-- DEDUCED (log 7): the one cycle in which an operation that "completes on the next edge" (R30)
  is in progress; R29 names no state for it. -/
  | single
  deriving DecidableEq, Repr, Inhabited

/-- The events of the bus trace (00_scope.md R12). -/
inductive Event where
  /-- `CsAssert`. -/
  | csAssert
  /-- `CsRelease`. -/
  | csRelease
  /-- `Guard(us)`. -/
  | guard (us : Nat)
  /-- `Byte(tx, rx, cs)`. -/
  | byte (tx rx : Byte) (cs : Bool)
  /-- `ByteTimeout(tx, cs)`. -/
  | byteTimeout (tx : Byte) (cs : Bool)
  /-- `Delay(n)`. -/
  | delay (us : Nat)
  /-- `ReadySample(r)`. -/
  | readySample (r : Bool)
  /-- `Handoff(f)`: the 24 frame bytes. -/
  | handoff (bytes : List Byte)
  deriving DecidableEq, Repr

/-- Why the model stops. -/
inductive Fault where
  /-- 60_exceptions.md R222, the one fault of a model of the block. Raised by `Safety.strictStep`
  alone, which reads a reserved code as R222 does (safe: the hardware goes on). The meanings, `exec`
  and `step` have the hardware's effect (45_status.md R203) and never raise it (log 1). -/
  | badOp
  deriving DecidableEq, Repr

/-- Why an instruction has no meaning. -/
inductive Refusal where
  /-- Raised by an arm of `exec` whose instruction has no meaning yet (safe). No arm does. -/
  | notModelled (mnemonic : String)
  deriving DecidableEq, Repr

/-- The state of the block and of its ports. -/
structure State where
  /-- The build-time parameters (R5); no step changes them (log 4). -/
  cfg : Config
  -- Architectural state, 10_state.md R25.
  /-- Chip select asserted. -/
  csActive : Bool
  /-- XCHG timeouts since reset, saturating. -/
  xferTimeouts : BitVec 16
  /-- A reserved code was accepted since reset; sticky. -/
  badOp : Bool
  /-- TXC owns the frame buffer. -/
  frameOwned : Bool
  /-- The frame buffer `frame[0..23]`. -/
  frame : Memory
  /-- The result of the last completed operation. -/
  resData : Word32
  -- Hidden state, 10_state.md R29.
  fsm : Fsm
  curOp : OpCode
  curArg0 : Word32
  curArg1 : Word32
  curArg2 : Word32
  curArg3 : Word32
  /-- The transfer shift register. -/
  shreg : Byte
  /-- Bits transferred in the current XCHG, 0..8: one for each MISO sample taken (log 10). -/
  bitcnt : Nat
  /-- clk cycles in the current SCLK half-period. -/
  sclkCnt : Nat
  /-- clk cycles since the current XCHG was accepted. -/
  wdog : Nat
  /-- The delay counter. -/
  dcnt : Nat
  /-- The count at which the current wait ends. -/
  dtarget : Nat
  drdyMeta : Bool
  drdySync : Bool
  doneR : Bool
  txStartR : Bool
  -- Output port levels no field above determines, 10_state.md R22 (log 8).
  sclk : Bool
  mosi : Bool
  -- The outside, 10_state.md R20 to R24, and the model's own counter for free values (log 3).
  inp : Inputs
  tick : Nat
  -- The observation of a run, 00_scope.md R12 (log 15).
  trace : List Event
  results : List Word32
  deriving DecidableEq, Repr

/-- The state right after reset (R25, R29, 70_reset_and_hazards.md R250, R251), with the default
parameters (log 4), a quiet outside (log 3), and nothing observed yet. -/
def State.reset : State where
  cfg := Config.default
  csActive := false
  xferTimeouts := 0#16
  badOp := false
  frameOwned := false
  frame := []
  resData := 0#32
  fsm := .idle
  curOp := 0#4
  curArg0 := 0#32
  curArg1 := 0#32
  curArg2 := 0#32
  curArg3 := 0#32
  shreg := 0#8
  bitcnt := 0
  sclkCnt := 0
  wdog := 0
  dcnt := 0
  dtarget := 0
  drdyMeta := true
  drdySync := true
  doneR := false
  txStartR := false
  sclk := false
  mosi := false
  inp := Inputs.quiet
  tick := 0
  trace := []
  results := []

end Sys2Proof.Machine
end

