-- ==== Sys2Proof/Machine/Ops.lean ====
section
/-! DEFINITION. The shared operations: the frame memory (20_memory.md R50 to R57), the pseudocode
primitives of 00_scope.md R16, completing and holding an operation, what each clock edge does, and
accepting an operation. The block takes no exception and returns from none (60_exceptions.md R220),
so there is no such operation here. -/

namespace Sys2Proof.Machine

/-! ## Outcomes -/

/-- The outcome of a meaning (Host/Core.lean). -/
abbrev Outcome := Host.Outcome State Fault Refusal

/-- Apply `f` to the next state of an outcome; a stop stays the stop it is. -/
def mapNext (f : State → State) : Outcome → Outcome
  | .next s => .next (f s)
  | .fault r => .fault r
  | .refused r => .refused r

/-- The next state of an outcome, or `s` where it stops. -/
def nextOr (s : State) : Outcome → State
  | .next t => t
  | .fault _ => s
  | .refused _ => s

/-! ## The frame memory (R50, R51) -/

/-- The number of bytes of the frame buffer (R50). -/
abbrev frameSize : Nat := 24

/-- One byte of memory; an unlisted address reads 0x00, the reset value (10_state.md R25). -/
def Memory.read (m : Memory) (a : Nat) : Byte :=
  match m with
  | [] => 0#8
  | (x, b) :: rest => if x = a then b else Memory.read rest a

/-- Write one byte, keeping the canonical form: writing 0x00 leaves the address unlisted. -/
def Memory.write (m : Memory) (a : Nat) (b : Byte) : Memory :=
  match m with
  | [] => if b = 0#8 then [] else [(a, b)]
  | (x, y) :: rest =>
    if a < x then (if b = 0#8 then (x, y) :: rest else (a, b) :: (x, y) :: rest)
    else if a = x then (if b = 0#8 then rest else (a, b) :: rest)
    else (x, y) :: Memory.write rest a b

/-- Write a list of bytes, first to last. -/
def Memory.writeAll (m : Memory) (stores : List (Nat × Byte)) : Memory :=
  match stores with
  | [] => m
  | (a, b) :: rest => Memory.writeAll (Memory.write m a b) rest

/-- The canonical form above a bound: addresses at least `lo`, strictly rising, inside the buffer,
and no entry equal to what an unlisted address reads as. -/
def Memory.wfFrom (lo : Nat) (m : Memory) : Bool :=
  match m with
  | [] => true
  | (x, b) :: rest =>
    decide (lo ≤ x) && decide (x < frameSize) && (b != 0#8) && Memory.wfFrom (x + 1) rest

/-- The canonical form of the frame memory. -/
def Memory.wf (m : Memory) : Bool := Memory.wfFrom 0 m

/-- The TXC read port (R51): addresses 0..23 read the frame, 24..31 read 0x00. -/
def Memory.readPort (m : Memory) (addr : BitVec 5) : Byte :=
  if addr.toNat < frameSize then Memory.read m addr.toNat else 0#8

/-- The 24 bytes of the frame, lowest address first. -/
def Memory.bytes (m : Memory) : List Byte := (List.range frameSize).map (Memory.read m)

/-- `be32(v)` (00_scope.md R15): the four bytes, most significant first. -/
def be32 (v : Word32) : List Byte :=
  [v.extractLsb' 24 8, v.extractLsb' 16 8, v.extractLsb' 8 8, v.extractLsb' 0 8]

/-! ## The pseudocode primitives (00_scope.md R16) -/

/-- `emit E`: append an event to the bus trace. -/
def State.emit (s : State) (e : Event) : State := { s with trace := s.trace ++ [e] }

/-- `return v`, the outcome `complete(v)` (00_scope.md R9, 10_state.md R30): `res_data` takes the
result, `done` is 1 for the next cycle, the control machine is idle, HOST gets the result. -/
def State.complete (s : State) (res : Word32) : State :=
  { s with resData := res, doneR := true, fsm := .idle, results := s.results ++ [res] }

/-- `hold until C` while `C` is false (00_scope.md R9): nothing but the waiting state (R30). -/
def State.hold (s : State) (wait : Fsm) : State := { s with fsm := wait }

/-- `ReadySample()` = NOT `drdy_sync` (41_select_ready.md R126). -/
def State.readySample (s : State) : Bool := !s.drdySync

/-- The counter target of a wait of `n` microseconds (40_bus_primitive.md R106). -/
def State.waitTarget (s : State) (n : Nat) : Nat := n * s.cfg.clkPerUs

/-- The start of `WaitUs(n)` (R106): reset to zero, armed. -/
def State.startWait (s : State) (n : Nat) : State :=
  { s with dcnt := 0, dtarget := s.waitTarget n }

/-- `WaitUs(n)` gone by (R106): the counter stands at its target; no other value changes
(00_scope.md R10). -/
def State.waitUs (s : State) (n : Nat) : State :=
  { s with dcnt := s.waitTarget n, dtarget := s.waitTarget n }

/-- What `BusXfer(tx)` returns (R16): the byte CONV drove, or a timeout. -/
inductive Xfer where
  | ok (rx : Byte)
  | timeout (p : StallPoint)
  deriving DecidableEq, Repr

/-- `BusXfer(tx)` at the level of whole operations: the byte on MISO, or the timeout alternative
that every XCHG has (40_bus_primitive.md R102, R104). Both are the outside's (log 3, log 5, log 6). -/
def State.busXfer (s : State) : Xfer :=
  if s.inp.xferStall then .timeout (Config.stalled s.tick) else .ok s.inp.misoByte

/-- The start of a transfer (R103). With `SPI_CPHA = 0` the first bit is on MOSI half a period
before the first leading edge; with `SPI_CPHA = 1` MOSI has not changed yet (log 9). -/
def State.startXfer (s : State) (tx : Byte) : State :=
  { s with
    shreg := tx, bitcnt := 0, sclkCnt := 0, wdog := 0
    mosi := if s.cfg.spiCpha then false else tx.getLsbD 7 }

/-- The clk cycles a whole transfer has taken: `8*SCLK_DIV` where it completed
(70_reset_and_hazards.md R270), `XFER_TIMEOUT_CYCLES` where the watchdog ended it (R102; log 27). -/
def State.elapseXfer (s : State) (r : Xfer) : State :=
  match r with
  | .ok _ => { s with wdog := 8 * s.cfg.sclkDiv }
  | .timeout _ => { s with wdog := s.cfg.xferTimeoutCycles }

/-- The end of a transfer that completed (R103): eight bits in, SCLK and MOSI idle
(10_state.md R22). -/
def State.endXfer (s : State) (rx : Byte) : State :=
  { s with shreg := rx, bitcnt := 8, sclkCnt := 0, sclk := s.cfg.spiCpol, mosi := false }

/-- The end of a transfer the watchdog abandoned (R102): SCLK and MOSI idle. -/
def State.abandonXfer (s : State) (p : StallPoint) : State :=
  { s with
    shreg := p.byte, bitcnt := p.bits.val, sclkCnt := p.cnt % (s.cfg.sclkDiv / 2)
    sclk := s.cfg.spiCpol, mosi := false }

/-- The writes and the hand-off of FRAME (44_framer.md R181, R185). -/
def State.handoff (s : State) : State := { s with frameOwned := true, txStartR := true }

/-! ## What a clock edge does besides the operation in progress -/

/-- `done` and `tx_start` are one-cycle pulses (10_state.md R21, R24). -/
def State.clearPulses (s : State) : State := { s with doneR := false, txStartR := false }

/-- The synchronizer (41_select_ready.md R126): `drdy_meta <- drdy_n`, `drdy_sync <- drdy_meta`. -/
def State.syncEdge (s : State) (drdyN : Bool) : State :=
  { s with drdyMeta := drdyN, drdySync := s.drdyMeta }

/-- `tx_done` on an edge (20_memory.md R56): it ends an ownership that stood before the edge
(`owned`), and is ignored where there was none. -/
def State.txDoneEdge (s : State) (owned txDone : Bool) : State :=
  if owned && txDone then { s with frameOwned := false } else s

/-- An edge with `rst_n = 0` (70_reset_and_hazards.md R250): every field of R25 and R29 takes its
reset value and the ports are idle (R251). The parameters, the outside and what was observed stay
(log 4, log 15). -/
def State.resetEdge (s : State) : State :=
  { State.reset with
    cfg := s.cfg, sclk := s.cfg.spiCpol
    inp := s.inp, tick := s.tick, trace := s.trace, results := s.results }

/-! ## Accepting an operation (10_state.md R21, R30) -/

/-- The latched command word. -/
def State.latchedWord (s : State) : CmdWord :=
  packWord s.curOp s.curArg0 s.curArg1 s.curArg2 s.curArg3

/-- Latch `op_code` and the operands (R21). -/
def State.latch (s : State) (w : CmdWord) : State :=
  { s with
    curOp := fieldOpCode w
    curArg0 := fieldArg0 w, curArg1 := fieldArg1 w, curArg2 := fieldArg2 w, curArg3 := fieldArg3 w }

/-- Where an accepted operation moves the control machine (R30). -/
def acceptFsm (code : OpCode) (a0 : Word32) (owned : Bool) : Fsm :=
  match code with
  | 0x1#4 => .xfer
  | 0x2#4 => .delay
  | 0x3#4 => if operandFlag a0 then .single else .guard
  | 0x5#4 => .rdyWait
  | 0x7#4 => if owned then .frameWait else .single
  | _ => .single

/-- What starts on the accepting edge: the transfer (R103) or the wait (40_bus_primitive.md R106,
41_select_ready.md R122). -/
def State.startOp (s : State) (w : CmdWord) : State :=
  match acceptFsm (fieldOpCode w) (fieldArg0 w) s.frameOwned with
  | .xfer => s.startXfer (operandByte (fieldArg0 w))
  | .delay => s.startWait (operandCount (fieldArg0 w)).toNat
  | .guard => s.startWait Config.guardUs
  | .single => s
  | .rdyWait => s
  | .frameWait => s
  | .idle => s

/-- Accept a command word. -/
def State.accept (s : State) (w : CmdWord) : State :=
  { (s.startOp w).latch w with fsm := acceptFsm (fieldOpCode w) (fieldArg0 w) s.frameOwned }

end Sys2Proof.Machine
end

