-- ==== Sys2Proof/Machine/Operands.lean ====
section
/-! DEFINITION. The values the operations compute from their operands: the sign-extender
(43_sign_extend.md R171) and the bytes FRAME stores (44_framer.md R181, R182). The operand slices
themselves are in Decode.lean (30_encoding.md R73). -/

namespace Sys2Proof.Machine

/-- `zext_32` (00_scope.md R14) of a received byte. -/
def zextByte (b : Byte) : Word32 := b.zeroExtend 32

/-- `zext_32` of one bit. -/
def zextBool (b : Bool) : Word32 := if b then 1#32 else 0#32

/-- `sext_32(u)` (00_scope.md R14) as an integer. -/
def sext32 (u : U24) : Int := if u.getLsbD 23 then (u.toNat : Int) - 2 ^ 24 else (u.toNat : Int)

/-- `((~u) & 0x7FFFFF) + 1` in 32-bit arithmetic (R171). -/
def sx24Magnitude (u : U24) : Word32 := ((~~~ (u.zeroExtend 32)) &&& 0x7FFFFF#32) + 1#32

/-- The source's decode (R171): a positive value as it is, a negative one as its negated
magnitude. -/
def sx24Value (u : U24) : Word32 :=
  if u.getLsbD 23 then 0#32 - sx24Magnitude u else u.zeroExtend 32

/-- The offset of channel `k`'s tag byte: 2, 7, 12, 17 (R181). -/
def tagOffset (k : Nat) : Nat := 2 + 5 * k

/-- The stores of one channel (R181; in defect mode R182: bits 15..8 are overwritten by bits 7..0
and `frame[o+4]` is not written). -/
def channelStores (defect : Bool) (k : Nat) (v : Word32) : List (Nat × Byte) :=
  let o := tagOffset k
  if defect then
    [(o, BitVec.ofNat 8 (k + 1)), (o + 1, v.extractLsb' 24 8), (o + 2, v.extractLsb' 16 8),
     (o + 3, v.extractLsb' 0 8)]
  else
    [(o, BitVec.ofNat 8 (k + 1)), (o + 1, v.extractLsb' 24 8), (o + 2, v.extractLsb' 16 8),
     (o + 3, v.extractLsb' 8 8), (o + 4, v.extractLsb' 0 8)]

/-- All stores of a FRAME, in the order of R181. -/
def frameStores (defect : Bool) (ch1 ch2 ch3 ch4 : Word32) : List (Nat × Byte) :=
  [(0, 0xAA#8), (1, 0xBB#8)] ++ channelStores defect 0 ch1 ++ channelStores defect 1 ch2 ++
    channelStores defect 2 ch3 ++ channelStores defect 3 ch4 ++ [(22, 0xCC#8), (23, 0xDD#8)]

/-- The addresses a FRAME stores to (R183). -/
def frameStoreAddrs (defect : Bool) (ch1 ch2 ch3 ch4 : Word32) : List Nat :=
  (frameStores defect ch1 ch2 ch3 ch4).map Prod.fst

end Sys2Proof.Machine
end

