-- ==== Sys2Proof/Machine/Flags.lean ====
section
/-! DEFINITION. The block's three status indications (10_state.md R28) and the status word (R31).
It has no condition codes. -/

namespace Sys2Proof.Machine

/-- `xfer_timeouts` counts one more timeout, saturating at 0xFFFF (40_bus_primitive.md R101). -/
def State.countTimeout (s : State) : State :=
  { s with xferTimeouts := if s.xferTimeouts = 0xFFFF#16 then 0xFFFF#16 else s.xferTimeouts + 1#16 }

/-- `bad_op <- 1` (45_status.md R203); sticky. -/
def State.setBadOp (s : State) : State := { s with badOp := true }

/-- The status word (R31): `[31:21]` zero, then `FRAME_LSB_DEFECT`, `ready`, `cs_active`,
`frame_owned`, `bad_op`, and `xfer_timeouts` in `[15:0]`. -/
def State.statusWord (s : State) : Word32 :=
  0#11 ++ BitVec.ofBool s.cfg.frameLsbDefect ++ BitVec.ofBool s.readySample ++
    BitVec.ofBool s.csActive ++ BitVec.ofBool s.frameOwned ++ BitVec.ofBool s.badOp ++
    s.xferTimeouts

end Sys2Proof.Machine
end

