-- ==== Sys2Proof/Machine/Bus.lean ====
section
/-! DEFINITION. XCHG and DELAY (40_bus_primitive.md R100 to R107). -/

namespace Sys2Proof.Machine

/-- The completion of an exchange of `tx` with its outcome (R101): `Byte` and the received byte, or
one more timeout, `ByteTimeout` and the last-seen byte (R102). `cs_active` is recorded, never
tested or changed (R104). -/
def State.finishXfer (s : State) (tx : Byte) (r : Xfer) : State :=
  match r with
  | .ok rx => ((s.endXfer rx).emit (.byte tx rx s.csActive)).complete (zextByte rx)
  | .timeout p =>
    ((s.abandonXfer p).countTimeout.emit (.byteTimeout tx s.csActive)).complete (zextByte p.byte)

/-- One whole exchange of `tx` (R101). -/
def State.exchange (s : State) (tx : Byte) : State :=
  (s.elapseXfer s.busXfer).finishXfer tx s.busXfer

/-- XCHG (R101). -/
def execXchg (tx : Byte) (s : State) : Outcome := .next (s.exchange tx)

/-- The completion of a delay of `n` microseconds (R105). -/
def State.finishDelay (s : State) (n : BitVec 16) : State :=
  (s.emit (.delay n.toNat)).complete 0#32

/-- DELAY (R105): no effect on any value but the counter (R107). -/
def execDelay (n : BitVec 16) (s : State) : Outcome := .next ((s.waitUs n.toNat).finishDelay n)

end Sys2Proof.Machine
end

