-- ==== Sys2Proof/Machine/Select.lean ====
section
/-! DEFINITION. CSEL, RDYT and RDYW (41_select_ready.md R120 to R129). -/

namespace Sys2Proof.Machine

/-- CSEL 1 (R121): a level, so an asserted chip select stays and nothing is emitted (R124). -/
def State.assertSelect (s : State) : State :=
  if s.csActive then s else ({ s with csActive := true }).emit .csAssert

/-- What CSEL 0 does once its guard is over (R121): `Guard` always, `CsRelease` where chip select
was asserted. -/
def State.releaseSelect (s : State) : State :=
  let t := s.emit (.guard Config.guardUs)
  if s.csActive then ({ t with csActive := false }).emit .csRelease else t

/-- CSEL (R121). -/
def execCsel (a : Bool) (s : State) : Outcome :=
  if a then .next (s.assertSelect.complete 0#32)
  else .next ((s.waitUs Config.guardUs).releaseSelect.complete 0#32)

/-- RDYT (R125): the synchronized sample. -/
def execRdyt (s : State) : Outcome :=
  .next ((s.emit (.readySample s.readySample)).complete (zextBool s.readySample))

/-- RDYW (R127): hold until the sample is 1; no timeout (R128). -/
def execRdyw (s : State) : Outcome :=
  if s.readySample then .next ((s.emit (.readySample true)).complete 0#32)
  else .next (s.hold .rdyWait)

end Sys2Proof.Machine
end

