-- ==== Sys2Proof/Machine/SignExtend.lean ====
section
/-! DEFINITION. SX24 (43_sign_extend.md R170 to R176). -/

namespace Sys2Proof.Machine

/-- SX24 (R171): a pure function of its operand (R170). -/
def execSx24 (u : U24) (s : State) : Outcome := .next (s.complete (sx24Value u))

end Sys2Proof.Machine
end

