-- ==== Sys2Proof/Machine/Framer.lean ====
section
/-! DEFINITION. FRAME (44_framer.md R180 to R190). -/

namespace Sys2Proof.Machine

/-- The frame after the stores of a FRAME (R181, R182). -/
def State.writeFrame (s : State) (ch1 ch2 ch3 ch4 : Word32) : State :=
  { s with frame := Memory.writeAll s.frame (frameStores s.cfg.frameLsbDefect ch1 ch2 ch3 ch4) }

/-- `emit Handoff(frame[0..23])` (R181). -/
def State.emitHandoff (s : State) : State := s.emit (.handoff (Memory.bytes s.frame))

/-- FRAME (R181): while TXC owns the buffer it writes nothing and holds (R184); otherwise it stores,
hands off (R185) and completes without waiting for `tx_done` (R186). -/
def execFrame (ch1 ch2 ch3 ch4 : Word32) (s : State) : Outcome :=
  if s.frameOwned then .next (s.hold .frameWait)
  else .next ((s.writeFrame ch1 ch2 ch3 ch4).handoff.emitHandoff.complete 0#32)

end Sys2Proof.Machine
end

