-- ==== Sys2Proof/Machine/Status.lean ====
section
/-! DEFINITION. STAT and the reserved codes (45_status.md R200 to R203). -/

namespace Sys2Proof.Machine

/-- STAT (R201): the status word; reading changes nothing. -/
def execStat (s : State) : Outcome := .next (s.complete s.statusWord)

/-- A reserved code in the hardware (R203): `bad_op <- 1`, result 0. The fault `BadOp` a model may
read it as (60_exceptions.md R222) is `Safety.strictStep` (log 1). -/
def State.reservedOp (s : State) : State := s.setBadOp.complete 0#32

/-- Reserved code 0x0 (R203). -/
def execReserved0 (s : State) : Outcome := .next s.reservedOp
/-- Reserved code 0x9 (R203). -/
def execReserved9 (s : State) : Outcome := .next s.reservedOp
/-- Reserved code 0xA (R203). -/
def execReservedA (s : State) : Outcome := .next s.reservedOp
/-- Reserved code 0xB (R203). -/
def execReservedB (s : State) : Outcome := .next s.reservedOp
/-- Reserved code 0xC (R203). -/
def execReservedC (s : State) : Outcome := .next s.reservedOp
/-- Reserved code 0xD (R203). -/
def execReservedD (s : State) : Outcome := .next s.reservedOp
/-- Reserved code 0xE (R203). -/
def execReservedE (s : State) : Outcome := .next s.reservedOp
/-- Reserved code 0xF (R203). -/
def execReservedF (s : State) : Outcome := .next s.reservedOp

end Sys2Proof.Machine
end

