-- ==== Sys2Proof/Machine/BusCommands.lean ====
section
/-! DEFINITION. The converter's command bytes (42_bus_commands.md R142 to R147). They "are data that
HOST passes to XCHG, not operations of the block" (30_encoding.md R74), and the block decodes none of
them (40_bus_primitive.md R100): what each does to the block is the exchange of its byte (log 13).
What the converter does with it is CONV's, outside the block. -/

namespace Sys2Proof.Machine

/-- WREG: the byte `0x50 | (addr & 0x0F)` (R142). -/
def execWreg (addr : BitVec 4) (s : State) : Outcome :=
  .next (s.exchange (wregByte (addr.zeroExtend 8)))
/-- RREG: the byte `0x10 | start` (R143). -/
def execRreg (start : BitVec 4) (s : State) : Outcome := .next (s.exchange (rregByte start))
/-- RDATA: the byte 0x01 (R144). -/
def execRdata (s : State) : Outcome := .next (s.exchange rdataByte)
/-- SYNC: the byte 0xFC (R145). -/
def execSync (s : State) : Outcome := .next (s.exchange syncByte)
/-- WAKEUP: the byte 0xFF (R145). -/
def execWakeup (s : State) : Outcome := .next (s.exchange wakeupByte)
/-- RESET: the byte 0xFE (R146); it resets no part of the block (70_reset_and_hazards.md R254). -/
def execReset (s : State) : Outcome := .next (s.exchange resetByte)

end Sys2Proof.Machine
end

