-- ==== Sys2Proof/Machine/Dispatch.lean ====
section
/-! DEFINITION. One arm per constructor of `Instr`. -/

namespace Sys2Proof.Machine

/-- The operation `i` at a state in which it has been accepted: it completes or holds
(00_scope.md R9). -/
def exec (i : Instr) (s : State) : Host.Outcome State Fault Refusal :=
  match i with
  | .xchg tx => Sys2Proof.Machine.execXchg tx s
  | .delay n => Sys2Proof.Machine.execDelay n s
  | .csel a => Sys2Proof.Machine.execCsel a s
  | .rdyt => Sys2Proof.Machine.execRdyt s
  | .rdyw => Sys2Proof.Machine.execRdyw s
  | .sx24 u => Sys2Proof.Machine.execSx24 u s
  | .frame ch1 ch2 ch3 ch4 => Sys2Proof.Machine.execFrame ch1 ch2 ch3 ch4 s
  | .stat => Sys2Proof.Machine.execStat s
  | .reserved0 => Sys2Proof.Machine.execReserved0 s
  | .reserved9 => Sys2Proof.Machine.execReserved9 s
  | .reservedA => Sys2Proof.Machine.execReservedA s
  | .reservedB => Sys2Proof.Machine.execReservedB s
  | .reservedC => Sys2Proof.Machine.execReservedC s
  | .reservedD => Sys2Proof.Machine.execReservedD s
  | .reservedE => Sys2Proof.Machine.execReservedE s
  | .reservedF => Sys2Proof.Machine.execReservedF s
  | .wreg addr => Sys2Proof.Machine.execWreg addr s
  | .rreg start => Sys2Proof.Machine.execRreg start s
  | .rdata => Sys2Proof.Machine.execRdata s
  | .sync => Sys2Proof.Machine.execSync s
  | .wakeup => Sys2Proof.Machine.execWakeup s
  | .reset => Sys2Proof.Machine.execReset s

end Sys2Proof.Machine
end

