-- ==== Sys2Proof/Machine/Fetch.lean ====
section
/-! DEFINITION. How the block takes its next operation from the command port
(10_state.md R21, R27, R30) and what one step adds around `exec`. The block fetches nothing
(20_memory.md R61): HOST presents each operation. -/

namespace Sys2Proof.Machine

/-! ## The edges of one step (log 2, log 12) -/

/-- The edge on which an operation is accepted: the pulses end, the word is latched and its work
starts, the synchronizer samples, `tx_done` is taken. -/
def State.acceptEdge (s : State) (p : Presented) : State :=
  ((s.clearPulses.accept p.word).txDoneEdge s.frameOwned s.inp.txDone).syncEdge s.inp.drdyN

/-- An edge on which no operation is accepted: the block is idle with nothing presented, or an
operation is held. -/
def State.waitEdge (s : State) : State :=
  (s.clearPulses.txDoneEdge s.frameOwned s.inp.txDone).syncEdge s.inp.drdyN

/-- The edge on which an operation completes or goes on waiting, besides the operation's effect. -/
def State.finishEdge (s : State) : State := s.syncEdge s.inp.drdyN

/-- Go on to the outside's next levels. -/
def State.advance (s : State) (next : Inputs) : State :=
  { s with inp := next, tick := s.tick + 1 }

/-- HOST must "hold `op_valid` and the word until accepted" (60_exceptions.md R236; log 20): while an
operation is held the port is not read, so what HOST presents stays. -/
def heldOver (old next : Inputs) : Inputs :=
  if old.host.isSome then { next with host := old.host } else next

/-- The operation latched in the block. -/
def State.latchedInstr (s : State) : Instr := decodeWord s.latchedWord

/-- One step of the block, `next` being the levels the outside drives afterwards. In this order:
reset wins over everything (60_exceptions.md R226); an idle block accepts the operation HOST
presents and runs it, or idles for one clock cycle; a block that holds an operation tries it again
(00_scope.md R9). -/
def runStep (next : Inputs) (s : State) : Outcome :=
  if s.inp.rstN then
    match s.fsm with
    | .idle =>
      match s.inp.host with
      | none => .next (s.waitEdge.advance next)
      | some p =>
        mapNext (fun t => t.finishEdge.advance next) (exec (decodePresented p) (s.acceptEdge p))
    | .xfer | .delay | .guard | .rdyWait | .frameWait | .single =>
      mapNext (fun t => t.finishEdge.advance (heldOver s.inp next)) (exec s.latchedInstr s.waitEdge)
  else .next (s.resetEdge.advance next)

/-- A run whose outside is given: one step for each of `inputs`, the levels after each step. -/
def runInputs (inputs : List Inputs) (s : State) : Outcome :=
  match inputs with
  | [] => .next s
  | next :: rest =>
    match runStep next s with
    | .next t => runInputs rest t
    | .fault r => .fault r
    | .refused r => .refused r

/-- An idle block with one operation on its command port and no reset asserted. -/
def State.presenting (s : State) (p : Presented) : State :=
  { s with fsm := .idle, inp := { s.inp with rstN := true, host := some p } }

end Sys2Proof.Machine
end

