-- ==== Sys2Proof/Machine/Step.lean ====
section
/-! DEFINITION. One step of the machine, and presenting one table word to it. -/

namespace Sys2Proof.Machine

/-- One step: the outside's next levels are free (`Config.outside`, log 3). -/
def step (s : State) : Host.Outcome State Fault Refusal := runStep (Config.outside s.tick) s

/-- `s` with a table row's word presented on the command port (log 16). -/
def State.withFetchWord (s : State) (nbits w : Nat) : State :=
  s.presenting (presentedOfTable nbits w)

end Sys2Proof.Machine
end

