-- ==== Sys2Proof/Machine/Client.lean ====
section
/-! DEFINITION. The client protocol (42_bus_commands.md): the operation sequences HOST issues
(R148 to R157), the monitor of what HOST owes the converter (R161 to R163), the converter's registers and
results as the bus trace shows them (R160, R162), and where a result in the host's buffer comes from (R164
to R166). None of it is state of the block (10_state.md R32), and the
block enforces none of it (R140). -/

namespace Sys2Proof.Machine

/-! ## The sequences (R150 to R157) -/

/-- The client parameters the spec leaves OPEN: the dummy byte `d` (R152, R153), `SYNC_WAKE_US`
(R154) and `SETTLE_US` (R157). -/
structure ClientParams where
  dummy : Byte
  syncWakeUs : BitVec 16
  settleUs : BitVec 16
  deriving DecidableEq, Repr, Inhabited

/-- `DELAY 5`: the inter-byte delay. -/
abbrev Client.gap : Instr := .delay 5#16

/-- SEL (R150). -/
def Client.sel : List Instr := [.csel true]

/-- DESEL (R150). -/
def Client.desel : List Instr := [.csel false]

/-- WREG addr, value (R151). -/
def Client.wreg (addr value : Byte) : List Instr :=
  [.csel true, .rdyw, .xchg (wregByte addr), Client.gap, .xchg 0x00#8, Client.gap, .xchg value,
    Client.gap, .csel false]

/-- One dummy exchange of a burst read and the spacing after it (R152). -/
def Client.burstByte (c : ClientParams) : List Instr := [.xchg c.dummy, Client.gap]

/-- RREG5 (R152): STATUS, MUX, ADCON, DRATE, IO in that order. -/
def Client.rreg5 (c : ClientParams) : List Instr :=
  [.csel true, .rdyw, .xchg (rregByte 0#4), Client.gap, .xchg 0x04#8, .delay 10#16] ++
    Client.burstByte c ++ Client.burstByte c ++ Client.burstByte c ++ Client.burstByte c ++
    Client.burstByte c ++ [.csel false]

/-- RDATA without its last operation (R153): HOST assembles the operand of SX24 from the results. -/
def Client.rdataExchanges (c : ClientParams) : List Instr :=
  [.csel true, .xchg rdataByte, Client.gap, .xchg c.dummy, .xchg c.dummy, .xchg c.dummy,
    .csel false]

/-- `u = (b0 << 16) | (b1 << 8) | b2` (R149). -/
def Client.resultOperand (b0 b1 b2 : Byte) : U24 := b0 ++ b1 ++ b2

/-- RDATA with the three bytes HOST has received (R153). -/
def Client.rdata (c : ClientParams) (b0 b1 b2 : Byte) : List Instr :=
  Client.rdataExchanges c ++ [.sx24 (Client.resultOperand b0 b1 b2)]

/-- SYNCWAKE (R154). -/
def Client.syncWake (c : ClientParams) : List Instr :=
  [.xchg syncByte, .delay c.syncWakeUs, .xchg wakeupByte]

/-- The channel pair byte `(positive << 4) | negative` (R148). -/
def Client.pairByte (pos neg : BitVec 4) : Byte := pos ++ neg

/-- The pair byte of scan step `i`: the pair `(2*i, 2*i+1)` (R156). -/
def Client.scanPair (i : Fin 4) : Byte :=
  Client.pairByte (BitVec.ofNat 4 (2 * i.val)) (BitVec.ofNat 4 (2 * i.val + 1))

/-- The address of the MUX register (R141). -/
abbrev Client.muxAddr : Byte := 0x01#8

/-- `readChannel(pos, neg)` (R155): the operations, and the last-configured pair HOST keeps. The
bytes are those the converter returns. -/
def Client.readChannel (c : ClientParams) (last : Option Byte) (pos neg : BitVec 4)
    (b0 b1 b2 : Byte) : List Instr × Option Byte :=
  let pair := Client.pairByte pos neg
  let write := if last = some pair then [] else Client.wreg Client.muxAddr pair
  ([.csel true, .rdyw] ++ write ++ Client.syncWake c ++ [.rdyw] ++ Client.rdata c b0 b1 b2 ++
    [.csel false], some pair)

/-- One step of the scan cycle (R156), with the ready poll before the result read
(90_conflicts.md C4). -/
def Client.scanStep (c : ClientParams) (i : Fin 4) (b0 b1 b2 : Byte) : List Instr :=
  [.rdyw] ++ Client.wreg Client.muxAddr (Client.scanPair i) ++ Client.syncWake c ++ [.rdyw] ++
    Client.rdata c b0 b1 b2

/-- The scan cycle: `i = 0, 1, 2, 3` (R156, 90_conflicts.md C7); `bytes i` are the result bytes of step
`i`. -/
def Client.scanCycle (c : ClientParams) (bytes : Fin 4 → Byte × Byte × Byte) : List Instr :=
  (List.finRange 4).flatMap fun i => Client.scanStep c i (bytes i).1 (bytes i).2.1 (bytes i).2.2

/-- The initialization writes after the converter's reset pulse, which is on no port of the block
(R157): STATUS, MUX, ADCON, DRATE, IO, each followed by `DELAY SETTLE_US`, then SYNC and WAKEUP. -/
def Client.initialize (c : ClientParams) (s m a r o : Byte) : List Instr :=
  Client.wreg 0x00#8 s ++ [.delay c.settleUs] ++ Client.wreg 0x01#8 m ++ [.delay c.settleUs] ++
    Client.wreg 0x02#8 a ++ [.delay c.settleUs] ++ Client.wreg 0x03#8 r ++ [.delay c.settleUs] ++
    Client.wreg 0x04#8 o ++ [.delay c.settleUs] ++ Client.syncWake c

/-- HOST presents one operation while the outside drives `levels` (60_exceptions.md R236). -/
def hostIssues (i : Instr) (levels : Inputs) (s : State) : Outcome :=
  runStep levels { s with inp := { levels with rstN := true, host := some (encode i) } }

/-- HOST issues operations in order, each completing before the next (20_memory.md R58), the outside
driving each one's own levels; an operation that holds ends the run there. -/
def runHost (ops : List (Instr × Inputs)) (s : State) : Outcome :=
  match ops with
  | [] => .next s
  | (i, levels) :: rest =>
    match hostIssues i levels s with
    | .next t => if t.fsm = .idle then runHost rest t else .next t
    | .fault r => .fault r
    | .refused r => .refused r

/-! ## The operand HOST builds (R149, R153) -/

/-- What HOST issues in a sequence: an operation, or the SX24 whose operand it builds from the results of the
RDATA before it (R153; log 18). -/
inductive AsmItem where
  | op (i : Instr)
  | sx24FromHost
  deriving DecidableEq, Repr

/-- The byte an exchange returned, by its place among the results. -/
def Client.byteAt (results : List Word32) (k : Nat) : Option Byte := (results[k]?).map operandByte

/-- The places of the three result bytes among the results of RDATA's exchanges (R153). -/
def Client.rdataResults : List Nat := [3, 4, 5]

/-- The SX24 operand HOST builds from the results of RDATA's exchanges: the first received byte is the most
significant (R149, R153). -/
def Client.operandFrom (results : List Word32) : Option U24 :=
  match Client.rdataResults.map (Client.byteAt results) with
  | [some b0, some b1, some b2] => some (Client.resultOperand b0 b1 b2)
  | _ => none

/-- The same from all results HOST has, RDATA's exchanges being its last seven operations. -/
def Client.lastOperand (results : List Word32) : Option U24 :=
  Client.operandFrom (results.drop (results.length - 7))

/-- The operation an item is, with the results HOST has; none where it has no operand to build. -/
def AsmItem.instr (results : List Word32) : AsmItem → Option Instr
  | .op i => some i
  | .sx24FromHost => (Client.lastOperand results).map .sx24

/-- RDATA whole (R153): the exchanges, then the SX24 of the three bytes they returned. -/
def Client.rdataItems (c : ClientParams) : List AsmItem :=
  (Client.rdataExchanges c).map .op ++ [.sx24FromHost]

/-- HOST issues items in order as `runHost` does operations; where it has no operand to build it issues
nothing more. -/
def runItems (items : List (AsmItem × Inputs)) (s : State) : Outcome :=
  match items with
  | [] => .next s
  | (item, levels) :: rest =>
    match item.instr s.results with
    | none => .next s
    | some i =>
      match hostIssues i levels s with
      | .next t => if t.fsm = .idle then runItems rest t else .next t
      | .fault r => .fault r
      | .refused r => .refused r

/-! ## What HOST owes the converter (R161 to R163), read off the bus trace -/

/-- Where a byte stream stands inside a converter command: `needUs` is the spacing the next byte
needs (R162). -/
inductive ClientPhase where
  | command
  | wregCount
  | wregValue
  | rregCount
  | rregData (needUs left : Nat)
  | rdataByte (needUs left : Nat)
  deriving DecidableEq, Repr

/-- The monitor: the phase, whether a `ReadySample(1)` was seen since the last byte, the
microseconds waited since it, and whether every obligation was met so far. -/
structure Monitor where
  phase : ClientPhase
  ready : Bool
  gapUs : Nat
  ok : Bool
  deriving DecidableEq, Repr

/-- Nothing seen yet. -/
def Monitor.start : Monitor where
  phase := .command
  ready := false
  gapUs := 0
  ok := true

/-- The phase after a byte, and whether that byte met its obligations: a WREG or RDATA starts after a
`ReadySample(1)` (R163), every other byte after its spacing (R162), and the second byte of a two-part
command is the one of R142, R143. DESIGN CHOICE (log 19): a burst read whose start address is not 0 breaks
HOST's obligations, since "no other start address or count is used" (R143); its bytes are counted as those
of start address 0. -/
def Monitor.judge (m : Monitor) (tx : Byte) : ClientPhase × Bool :=
  match m.phase with
  | .command =>
    if tx &&& 0xF0#8 = 0x50#8 then (.wregCount, m.ready)
    else if tx &&& 0xF0#8 = 0x10#8 then (.rregCount, tx == rregByte 0#4)
    else if tx = rdataByte then (.rdataByte 5 3, m.ready)
    else (.command, true)
  | .wregCount => (.wregValue, decide (5 ≤ m.gapUs) && tx == 0x00#8)
  | .wregValue => (.command, decide (5 ≤ m.gapUs))
  | .rregCount => (.rregData 10 5, decide (5 ≤ m.gapUs) && tx == 0x04#8)
  | .rregData need left =>
    (if left ≤ 1 then .command else .rregData 5 (left - 1), decide (need ≤ m.gapUs))
  | .rdataByte need left =>
    (if left ≤ 1 then .command else .rdataByte 0 (left - 1), decide (need ≤ m.gapUs))

/-- A byte on the bus. -/
def Monitor.onByte (m : Monitor) (tx : Byte) : Monitor where
  phase := (m.judge tx).1
  ready := false
  gapUs := 0
  ok := m.ok && (m.judge tx).2

/-- One event of the trace. `Delay` and `Guard` are the waits a trace shows (00_scope.md R10). -/
def Monitor.event (m : Monitor) (e : Event) : Monitor :=
  match e with
  | .csAssert => m
  | .csRelease => m
  | .guard us => { m with gapUs := m.gapUs + us }
  | .delay us => { m with gapUs := m.gapUs + us }
  | .byte tx _ _ => m.onByte tx
  | .byteTimeout tx _ => m.onByte tx
  | .readySample r => { m with ready := m.ready || r }
  | .handoff _ => m

/-- The monitor after a trace. -/
def Monitor.run (m : Monitor) (trace : List Event) : Monitor := trace.foldl Monitor.event m

/-- A trace in which HOST met its obligations (R161 to R163; log 19). -/
def Client.conforms (trace : List Event) : Bool := (Monitor.start.run trace).ok

/-! ## The converter's registers and results, read off the bus trace (R160, R162; log 28) -/

/-- What is known of the five registers (R141); none where the spec does not say what a register holds. -/
structure ConvRegs where
  status : Option Byte
  mux : Option Byte
  adcon : Option Byte
  drate : Option Byte
  io : Option Byte
  deriving DecidableEq, Repr

/-- Nothing is known: any value (R162). -/
def ConvRegs.unknown : ConvRegs := ⟨none, none, none, none, none⟩

/-- The register at an address (R141); an address no register is named at holds no known value. -/
def ConvRegs.get (r : ConvRegs) (addr : BitVec 4) : Option Byte :=
  match addr.toNat with
  | 0 => r.status
  | 1 => r.mux
  | 2 => r.adcon
  | 3 => r.drate
  | 4 => r.io
  | _ => none

/-- An explicit write (R160). What a write to an address no register is named at does is not in the spec,
so nothing is known after it. -/
def ConvRegs.set (r : ConvRegs) (addr : BitVec 4) (value : Byte) : ConvRegs :=
  match addr.toNat with
  | 0 => { r with status := some value }
  | 1 => { r with mux := some value }
  | 2 => { r with adcon := some value }
  | 3 => { r with drate := some value }
  | 4 => { r with io := some value }
  | _ => ConvRegs.unknown

/-- One result read: the channel pair in the MUX register at that moment, and the pair the result was
converted under (R165). -/
structure ResultRead where
  mux : Option Byte
  source : Option Byte
  deriving DecidableEq, Repr

/-- The converter as a bus trace shows it: the monitor's reading of the commands, whether the converter's own
reading of them may differ from it (`lost`), the address of the write command in progress, the registers,
the values the last burst read gave for the registers, the pair of the conversion in flight, the results
read so far. -/
structure ConverterView where
  monitor : Monitor
  lost : Bool
  writing : BitVec 4
  regs : ConvRegs
  readBack : ConvRegs
  inFlight : Option Byte
  reads : List ResultRead
  deriving DecidableEq, Repr

/-- Nothing seen yet: the source gives no register value (91_not_in_source.md). -/
def ConverterView.start : ConverterView where
  monitor := Monitor.start
  lost := false
  writing := 0#4
  regs := ConvRegs.unknown
  readBack := ConvRegs.unknown
  inFlight := none
  reads := []

/-- The registers, what was read back of them, and the conversion in flight may be anything from here on. -/
def ConverterView.forget (v : ConverterView) : ConverterView :=
  { v with regs := ConvRegs.unknown, readBack := ConvRegs.unknown, inFlight := none }

/-- The converter may have taken other bytes than the monitor reads. -/
def ConverterView.lose (v : ConverterView) : ConverterView := { v with lost := true }

/-- A value byte reaches the register its command addresses (R142, R160). -/
def ConverterView.write (v : ConverterView) (value : Byte) : ConverterView :=
  { v with regs := v.regs.set v.writing value }

/-- The register a burst read gives when `left` data bytes are still to come, this one included: STATUS, MUX,
ADCON, DRATE, IO in that order, from start address 0 (R143). -/
def Client.burstAddr (left : Nat) : BitVec 4 := BitVec.ofNat 4 (5 - left)

/-- A data byte of a burst read: the byte received is the value of its register (R143). Reading changes no
register. -/
def ConverterView.readRegister (v : ConverterView) (left : Nat) (rx : Byte) : ConverterView :=
  { v with readBack := v.readBack.set (Client.burstAddr left) rx }

/-- The third result byte: the result is the conversion in flight, and the next one runs under the MUX
register as it stands (R165). -/
def ConverterView.readResult (v : ConverterView) : ConverterView :=
  { v with reads := v.reads ++ [⟨v.regs.mux, v.inFlight⟩], inFlight := v.regs.mux }

/-- A byte that was exchanged, by where the commands stand before it. A byte that starts a write command
gives its address; SYNC, WAKEUP and reads leave the registers (R160). The spec does not say what registers
RESET leaves (R146), nor what any other command byte does (R147), which may take bytes of its own. A burst
read from another start address than 0, which the spec does not give either, has broken HOST's obligations
(`Monitor.judge`), so `event` forgets everything there. -/
def ConverterView.take (v : ConverterView) (tx rx : Byte) : ConverterView :=
  match v.monitor.phase with
  | .command =>
    if tx &&& 0xF0#8 = 0x50#8 then { v with writing := tx.extractLsb' 0 4 }
    else if tx &&& 0xF0#8 = 0x10#8 ∨ tx = rdataByte ∨ tx = syncByte ∨ tx = wakeupByte then v
    else if tx = resetByte then v.forget
    else v.lose
  | .wregCount => v
  | .wregValue => v.write tx
  | .rregCount => v
  | .rregData _ left => v.readRegister left rx
  | .rdataByte _ left => if left ≤ 1 then v.readResult else v

/-- A byte whose exchange changes nothing in the converter, selected or not: SYNC and WAKEUP, which the
scan loop sends with chip select released (R155, 90_conflicts.md C5). -/
def ConverterView.plain (v : ConverterView) (tx : Byte) : Bool :=
  decide (v.monitor.phase = .command) && (tx == syncByte || tx == wakeupByte)

/-- The converter's part in one event: a byte of a command is taken where chip select is asserted; where it
is not, where the exchange timed out, or where chip select changes inside a command, the spec does not say
what the converter took. DESIGN CHOICE (log 28): a byte that a reset of the block stops half way emits no
event (70_reset_and_hazards.md R250), so the view takes the converter to have taken nothing of it. -/
def ConverterView.act (v : ConverterView) (e : Event) : ConverterView :=
  match e with
  | .byte tx rx cs => if cs || v.plain tx then v.take tx rx else v.lose
  | .byteTimeout _ _ => v.lose
  | .csRelease => if v.monitor.phase = .command then v else v.lose
  | .csAssert => if v.monitor.phase = .command then v else v.lose
  | .guard _ => v
  | .delay _ => v
  | .readySample _ => v
  | .handoff _ => v

/-- One event. Once HOST has broken an obligation (R162), or the converter may read the bytes otherwise, the
registers and the source of later results are any value. -/
def ConverterView.event (v : ConverterView) (e : Event) : ConverterView :=
  let t := { v.act e with monitor := v.monitor.event e }
  if t.monitor.ok && !t.lost then t else t.forget

/-- The view after a trace. -/
def ConverterView.run (v : ConverterView) (trace : List Event) : ConverterView :=
  trace.foldl ConverterView.event v

/-- A result just read may be attributed to the active channel pair `pair` (R160): "the MUX register must
match the currently active channel pair before a conversion result is attributed to that pair". -/
def ResultRead.attributable (r : ResultRead) (pair : Byte) : Bool := r.mux == some pair

/-- HOST's attributions of the results of a trace, in order, meet R160: there are as many as results read,
and each was read with the MUX register at the pair it is attributed to. -/
def Client.attributionsMatch (trace : List Event) (pairs : List Byte) : Bool :=
  let reads := (ConverterView.start.run trace).reads
  decide (reads.length = pairs.length) &&
    (reads.zip pairs).all fun rp => rp.1.attributable rp.2

/-- The places of the five data exchanges among the results of RREG5 (R152). -/
def Client.burstResults : List Nat := [6, 8, 10, 12, 14]

/-- What HOST makes of the results of RREG5: the five received bytes are STATUS, MUX, ADCON, DRATE, IO in that
order (R143, R152). -/
def Client.burstRegisters (results : List Word32) : ConvRegs :=
  match Client.burstResults.map (Client.byteAt results) with
  | [status, mux, adcon, drate, io] => ⟨status, mux, adcon, drate, io⟩
  | _ => ConvRegs.unknown

/-- A burst read agrees with the registers as the writes left them, where both are known (R143, R160). -/
def ConverterView.readBackAgrees (v : ConverterView) : Bool :=
  [0#4, 1#4, 2#4, 3#4, 4#4].all fun a =>
    (v.regs.get a).isNone || (v.readBack.get a).isNone || v.regs.get a == v.readBack.get a

/-! ## MUX writes (R164) -/

/-- The MUX writes of an operation sequence: the first two bytes of `WREG 1`, in the form R151 gives
them. -/
def Client.muxWrites (ops : List Instr) : Nat :=
  match ops with
  | [] => 0
  | i :: rest =>
    (if i = .xchg 0x51#8 ∧ rest.take 2 = [Client.gap, .xchg 0x00#8] then 1 else 0) +
      Client.muxWrites rest

/-! ## Where a result comes from (R165, R166; log 25) -/

/-- The host's four-slot buffer and the converter's pipeline, as provenance: a slot, and the conversion
in flight, hold the index of the channel pair they come from, or none where that pair is not known. -/
structure ScanBuffer where
  slots : List (Option (Fin 4))
  inFlight : Option (Fin 4)
  deriving DecidableEq, Repr

/-- The slot a result read at scan step `i` goes to: `(i+3) mod 4` (R156). -/
def Client.slot (i : Fin 4) : Nat := (i.val + 3) % 4

/-- Scan step `i`: the result read is the conversion that was in flight for the previous pair's
configuration (R165). -/
def ScanBuffer.scanStep (b : ScanBuffer) (i : Fin 4) : ScanBuffer where
  slots := b.slots.set (Client.slot i) b.inFlight
  inFlight := some i

/-- One scan cycle. -/
def ScanBuffer.scanCycle (b : ScanBuffer) : ScanBuffer :=
  (List.finRange 4).foldl ScanBuffer.scanStep b

end Sys2Proof.Machine
end

