-- ==== Sys2Proof/Machine/Assembler.lean ====
section
/-! DEFINITION. The assembler of 30_encoding.md R80 and R81: from one source line to command words,
and the digits of a listing (R71). Source text is a list of characters (log 24). -/

namespace Sys2Proof.Machine

/-! ## Text -/

/-- The digits of a listing (R71), each at the place of its value. -/
def Asm.digitRow : List Char := "0123456789ABCDEF".toList

/-- The digits a literal may also be written with (log 24), the first of value ten. -/
def Asm.lowerRow : List Char := "abcdef".toList

/-- The value of a character in a row of digits whose first has the value `first`. -/
def Asm.placeIn (row : List Char) (first : Nat) (c : Char) : Option Nat :=
  (row.idxOf? c).map (first + ·)

/-- The value of a character as a digit of a base. -/
def Asm.digit (base : Nat) (c : Char) : Option Nat :=
  ((Asm.placeIn Asm.digitRow 0 c).or (Asm.placeIn Asm.lowerRow 10 c)).filter (· < base)

/-- The number some digits make, most significant first. -/
def Asm.digits (base : Nat) (cs : List Char) : Option Nat :=
  cs.foldlM (fun n c => (Asm.digit base c).map (base * n + ·)) 0

/-- A literal, decimal or `0x` hexadecimal, at least one digit (R80). DESIGN CHOICE (log 24): leading zeros
are allowed, a hexadecimal literal has any number of digits, and `0X` is no prefix. -/
def Asm.literal (cs : List Char) : Option Nat :=
  match cs with
  | [] => none
  | '0' :: 'x' :: [] => none
  | '0' :: 'x' :: rest => Asm.digits 16 rest
  | c :: rest => Asm.digits 10 (c :: rest)

/-- A literal below a bound: an operand out of range is an error, never truncated (R80). -/
def Asm.below (bound : Nat) (cs : List Char) : Option Nat :=
  match Asm.literal cs with
  | some n => if n < bound then some n else none
  | none => none

/-- A FRAME value: a signed decimal in `[-2^31, 2^31-1]` or a hexadecimal 32-bit pattern (R80). DESIGN CHOICE
(log 24): a sign is a minus directly before a decimal; a leading plus is an error. -/
def Asm.value32 (cs : List Char) : Option Word32 :=
  match cs with
  | '-' :: rest =>
    match Asm.digits 10 rest with
    | some n => if rest ≠ [] ∧ n ≤ 2 ^ 31 then some (BitVec.ofInt 32 (-(n : Int))) else none
    | none => none
  | '0' :: 'x' :: _ => (Asm.below (2 ^ 32) cs).map (BitVec.ofNat 32)
  | _ => (Asm.below (2 ^ 31) cs).map (BitVec.ofNat 32)

/-- Text without the blanks at both ends. -/
def Asm.trim (cs : List Char) : List Char :=
  ((cs.dropWhile (· == ' ')).reverse.dropWhile (· == ' ')).reverse

/-- The parts of a text between its commas, each trimmed; no part where there is no text. -/
def Asm.operands (cs : List Char) : List (List Char) :=
  match Asm.trim cs with
  | [] => []
  | t => (t.splitOn ',').map Asm.trim

/-- A line without its comment, which runs from `;` to the end (R80). -/
def Asm.code (cs : List Char) : List Char := Asm.trim (cs.takeWhile (· != ';'))

/-! ## Lines -/

/-- The operations of one mnemonic with its operands, or none for an assembly error (R80, R81). -/
def Asm.operation (c : ClientParams) (mnemonic : List Char) (args : List (List Char)) :
    Option (List AsmItem) :=
  match mnemonic, args with
  | ['X', 'C', 'H', 'G'], [a] => (Asm.below 256 a).map fun n => [.op (.xchg (BitVec.ofNat 8 n))]
  | ['D', 'E', 'L', 'A', 'Y'], [a] =>
    (Asm.below 65536 a).map fun n => [.op (.delay (BitVec.ofNat 16 n))]
  | ['C', 'S', 'E', 'L'], [a] => (Asm.below 2 a).map fun n => [.op (.csel (n == 1))]
  | ['R', 'D', 'Y', 'T'], [] => some [.op .rdyt]
  | ['R', 'D', 'Y', 'W'], [] => some [.op .rdyw]
  | ['S', 'X', '2', '4'], [a] =>
    (Asm.below (2 ^ 24) a).map fun n => [.op (.sx24 (BitVec.ofNat 24 n))]
  | ['F', 'R', 'A', 'M', 'E'], [a1, a2, a3, a4] =>
    match Asm.value32 a1, Asm.value32 a2, Asm.value32 a3, Asm.value32 a4 with
    | some v1, some v2, some v3, some v4 => some [.op (.frame v1 v2 v3 v4)]
    | _, _, _, _ => none
  | ['S', 'T', 'A', 'T'], [] => some [.op .stat]
  | ['S', 'E', 'L'], [] => some (Client.sel.map .op)
  | ['D', 'E', 'S', 'E', 'L'], [] => some (Client.desel.map .op)
  | ['W', 'R', 'E', 'G'], [a, v] =>
    match Asm.below 256 a, Asm.below 256 v with
    | some addr, some value =>
      some ((Client.wreg (BitVec.ofNat 8 addr) (BitVec.ofNat 8 value)).map .op)
    | _, _ => none
  | ['R', 'R', 'E', 'G', '5'], [] => some ((Client.rreg5 c).map .op)
  | ['R', 'D', 'A', 'T', 'A'], [] => some (Client.rdataItems c)
  | ['S', 'Y', 'N', 'C', 'W', 'A', 'K', 'E'], [] => some ((Client.syncWake c).map .op)
  | _, _ => none

/-- One source line (R80): a mnemonic, a space, its operands separated by commas. DESIGN CHOICE (log 24):
blanks may stand before the mnemonic, several between it and the operands, and around each operand; a line
with no code assembles to nothing. -/
def Asm.line (c : ClientParams) (cs : List Char) : Option (List AsmItem) :=
  match Asm.code cs with
  | [] => some []
  | t => Asm.operation c (t.takeWhile (· != ' ')) (Asm.operands (t.dropWhile (· != ' ')))

/-- A source text, line by line; one error and the whole is an error. -/
def Asm.program (c : ClientParams) (lines : List (List Char)) : Option (List AsmItem) :=
  match lines with
  | [] => some []
  | l :: rest =>
    match Asm.line c l, Asm.program c rest with
    | some items, some more => some (items ++ more)
    | _, _ => none

/-- The command word of an item; none where HOST has still to give the operand. -/
def AsmItem.word : AsmItem → Option CmdWord
  | .op i => some (encode i).word
  | .sx24FromHost => none

/-! ## Listings (R71, R80) -/

/-- One digit of a listing. -/
def Asm.hexChar (d : BitVec 4) : Char := Asm.digitRow.getD d.toNat '0'

/-- A value as `0x` and `n` hexadecimal digits, most significant first. -/
def Asm.hexText {width : Nat} (n : Nat) (v : BitVec width) : List Char :=
  '0' :: 'x' :: (List.range n).map fun k => Asm.hexChar (v.extractLsb' (4 * (n - 1 - k)) 4)

/-- `W` as `0x` and 33 hexadecimal digits (R71). -/
def Asm.listingWord (w : CmdWord) : List Char := Asm.hexText 33 w

/-- A number in decimal. -/
def Asm.decimal (n : Nat) : List Char := Nat.toDigits 10 n

/-- `MNEMONIC operands` of an operation, as it stands in a listing that has no source line for it. DESIGN
CHOICE (log 24): R80 gives no notation, so the one of the listings of 95_test_vectors.md is taken, a byte
and an SX24 value in hexadecimal, a count and a flag in decimal, a client byte as the XCHG it is, a reserved
code in the words of its program P5; FRAME values, which those listings write in several ways, are
patterns of eight digits. -/
def Asm.operationText : Instr → List Char
  | .xchg tx => "XCHG ".toList ++ Asm.hexText 2 tx
  | .delay n => "DELAY ".toList ++ Asm.decimal n.toNat
  | .csel a => "CSEL ".toList ++ Asm.decimal a.toNat
  | .rdyt => "RDYT".toList
  | .rdyw => "RDYW".toList
  | .sx24 u => "SX24 ".toList ++ Asm.hexText 6 u
  | .frame ch1 ch2 ch3 ch4 =>
    "FRAME ".toList ++ Asm.hexText 8 ch1 ++ ", ".toList ++ Asm.hexText 8 ch2 ++ ", ".toList ++
      Asm.hexText 8 ch3 ++ ", ".toList ++ Asm.hexText 8 ch4
  | .stat => "STAT".toList
  | .reserved0 => "(reserved code 0x0)".toList
  | .reserved9 => "(reserved code 0x9)".toList
  | .reservedA => "(reserved code 0xA)".toList
  | .reservedB => "(reserved code 0xB)".toList
  | .reservedC => "(reserved code 0xC)".toList
  | .reservedD => "(reserved code 0xD)".toList
  | .reservedE => "(reserved code 0xE)".toList
  | .reservedF => "(reserved code 0xF)".toList
  | .wreg addr => "XCHG ".toList ++ Asm.hexText 2 (wregByte (addr.zeroExtend 8))
  | .rreg start => "XCHG ".toList ++ Asm.hexText 2 (rregByte start)
  | .rdata => "XCHG ".toList ++ Asm.hexText 2 rdataByte
  | .sync => "XCHG ".toList ++ Asm.hexText 2 syncByte
  | .wakeup => "XCHG ".toList ++ Asm.hexText 2 wakeupByte
  | .reset => "XCHG ".toList ++ Asm.hexText 2 resetByte

/-- `index: W MNEMONIC operands` (R80). DESIGN CHOICE (log 24): `source` is the text after `W`, the line's own
code for an operation the source writes, as it is written there, and `Asm.operationText` for one that a
pseudo-instruction expands to; the caller gives it with `index` and `W`, and the index is not padded. -/
def Asm.listingLine (index : Nat) (w : CmdWord) (source : List Char) : List Char :=
  Asm.decimal index ++ ": ".toList ++ Asm.listingWord w ++ ' ' :: Asm.code source

/-- The listing of operations, `index` counting from 0 (R80), each in the text of `Asm.operationText`. -/
def Asm.listing (ops : List Instr) : List (List Char) :=
  ops.zipIdx.map fun oi => Asm.listingLine oi.2 (encode oi.1).word (Asm.operationText oi.1)

end Sys2Proof.Machine
end

