-- ==== Sys2Proof/Machine/Ports.lean ====
section
/-! DEFINITION. The output ports that other state determines (10_state.md R21, R22, R24). `sclk` and
`mosi` are fields of State. -/

namespace Sys2Proof.Machine

/-- `op_ready`: 1 iff `rst_n = 1` and `fsm = IDLE` (R21). -/
def State.opReady (s : State) : Bool := s.inp.rstN && decide (s.fsm = .idle)

/-- `op_valid`: HOST presents an operation (R21). -/
def State.opValid (s : State) : Bool := s.inp.host.isSome

/-- An operation is accepted on the coming edge (R21). -/
def State.accepts (s : State) : Bool := s.opValid && s.opReady

/-- `done` (R21). -/
def State.done (s : State) : Bool := s.doneR

/-- `cs_n = NOT cs_active` (R22). -/
def State.csN (s : State) : Bool := !s.csActive

/-- `tx_start` (R24). -/
def State.txStart (s : State) : Bool := s.txStartR

/-- `tx_len`, constant 24 (R24). -/
def State.txLen (_ : State) : BitVec 5 := 24#5

/-- `tx_rd_data` (R24): what TXC reads at the address it drives, combinationally. -/
def State.txRdData (s : State) : Byte := Memory.readPort s.frame s.inp.txRdAddr

end Sys2Proof.Machine
end

