-- ==== Sys2Proof/Machine/Clock.lean ====
section
/-! DEFINITION. The block clock edge by clock edge: the control machine of 10_state.md R30, the
wire-level transfer of 40_bus_primitive.md R103 with its watchdog (R102), and the delay counter
(R106). `Machine.step` runs one whole operation; this file says how the hardware gets there, over the
same State (log 2). -/

namespace Sys2Proof.Machine

/-- The input pins during one clk cycle (10_state.md R20 to R24). -/
structure Pins where
  /-- `rst_n`. -/
  rstN : Bool
  /-- `op_valid`, `op_code`, `op_arg0`..`op_arg3`. -/
  op : Option CmdWord
  /-- `miso`. -/
  miso : Bool
  /-- The MODEL's own: the shifter fails on this edge (R102; log 5). -/
  stall : Bool
  /-- `drdy_n`. -/
  drdyN : Bool
  /-- `tx_done`. -/
  txDone : Bool
  deriving DecidableEq, Repr, Inhabited

/-! ## The transfer (R103) -/

/-- One sampled bit into the shift register, most significant first (20_memory.md R53). -/
def shiftIn (r : Byte) (miso : Bool) : Byte := r.extractLsb' 0 7 ++ BitVec.ofBool miso

/-- The leading SCLK edge: MOSI changes (`SPI_CPHA = 1`) or MISO is sampled (`SPI_CPHA = 0`). The edge that
samples counts the bit. -/
def State.leadingEdge (s : State) (miso : Bool) : State :=
  { s with
    sclkCnt := 0, sclk := !s.cfg.spiCpol
    mosi := if s.cfg.spiCpha then s.shreg.getLsbD 7 else s.mosi
    shreg := if s.cfg.spiCpha then s.shreg else shiftIn s.shreg miso
    bitcnt := if s.cfg.spiCpha then s.bitcnt else s.bitcnt + 1 }

/-- The trailing SCLK edge: MISO is sampled (`SPI_CPHA = 1`) or MOSI changes (`SPI_CPHA = 0`). -/
def State.trailingEdge (s : State) (miso : Bool) : State :=
  { s with
    sclkCnt := 0, sclk := s.cfg.spiCpol
    mosi := if s.cfg.spiCpha then s.mosi else s.shreg.getLsbD 7
    shreg := if s.cfg.spiCpha then shiftIn s.shreg miso else s.shreg
    bitcnt := if s.cfg.spiCpha then s.bitcnt + 1 else s.bitcnt }

/-- One clk edge of a working shifter: half a period at each SCLK level, starting at `SPI_CPOL`. -/
def State.shifterEdge (s : State) (miso : Bool) : State :=
  if s.sclkCnt + 1 < s.cfg.sclkDiv / 2 then { s with sclkCnt := s.sclkCnt + 1 }
  else if s.sclk = s.cfg.spiCpol then s.leadingEdge miso
  else s.trailingEdge miso

/-- The shifter, failed or not, and the watchdog's count. -/
def State.transferEdge (s : State) (miso stall : Bool) : State :=
  if stall then { s with wdog := s.wdog + 1 }
  else { s.shifterEdge miso with wdog := s.wdog + 1 }

/-- The watchdog limit has been reached (R102). -/
def State.wdogExpired (s : State) : Bool := decide (s.cfg.xferTimeoutCycles ≤ s.wdog)

/-- One edge in XFER. With the eighth sample in, the transfer completes with `ok(rx)` (R103): when SCLK
is back at `SPI_CPOL`, at the end of the eighth period, or earlier where the watchdog limit falls there,
with no timeout counted (60_exceptions.md R226; log 10). With samples missing it is abandoned when
`wdog` reaches `XFER_TIMEOUT_CYCLES` (R102). -/
def State.xferEdge (s : State) (miso stall : Bool) : State :=
  let t := s.transferEdge miso stall
  if t.bitcnt = 8 then
    if t.sclk = t.cfg.spiCpol ∨ t.wdogExpired = true then
      t.finishXfer (operandByte t.curArg0) (.ok t.shreg)
    else t
  else if t.wdogExpired then
    t.finishXfer (operandByte t.curArg0) (.timeout ⟨t.shreg, Fin.ofNat 8 t.bitcnt, t.sclkCnt⟩)
  else t

/-! ## The waits (R106) -/

/-- "If `dcnt = dtarget` the wait ends, otherwise `dcnt <- dcnt + 1`" (R106). -/
def State.countEdge (s : State) (done : State) : State :=
  if s.dcnt = s.dtarget then done else { s with dcnt := s.dcnt + 1 }

/-! ## One edge -/

/-- The operation in progress on one edge (10_state.md R30). An operation in SINGLE, RDYWAIT or
FRAMEWAIT does on this edge what its meaning does. -/
def State.opEdge (s : State) (p : Pins) : State :=
  match s.fsm with
  | .idle =>
    match p.op with
    | none => s
    | some w => s.accept w
  | .xfer => s.xferEdge p.miso p.stall
  | .delay => s.countEdge (s.finishDelay (operandCount s.curArg0))
  | .guard => s.countEdge (s.releaseSelect.complete 0#32)
  | .single => nextOr s (exec s.latchedInstr s)
  | .rdyWait => nextOr s (exec s.latchedInstr s)
  | .frameWait => nextOr s (exec s.latchedInstr s)

/-- One rising edge of `clk` (10_state.md R20). Every part reads the state as it stands before the
edge; reset wins over everything (60_exceptions.md R226). -/
def Clock.edge (p : Pins) (s : State) : State :=
  if p.rstN then ((s.clearPulses.opEdge p).txDoneEdge s.frameOwned p.txDone).syncEdge p.drdyN
  else s.resetEdge

/-- `n` edges; `p k` are the pins before edge `k`. -/
def Clock.run (p : Nat → Pins) (n : Nat) (s : State) : State :=
  match n with
  | 0 => s
  | k + 1 => Clock.edge (p k) (Clock.run p k s)

/-! ## What the wires carried -/

/-- The edge, counted from the accepting edge, on which bit `k` is sampled: the trailing edge of
period `k` with `SPI_CPHA = 1`, its leading edge with `SPI_CPHA = 0` (R103). -/
def sampleEdge (c : Config) (k : Nat) : Nat :=
  if c.spiCpha then (k + 1) * c.sclkDiv else k * c.sclkDiv + c.sclkDiv / 2

/-- The byte the eight samples make: bit `k` of the transfer is `rx[7-k]` (R103). `p 0` are the pins of
the accepting edge. -/
def sampledByte (c : Config) (p : Nat → Pins) : Byte :=
  (List.range 8).foldl (fun r k => shiftIn r (p (sampleEdge c k)).miso) 0#8

/-- The clk cycles from the accepting edge to the completing edge (70_reset_and_hazards.md R270);
none for an operation whose latency the block does not fix (RDYW, a held FRAME). -/
def opLatency (i : Instr) (c : Config) (owned : Bool) : Option Nat :=
  match i with
  | .xchg _ => some (8 * c.sclkDiv)
  | .delay n => some (n.toNat * c.clkPerUs + 1)
  | .csel a => if a then some 1 else some (Config.guardUs * c.clkPerUs + 1)
  | .rdyt => some 1
  | .rdyw => none
  | .sx24 _ => some 1
  | .frame _ _ _ _ => if owned then none else some 1
  | .stat => some 1
  | .reserved0 => some 1
  | .reserved9 => some 1
  | .reservedA => some 1
  | .reservedB => some 1
  | .reservedC => some 1
  | .reservedD => some 1
  | .reservedE => some 1
  | .reservedF => some 1
  | .wreg _ => some (8 * c.sclkDiv)
  | .rreg _ => some (8 * c.sclkDiv)
  | .rdata => some (8 * c.sclkDiv)
  | .sync => some (8 * c.sclkDiv)
  | .wakeup => some (8 * c.sclkDiv)
  | .reset => some (8 * c.sclkDiv)

end Sys2Proof.Machine
end

