-- ==== Sys2Proof/Safety.lean ====
section
/-! DEFINITION. What counts as a good state and a good run, in the terms the statements use: the
outcomes of 00_scope.md R9 and the fault of 60_exceptions.md R222, the states between operations, the
states between clock edges, and the end of a run (00_scope.md R11). -/

namespace Sys2Proof.Machine

/-! ## The faulting reading of a reserved code (R222; log 1) -/

/-- The three outcomes of a block step on an operation (00_scope.md R9). -/
inductive BlockOutcome where
  | complete (res : Word32)
  | hold
  | fault (reason : Fault)
  deriving DecidableEq, Repr

/-- The outcome R9 gives the meaning of an operation: where it is idle again it completed with
`res_data`, otherwise it holds; a reserved code is the fault `BadOp` (R222). -/
def blockOutcome (i : Instr) (s : State) : BlockOutcome :=
  if i.isReserved then .fault .badOp
  else
    match exec i s with
    | .next t => if t.fsm = .idle then .complete t.resData else .hold
    | .fault r => .fault r
    | .refused _ => .hold

/-- The operation the next step runs, if it runs one. -/
def State.nextInstr (s : State) : Option Instr :=
  if s.inp.rstN then
    if s.fsm = .idle then s.inp.host.map decodePresented else some s.latchedInstr
  else none

/-- `step` as R222 reads a model: a reserved code stops it with `BadOp`. -/
def strictStep (s : State) : Host.Outcome State Fault Refusal :=
  match s.nextInstr with
  | none => step s
  | some i => if i.isReserved then .fault .badOp else step s

/-! ## Good states -/

/-- In defect mode "the bytes `frame[6]`, `frame[11]`, `frame[16]`, `frame[21]` are never written by any
FRAME" and hold 0x00 (44_framer.md R182). -/
abbrev State.DefectBytesZero (s : State) : Prop :=
  s.cfg.frameLsbDefect = true → ∀ a ∈ [6, 11, 16, 21], Memory.read s.frame a = 0#8

/-- A held operation is the one its wait is for (10_state.md R30). -/
abbrev State.HeldOpMatches (s : State) : Prop :=
  (s.fsm = .rdyWait → s.curOp = 0x5#4) ∧ (s.fsm = .frameWait → s.curOp = 0x7#4)

/-- The wires rest when no transfer is in progress (10_state.md R22). -/
abbrev State.WiresIdle (s : State) : Prop :=
  s.sclk = s.cfg.spiCpol ∧ s.mosi = false

/-- A state between the steps of `step`: no operation is half done, unless held. -/
structure State.Between (s : State) : Prop where
  /-- The parameters are ones R5 allows. -/
  legal : s.cfg.Legal
  /-- The frame memory is in its canonical form. -/
  frameWf : Memory.wf s.frame = true
  /-- R182. -/
  defectBytes : s.DefectBytesZero
  /-- The block is idle or holds an operation (60_exceptions.md R223). -/
  boundary : s.fsm = .idle ∨ s.fsm = .rdyWait ∨ s.fsm = .frameWait
  /-- R30. -/
  held : s.HeldOpMatches
  /-- R22. -/
  wires : s.WiresIdle
  /-- `bitcnt` is 0..8 (10_state.md R29). -/
  bits : s.bitcnt ≤ 8
  /-- `tx_start` says that TXC has just been given the frame (44_framer.md R185). -/
  start : s.txStartR = true → s.frameOwned = true
  /-- `done` is 1 only when the block is idle (10_state.md R30). -/
  done : s.doneR = true → s.fsm = .idle

/-- What a latched operation has to do with the control machine's state (10_state.md R30). -/
abbrev State.OpInProgress (s : State) : Prop :=
  match s.fsm with
  | .idle => True
  | .xfer => s.curOp = 0x1#4
  | .delay => s.curOp = 0x2#4
  | .guard => s.curOp = 0x3#4 ∧ operandFlag s.curArg0 = false
  | .rdyWait => s.curOp = 0x5#4
  | .frameWait => s.curOp = 0x7#4
  | .single =>
    s.curOp ≠ 0x1#4 ∧ s.curOp ≠ 0x2#4 ∧ s.curOp ≠ 0x5#4 ∧
      (s.curOp = 0x3#4 → operandFlag s.curArg0 = true) ∧
      (s.curOp = 0x7#4 → s.frameOwned = false)

/-- A state between two clock edges. -/
structure State.BetweenEdges (s : State) : Prop where
  /-- The parameters are ones R5 allows. -/
  legal : s.cfg.Legal
  /-- The frame memory is in its canonical form. -/
  frameWf : Memory.wf s.frame = true
  /-- R182. -/
  defectBytes : s.DefectBytesZero
  /-- R30. -/
  op : s.OpInProgress
  /-- The wires rest unless a transfer is in progress (R22). -/
  wires : s.fsm ≠ .xfer → s.WiresIdle
  /-- A transfer in progress has samples to take, or is in the last half period after the eighth sample
  of `SPI_CPHA = 0`; its half-period count is below the half-period (40_bus_primitive.md R103; log 10). -/
  xferBits : s.fsm = .xfer →
    (s.bitcnt < 8 ∨ s.bitcnt = 8 ∧ s.cfg.spiCpha = false ∧ s.sclk = !s.cfg.spiCpol) ∧
      s.sclkCnt < s.cfg.sclkDiv / 2
  /-- A transfer in progress is within its wait budget (R102). -/
  xferBudget : s.fsm = .xfer → s.wdog < s.cfg.xferTimeoutCycles
  /-- The delay counter has not passed its target (R106). -/
  count : s.fsm = .delay ∨ s.fsm = .guard → s.dcnt ≤ s.dtarget
  /-- `bitcnt` is 0..8 (10_state.md R29). -/
  bits : s.bitcnt ≤ 8
  /-- R185. -/
  start : s.txStartR = true → s.frameOwned = true
  /-- R30. -/
  done : s.doneR = true → s.fsm = .idle

/-- The run of `step` may end here (00_scope.md R11): nothing presented, nothing in progress. -/
abbrev State.Quiescent (s : State) : Prop := s.fsm = .idle ∧ s.inp.host = none

/-- No reserved code was accepted since reset (10_state.md R31). -/
abbrev State.NoBadOp (s : State) : Prop := s.badOp = false

end Sys2Proof.Machine
end

