-- ==== Sys2Proof/Certificates/Slice0/Obligations.lean ====
section
/-! DEFINITION. The statements for the provers. Each result is written out as a record of what the
rule says changes, so the fields not named are the frame. -/

open Sys2Proof Sys2Proof.Machine

/-! ## The states the rules describe -/

/-- After an XCHG of `tx` that received `rx` (40_bus_primitive.md R101, R103): result `zext_32(rx)`,
one `Byte` event, the wires idle. The counters are at what a whole transfer leaves (log 27). -/
def Sys2Proof.Spec.afterExchange (tx rx : Byte) (s : State) : State :=
  { s with
    resData := rx.zeroExtend 32, results := s.results ++ [rx.zeroExtend 32]
    trace := s.trace ++ [.byte tx rx s.csActive], doneR := true, fsm := .idle
    shreg := rx, bitcnt := 8, sclkCnt := 0, wdog := 8 * s.cfg.sclkDiv
    sclk := s.cfg.spiCpol, mosi := false }

/-- After an XCHG of `tx` that the watchdog abandoned at `p` (R101, R102): the last-seen byte as the
result, one `ByteTimeout` event, one more timeout, saturating. -/
def Sys2Proof.Spec.afterTimeout (tx : Byte) (p : StallPoint) (s : State) : State :=
  { s with
    xferTimeouts := if s.xferTimeouts = 0xFFFF#16 then 0xFFFF#16 else s.xferTimeouts + 1#16
    resData := p.byte.zeroExtend 32, results := s.results ++ [p.byte.zeroExtend 32]
    trace := s.trace ++ [.byteTimeout tx s.csActive], doneR := true, fsm := .idle
    shreg := p.byte, bitcnt := p.bits.val, sclkCnt := p.cnt % (s.cfg.sclkDiv / 2)
    wdog := s.cfg.xferTimeoutCycles, sclk := s.cfg.spiCpol, mosi := false }

/-- After the exchange of `tx`, whichever of the two outcomes it took (R101). -/
def Sys2Proof.Spec.afterXchg (tx : Byte) (s : State) : State :=
  if s.inp.xferStall then Spec.afterTimeout tx (Config.stalled s.tick) s
  else Spec.afterExchange tx s.inp.misoByte s

/-- After an operation whose only effect is a result and events. -/
def Sys2Proof.Spec.afterResult (res : Word32) (events : List Event) (s : State) : State :=
  { s with
    resData := res, results := s.results ++ [res], trace := s.trace ++ events
    doneR := true, fsm := .idle }

/-- After a wait of `n` microseconds the counter stands at its target (R106). -/
def Sys2Proof.Spec.waited (n : Nat) (s : State) : State :=
  { s with dcnt := n * s.cfg.clkPerUs, dtarget := n * s.cfg.clkPerUs }

/-- The frame a FRAME leaves (44_framer.md R181). -/
def Sys2Proof.Spec.frameAfter (ch1 ch2 ch3 ch4 : Word32) (s : State) : Memory :=
  Memory.writeAll s.frame (frameStores s.cfg.frameLsbDefect ch1 ch2 ch3 ch4)

/-- After a FRAME that was not held (R181, R185): the frame, the ownership, the `tx_start` pulse, one
`Handoff` event, result 0. -/
def Sys2Proof.Spec.afterFrame (ch1 ch2 ch3 ch4 : Word32) (s : State) : State :=
  { s with
    frame := Spec.frameAfter ch1 ch2 ch3 ch4 s, frameOwned := true, txStartR := true
    resData := 0#32, results := s.results ++ [0#32]
    trace := s.trace ++ [.handoff (Memory.bytes (Spec.frameAfter ch1 ch2 ch3 ch4 s))]
    doneR := true, fsm := .idle }

/-- The same state but for the ready synchronizer, which samples on every edge. -/
def Sys2Proof.Spec.sameButSampling (t u : State) : Prop :=
  { t with drdyMeta := u.drdyMeta, drdySync := u.drdySync } = u

/-- The same state but for what the outside moves while an operation of many edges is in progress: the ready
synchronizer and, by `tx_done`, the ownership of the frame. -/
def Sys2Proof.Spec.sameButOutside (t u : State) : Prop :=
  { t with drdyMeta := u.drdyMeta, drdySync := u.drdySync, frameOwned := u.frameOwned } = u

/-- After `n` edges that hand nothing off, `u` has the ownership that stood before where no `tx_done` came
(20_memory.md R56). -/
def Sys2Proof.Spec.ownershipKept (owned : Bool) (p : Nat → Pins) (n : Nat) (u : State) : Prop :=
  u.frameOwned = true ↔ owned = true ∧ ∀ k, k < n → (p k).txDone = false

/-- SCLK `e` clk cycles into a transfer: half a period at each level, the first at `SPI_CPOL`
(40_bus_primitive.md R103). -/
def Sys2Proof.Spec.sclkLevel (c : Config) (e : Nat) : Bool :=
  if e % c.sclkDiv < c.sclkDiv / 2 then c.spiCpol else !c.spiCpol

/-- MOSI `e` clk cycles into a transfer of `tx`: with `SPI_CPHA = 1` it changes on the leading edge of each
period (and is 0 before the first: log 9), with `SPI_CPHA = 0` it is valid half a period before it
(40_bus_primitive.md R103). -/
def Sys2Proof.Spec.mosiLevel (c : Config) (tx : Byte) (e : Nat) : Bool :=
  if c.spiCpha then
    if e < c.sclkDiv / 2 then false else tx.getLsbD (7 - (e - c.sclkDiv / 2) / c.sclkDiv)
  else tx.getLsbD (7 - e / c.sclkDiv)

/-- The command-word bits an operation code names (30_encoding.md R74): `op_code` and the operand bits
R72 gives it. -/
def Sys2Proof.Spec.namedBits (code : OpCode) : CmdWord :=
  match code with
  | 0x1#4 => 0xFFF#132
  | 0x2#4 => 0xFFFFF#132
  | 0x3#4 => 0x1F#132
  | 0x6#4 => 0xFFFFFFF#132
  | 0x7#4 => BitVec.allOnes 132
  | _ => 0xF#132

/-! ## Encoding -/

/-- Words written out from the spec's listings (95_test_vectors.md L1, L2) decode to the operations they
stand for. -/
def Obligations.DecodesWordsOfSpec : Prop :=
  decodeWord 0x000000000000000000000000000000FC1#132 = .xchg 0xFC#8 ∧
  decodeWord 0x0000000000000000000000000000FFFF2#132 = .delay 65535#16 ∧
  decodeWord 0x000000000000000000000000000000033#132 = .csel true ∧
  decodeWord 0x000000000000000000000000000000004#132 = .rdyt ∧
  decodeWord 0x000000000000000000000000000000005#132 = .rdyw ∧
  decodeWord 0x00000000000000000000000000ABCDEF6#132 = .sx24 0xABCDEF#24 ∧
  decodeWord 0xFF800000007FFFFFFFFFFFFF123456787#132 =
    .frame 0x12345678#32 0xFFFFFFFF#32 0x007FFFFF#32 0xFF800000#32 ∧
  decodeWord 0x000000000000000000000000000000008#132 = .stat ∧
  decodeWord 0x00000000000000000000000000000000A#132 = .reservedA ∧
  decodePresented (.busByte 0x53#8) = .wreg 3#4

/-- Decoding what the encoder writes gives the instruction back, for every instruction and every operand
(30_encoding.md R71 to R75, 42_bus_commands.md R142 to R146). -/
def Obligations.DecodeOfEncode : Prop :=
  ∀ i : Instr, decodePresented (encode i) = i

/-- Encoding what the decoder reads keeps the named bits of the word and clears the others
(30_encoding.md R74). -/
def Obligations.EncodeOfDecodeKeepsNamedBits : Prop :=
  ∀ w : CmdWord, encode (decodeWord w) = .op (w &&& Spec.namedBits (fieldOpCode w))

/-- Every command word belongs to exactly one row of format H, the row of the operation it decodes to;
every byte belongs to one row of format BUS or to none, and is decoded accordingly (30_encoding.md R72,
R74; 42_bus_commands.md R147). -/
def Obligations.OneRowPerWord : Prop :=
  (∀ w : CmdWord, (decodeWord w).row ∈ opcodeRowsH ∧
    ∀ r ∈ opcodeRowsH, r.matches (w.extractLsb' 0 8) = true ↔ r = (decodeWord w).row) ∧
  (∀ b : Byte,
    match decodeBus b with
    | .ok i => i.row ∈ opcodeRowsBus ∧ ∀ r ∈ opcodeRowsBus, r.matches b = true ↔ r = i.row
    | .error _ => ∀ r ∈ opcodeRowsBus, r.matches b = false)

/-- The block latches the word HOST presents (10_state.md R21). That a client byte reaches the command port as
the XCHG of that byte, and so latches the same word, is the model's reading of 30_encoding.md R74 (log 13). -/
def Obligations.AcceptanceLatchesTheWord : Prop :=
  ∀ (s : State) (p : Presented),
    (s.acceptEdge p).latchedWord = p.word ∧
    ∀ b : Byte, s.acceptEdge (.busByte b) = s.acceptEdge (encode (.xchg b))

/-! ## A step -/

/-- A step of an idle block with an operation presented is `exec` of the decoded operation at the accepted
state, then the completing edge and the outside's next levels. That the operation HOST presents to an idle
block is the one that runs is 10_state.md R21 and R30; that a step is these two edges, the accepting one
taking `tx_done` and a sample and the completing one a sample, is the model's choice (log 12), as are the
free next levels (log 3). -/
def Obligations.StepRunsPresentedOperation : Prop :=
  ∀ (s : State) (p : Presented),
    s.inp.rstN = true → s.fsm = .idle → s.inp.host = some p →
    step s = mapNext (fun t => t.finishEdge.advance (Config.outside s.tick))
      (exec (decodePresented p) (s.acceptEdge p))

/-- A step of a block that holds an operation is `exec` of the latched operation. That a held operation is
retried is 00_scope.md R9; the shape of a retry, one waiting edge, `exec` and one more sample, is the model's
choice (log 12), and so is that HOST's presented word stays in State (log 20, from HOST's duty in
60_exceptions.md R236). -/
def Obligations.StepRetriesHeldOperation : Prop :=
  ∀ s : State,
    s.inp.rstN = true → (s.fsm = .rdyWait ∨ s.fsm = .frameWait) →
    step s = mapNext (fun t => t.finishEdge.advance (heldOver s.inp (Config.outside s.tick)))
      (exec (decodeWord s.latchedWord) s.waitEdge)

/-- With nothing presented an idle block idles for one clock cycle: the pulses end, the synchronizer
samples, `tx_done` is taken, and nothing else of the block changes (10_state.md R20, R21, R24). -/
def Obligations.StepIdles : Prop :=
  ∀ s : State,
    s.inp.rstN = true → s.fsm = .idle → s.inp.host = none →
    step s = .next
      { s with
        doneR := false, txStartR := false
        drdyMeta := s.inp.drdyN, drdySync := s.drdyMeta
        frameOwned := s.frameOwned && !s.inp.txDone
        inp := Config.outside s.tick, tick := s.tick + 1 }

/-- A step with `rst_n = 0` gives every field of R25 and R29 its reset value, whatever was in progress
(70_reset_and_hazards.md R250); the parameters and what was observed stay (log 4, log 15). -/
def Obligations.StepResets : Prop :=
  ∀ s : State, s.inp.rstN = false →
    step s = .next
      { State.reset with
        cfg := s.cfg, sclk := s.cfg.spiCpol, trace := s.trace, results := s.results
        inp := Config.outside s.tick, tick := s.tick + 1 }

/-- The reset state: the values of 10_state.md R25 and R29. -/
def Obligations.ResetValues : Prop :=
  State.reset.csActive = false ∧ State.reset.xferTimeouts = 0#16 ∧ State.reset.badOp = false ∧
  State.reset.frameOwned = false ∧ (∀ a, Memory.read State.reset.frame a = 0x00#8) ∧
  State.reset.resData = 0x00000000#32 ∧ State.reset.fsm = .idle ∧ State.reset.curOp = 0#4 ∧
  State.reset.curArg0 = 0#32 ∧ State.reset.curArg1 = 0#32 ∧ State.reset.curArg2 = 0#32 ∧
  State.reset.curArg3 = 0#32 ∧ State.reset.shreg = 0x00#8 ∧ State.reset.bitcnt = 0 ∧
  State.reset.sclkCnt = 0 ∧ State.reset.wdog = 0 ∧ State.reset.dcnt = 0 ∧ State.reset.dtarget = 0 ∧
  State.reset.drdyMeta = true ∧ State.reset.drdySync = true ∧ State.reset.doneR = false ∧
  State.reset.txStartR = false

/-- No step stops: the block has no trap, and every condition is a value or a hold
(60_exceptions.md R220). That a reserved code goes on as the hardware does is log 1. -/
def Obligations.StepAlwaysAnswersNext : Prop :=
  ∀ s : State, ∃ t, step s = .next t

/-! ## Results -/

/-- XCHG returns the byte received and records the exchange (40_bus_primitive.md R101, R103, R104);
`cs_active` is recorded, not tested. -/
def Obligations.XchgReturnsReceivedByte : Prop :=
  ∀ (s : State) (tx : Byte), s.inp.xferStall = false →
    exec (.xchg tx) s = .next (Spec.afterExchange tx s.inp.misoByte s)

/-- The timeout alternative of XCHG (R102): one more timeout, saturating, and a result byte that is any
byte. -/
def Obligations.XchgTimeoutCountsAndReturnsAnyByte : Prop :=
  ∀ (s : State) (tx : Byte), s.inp.xferStall = true →
    exec (.xchg tx) s = .next (Spec.afterTimeout tx (Config.stalled s.tick) s)

/-- The meaning of each BUS row is the exchange of its byte (42_bus_commands.md R142 to R146), with the effect
40_bus_primitive.md R100 to R102 give an exchange. That a row which is no operation of the block has this
meaning is the model's reading of 30_encoding.md R74 (log 13). -/
def Obligations.ClientBytesAreExchanges : Prop :=
  ∀ (s : State) (a : BitVec 4),
    exec (.wreg a) s = .next (Spec.afterXchg (0x5#4 ++ a) s) ∧
    exec (.rreg a) s = .next (Spec.afterXchg (0x1#4 ++ a) s) ∧
    exec .rdata s = .next (Spec.afterXchg 0x01#8 s) ∧
    exec .sync s = .next (Spec.afterXchg 0xFC#8 s) ∧
    exec .wakeup s = .next (Spec.afterXchg 0xFF#8 s) ∧
    exec .reset s = .next (Spec.afterXchg 0xFE#8 s)

/-- DELAY emits `Delay(n)` and returns 0; no value but the wait counter changes (40_bus_primitive.md R105,
R107). -/
def Obligations.DelayEmitsAndReturnsZero : Prop :=
  ∀ (s : State) (n : BitVec 16),
    exec (.delay n) s = .next (Spec.afterResult 0#32 [.delay n.toNat] (Spec.waited n.toNat s))

/-- CSEL 1 asserts chip select, emitting `CsAssert` where it was released and nothing where it was
asserted. CSEL 0 waits the guard, always emits `Guard(2)`, and releases chip select, emitting `CsRelease`
where it was asserted (41_select_ready.md R121). Both return 0. -/
def Obligations.CselSetsChipSelect : Prop :=
  ∀ s : State,
    exec (.csel true) s = .next (Spec.afterResult 0#32 (if s.csActive then [] else [.csAssert])
      { s with csActive := true }) ∧
    exec (.csel false) s = .next (Spec.afterResult 0#32
      (if s.csActive then [.guard 2, .csRelease] else [.guard 2])
      { Spec.waited 2 s with csActive := false })

/-- RDYT returns and records the synchronized sample (41_select_ready.md R125). -/
def Obligations.RdytReturnsSample : Prop :=
  ∀ s : State,
    exec .rdyt s = .next (Spec.afterResult (if s.drdySync then 0#32 else 1#32)
      [.readySample (!s.drdySync)] s)

/-- RDYW completes where the sample is 1, returning 0 and recording the sample; where it is 0 it holds, and a
hold changes nothing but the waiting state (41_select_ready.md R127, R128; 00_scope.md R9). -/
def Obligations.RdywCompletesOrHolds : Prop :=
  ∀ s : State,
    (s.drdySync = false →
      exec .rdyw s = .next (Spec.afterResult 0#32 [.readySample true] s)) ∧
    (s.drdySync = true → exec .rdyw s = .next { s with fsm := .rdyWait })

/-- SX24 returns the sign extension of its operand and writes nothing else (43_sign_extend.md R170,
R171). -/
def Obligations.Sx24ReturnsSignExtension : Prop :=
  ∀ (s : State) (u : U24),
    exec (.sx24 u) s = .next (Spec.afterResult (BitVec.ofInt 32 (sext32 u)) [] s)

/-- FRAME stores, hands off and completes without waiting where TXC does not own the buffer
(44_framer.md R181, R185, R186), for any operand values (R187). -/
def Obligations.FrameStoresAndHandsOff : Prop :=
  ∀ (s : State) (ch1 ch2 ch3 ch4 : Word32), s.frameOwned = false →
    exec (.frame ch1 ch2 ch3 ch4) s = .next (Spec.afterFrame ch1 ch2 ch3 ch4 s)

/-- FRAME writes nothing and holds while TXC owns the buffer (44_framer.md R184). -/
def Obligations.FrameHoldsWhileOwned : Prop :=
  ∀ (s : State) (ch1 ch2 ch3 ch4 : Word32), s.frameOwned = true →
    exec (.frame ch1 ch2 ch3 ch4) s = .next { s with fsm := .frameWait }

/-- STAT returns the status word and changes nothing (10_state.md R31): each field of the word is the
state it reports, bits 31 to 21 are zero. -/
def Obligations.StatReturnsStatusWord : Prop :=
  ∀ s : State, ∃ w : Word32,
    exec .stat s = .next (Spec.afterResult w [] s) ∧
    w.extractLsb' 0 16 = s.xferTimeouts ∧ w.getLsbD 16 = s.badOp ∧ w.getLsbD 17 = s.frameOwned ∧
    w.getLsbD 18 = s.csActive ∧ w.getLsbD 19 = !s.drdySync ∧
    w.getLsbD 20 = s.cfg.frameLsbDefect ∧ w.extractLsb' 21 11 = 0#11

/-- Every reserved code sets `bad_op`, returns 0 and changes nothing else (45_status.md R203, the hardware's
effect; log 1). -/
def Obligations.ReservedCodesSetBadOp : Prop :=
  ∀ (s : State) (i : Instr),
    i ∈ [.reserved0, .reserved9, .reservedA, .reservedB, .reservedC, .reservedD, .reservedE,
      .reservedF] →
    exec i s = .next (Spec.afterResult 0#32 [] { s with badOp := true })

/-! ## Frames -/

/-- No operation writes a status indication but the one that owns it: `bad_op` the reserved codes,
`frame_owned` FRAME, `xfer_timeouts` an exchange that timed out, chip select CSEL (10_state.md R25,
R28). -/
def Obligations.IndicationsWrittenOnlyByTheirOperation : Prop :=
  ∀ (i : Instr) (s t : State), exec i s = .next t →
    (i.isReserved = false → t.badOp = s.badOp) ∧
    ((∀ c1 c2 c3 c4, i ≠ .frame c1 c2 c3 c4) → t.frameOwned = s.frameOwned ∧
      t.txStartR = s.txStartR) ∧
    ((i.opCode ≠ 0x1#4 ∨ s.inp.xferStall = false) → t.xferTimeouts = s.xferTimeouts) ∧
    ((∀ a, i ≠ .csel a) → t.csActive = s.csActive)

/-- No operation but FRAME stores to the frame buffer: every address reads as before
(20_memory.md R50, R58). -/
def Obligations.OnlyFrameStores : Prop :=
  ∀ (i : Instr) (s t : State), exec i s = .next t → (∀ c1 c2 c3 c4, i ≠ .frame c1 c2 c3 c4) →
    ∀ a : Nat, Memory.read t.frame a = Memory.read s.frame a

/-- A FRAME changes no byte outside the addresses it stores to, which are those of its stores; the
defect-mode form stores to four addresses fewer (44_framer.md R181, R182). A held FRAME stores nothing. -/
def Obligations.FrameStoresOnlyItsBytes : Prop :=
  ∀ (s t : State) (ch1 ch2 ch3 ch4 : Word32), Memory.wf s.frame = true →
    exec (.frame ch1 ch2 ch3 ch4) s = .next t →
    ∀ a : Nat,
      (s.frameOwned = true ∨ a ∉ frameStoreAddrs s.cfg.frameLsbDefect ch1 ch2 ch3 ch4) →
      Memory.read t.frame a = Memory.read s.frame a

/-- What each operation leaves alone among the hidden registers (10_state.md R29): the parameters, the
latched operation, the synchronizer and the outside by all; the transfer registers and the wires but
for an exchange; the wait counter but for DELAY and CSEL 0. -/
def Obligations.HiddenRegistersKept : Prop :=
  ∀ (i : Instr) (s t : State), exec i s = .next t →
    (t.cfg = s.cfg ∧ t.inp = s.inp ∧ t.tick = s.tick ∧ t.curOp = s.curOp ∧ t.curArg0 = s.curArg0 ∧
      t.curArg1 = s.curArg1 ∧ t.curArg2 = s.curArg2 ∧ t.curArg3 = s.curArg3 ∧
      t.drdyMeta = s.drdyMeta ∧ t.drdySync = s.drdySync) ∧
    (i.opCode ≠ 0x1#4 → t.shreg = s.shreg ∧ t.bitcnt = s.bitcnt ∧ t.sclkCnt = s.sclkCnt ∧
      t.wdog = s.wdog ∧ t.sclk = s.sclk ∧ t.mosi = s.mosi) ∧
    ((∀ n, i ≠ .delay n) → i ≠ .csel false → t.dcnt = s.dcnt ∧ t.dtarget = s.dtarget)

/-! ## Whole-machine rules -/

/-- No step but a reset clears `xfer_timeouts` or `bad_op` (45_status.md R202). -/
def Obligations.OnlyResetClearsIndications : Prop :=
  ∀ s t : State, step s = .next t →
    (s.inp.rstN = true →
      (s.badOp = true → t.badOp = true) ∧ s.xferTimeouts.toNat ≤ t.xferTimeouts.toNat) ∧
    (s.inp.rstN = false → t.badOp = false ∧ t.xferTimeouts = 0#16)

/-- While TXC owns the buffer and no `tx_done` or reset comes, no step changes the frame or the ownership,
whatever HOST presents (20_memory.md R58, 44_framer.md R184). -/
def Obligations.OwnedFrameIsStable : Prop :=
  ∀ s t : State, step s = .next t → s.inp.rstN = true → s.frameOwned = true →
    s.inp.txDone = false → t.frame = s.frame ∧ t.frameOwned = true

/-- The same edge by edge: TXC reads the bytes of the hand-off until its `tx_done` (20_memory.md R58). -/
def Obligations.OwnedFrameIsStableOnEveryEdge : Prop :=
  ∀ (s : State) (p : Pins), p.rstN = true → s.frameOwned = true → p.txDone = false →
    (Clock.edge p s).frameOwned = true ∧
    ∀ addr : BitVec 5,
      Memory.readPort (Clock.edge p s).frame addr = Memory.readPort s.frame addr

/-- A step only appends to the bus trace and to the host results: events are never reordered, merged or
taken back (20_memory.md R58). That a step with `rst_n = 0` keeps both is the model's choice (log 15). -/
def Obligations.TraceAndResultsOnlyGrow : Prop :=
  ∀ s t : State, step s = .next t →
    (∃ es, t.trace = s.trace ++ es) ∧ (∃ rs, t.results = s.results ++ rs)

/-- What each outcome of 00_scope.md R9 means for `exec`: a hold is RDYW while not ready or FRAME while
owned, and changes nothing but the waiting state; every other operation that is not reserved completes
with the `res_data` it leaves (60_exceptions.md R222, R223). -/
def Obligations.HoldsAreOnlyReadyWaitAndOwnedFrame : Prop :=
  ∀ (i : Instr) (s : State),
    (blockOutcome i s = .hold ↔
      (i = .rdyw ∧ s.readySample = false) ∨
      (∃ c1 c2 c3 c4, i = .frame c1 c2 c3 c4 ∧ s.frameOwned = true)) ∧
    (blockOutcome i s = .hold → ∃ f, exec i s = .next { s with fsm := f }) ∧
    (∀ res, blockOutcome i s = .complete res →
      ∃ t, exec i s = .next t ∧ t.fsm = .idle ∧ t.resData = res) ∧
    (blockOutcome i s = .fault .badOp ↔ i.isReserved = true)

/-- Read as R222 reads a model, a step stops with `BadOp` exactly where the operation it runs is a reserved
code, and is `step` otherwise (60_exceptions.md R222; log 1). -/
def Obligations.StrictStepFaultsOnReservedOnly : Prop :=
  ∀ s : State,
    (strictStep s = .fault .badOp ↔ ∃ i, s.nextInstr = some i ∧ i.isReserved = true) ∧
    ((∀ i, s.nextInstr = some i → i.isReserved = false) → strictStep s = step s)

/-! ## Invariants -/

/-- The reset state is a state between operations and between clock edges. -/
def Obligations.ResetSatisfiesInvariants : Prop := State.reset.Between ∧ State.reset.BetweenEdges

/-- Every step from a state between operations leads to one: parameters legal, the frame memory canonical,
the defect-mode bytes 0x00 (44_framer.md R182), the block idle or holding the operation its wait is for
(10_state.md R30), the wires at rest (R22), `tx_start` only with the ownership (R185), `done` only when
idle (R30). -/
def Obligations.StepKeepsBetweenOperations : Prop :=
  ∀ s t : State, s.Between → step s = .next t → t.Between

/-- Every clock edge from a state between edges leads to one, for all pins: the control machine's state
matches the latched operation (10_state.md R30), a transfer has samples to take or is past its eighth one,
and is within its wait budget (40_bus_primitive.md R102, R103), the wait counter has not passed its target
(R106), the wires rest outside a transfer (10_state.md R22), the defect-mode bytes are 0x00 (44_framer.md
R182). Two parts are the model's choice: a transfer still in progress with its eight samples in, in the last
half period of `SPI_CPHA = 0` (log 10), and the state SINGLE with the operations it is for (log 7). -/
def Obligations.EdgeKeepsBetweenEdges : Prop :=
  ∀ (p : Pins) (s : State), s.BetweenEdges → (Clock.edge p s).BetweenEdges

/-! ## The clock edges behind a step -/

/-- An XCHG accepted by an idle block takes `8*SCLK_DIV` edges after the accepting one, during which the
block is in XFER, `cs_n` stays, and SCLK and MOSI have the levels of a transfer of `tx`: on the edge that
samples bit `k`, MOSI is `tx[7-k]`. Then the block has the state of the meaning, with the byte the eight
samples of MISO make and SCLK back at `SPI_CPOL`, for both settings of `SPI_CPHA` and every SCLK rate, the
outside driving `drdy_n` and `tx_done` as it likes (40_bus_primitive.md R101, R103;
70_reset_and_hazards.md R270). With `SPI_CPHA = 0` that it lasts to the end of the eighth period is log 10;
MOSI at 0 before the first leading edge of `SPI_CPHA = 1` is log 9. -/
def Obligations.XchgClockedGivesMeaning : Prop :=
  ∀ (s : State) (w : CmdWord) (p : Nat → Pins),
    s.cfg.Legal → s.fsm = .idle → s.WiresIdle → (p 0).op = some w → fieldOpCode w = 0x1#4 →
    (∀ k, (p k).rstN = true ∧ (p k).stall = false) → s.inp.xferStall = false →
    s.inp.misoByte = sampledByte s.cfg p →
    (∀ e, e < 8 * s.cfg.sclkDiv →
      (Clock.run p (e + 1) s).fsm = .xfer ∧ (Clock.run p (e + 1) s).csN = s.csN ∧
      (Clock.run p (e + 1) s).sclk = Spec.sclkLevel s.cfg e ∧
      (Clock.run p (e + 1) s).mosi = Spec.mosiLevel s.cfg (operandByte (fieldArg0 w)) e) ∧
    (∀ k, k < 8 →
      (Clock.run p (sampleEdge s.cfg k) s).mosi = (operandByte (fieldArg0 w)).getLsbD (7 - k)) ∧
    Spec.ownershipKept s.frameOwned p (8 * s.cfg.sclkDiv + 1)
      (Clock.run p (8 * s.cfg.sclkDiv + 1) s) ∧
    ∃ t, exec (decodeWord w) (s.acceptEdge (.op w)) = .next t ∧ t.sclk = s.cfg.spiCpol ∧
      Spec.sameButOutside t (Clock.run p (8 * s.cfg.sclkDiv + 1) s)

/-- A DELAY accepted by an idle block holds it for `n*CLK_PER_US + 1` edges, `dcnt` counting them from 0 to
`dtarget`, and then leaves the state of the meaning (40_bus_primitive.md R105, R106). -/
def Obligations.DelayClockedGivesMeaning : Prop :=
  ∀ (s : State) (w : CmdWord) (p : Nat → Pins),
    s.fsm = .idle → (p 0).op = some w → fieldOpCode w = 0x2#4 → (∀ k, (p k).rstN = true) →
    let n := (operandCount (fieldArg0 w)).toNat
    (∀ k, 1 ≤ k → k ≤ n * s.cfg.clkPerUs + 1 →
      (Clock.run p k s).fsm = .delay ∧ (Clock.run p k s).dcnt = k - 1 ∧
      (Clock.run p k s).dtarget = n * s.cfg.clkPerUs) ∧
    Spec.ownershipKept s.frameOwned p (n * s.cfg.clkPerUs + 2)
      (Clock.run p (n * s.cfg.clkPerUs + 2) s) ∧
    ∃ t, exec (decodeWord w) (s.acceptEdge (.op w)) = .next t ∧
      Spec.sameButOutside t (Clock.run p (n * s.cfg.clkPerUs + 2) s)

/-- A CSEL 0 accepted by an idle block keeps `cs_n` as it is for `2*CLK_PER_US + 1` edges, releases chip
select on the last of them, and leaves the state of the meaning (41_select_ready.md R121, R122). -/
def Obligations.GuardClockedGivesMeaning : Prop :=
  ∀ (s : State) (w : CmdWord) (p : Nat → Pins),
    s.fsm = .idle → (p 0).op = some w → fieldOpCode w = 0x3#4 → operandFlag (fieldArg0 w) = false →
    (∀ k, (p k).rstN = true) →
    (∀ k, 1 ≤ k → k ≤ 2 * s.cfg.clkPerUs + 1 →
      (Clock.run p k s).fsm = .guard ∧ (Clock.run p k s).csN = s.csN) ∧
    (Clock.run p (2 * s.cfg.clkPerUs + 2) s).csN = true ∧
    Spec.ownershipKept s.frameOwned p (2 * s.cfg.clkPerUs + 2)
      (Clock.run p (2 * s.cfg.clkPerUs + 2) s) ∧
    ∃ t, exec (decodeWord w) (s.acceptEdge (.op w)) = .next t ∧
      Spec.sameButOutside t (Clock.run p (2 * s.cfg.clkPerUs + 2) s)

/-- Every operation that "completes on the next edge" (10_state.md R30) does so, with the state of its
meaning: CSEL 1, RDYT, SX24, FRAME while the buffer is free, STAT and the reserved codes. -/
def Obligations.OneCycleOperationsClockedGiveMeaning : Prop :=
  ∀ (s : State) (w : CmdWord) (p : Nat → Pins),
    s.fsm = .idle → (p 0).op = some w →
    acceptFsm (fieldOpCode w) (fieldArg0 w) s.frameOwned = .single →
    (p 0).rstN = true → (p 1).rstN = true →
    s.inp.txDone = (p 0).txDone → (p 1).txDone = false →
    (Clock.run p 1 s).fsm ≠ .idle ∧
    ∃ t, exec (decodeWord w) (s.acceptEdge (.op w)) = .next t ∧ t.fsm = .idle ∧
      Spec.sameButSampling t (Clock.run p 2 s)

/-- A held RDYW stays held on an edge whose sample is 0, emitting nothing, and completes on an edge whose
sample is 1 (41_select_ready.md R127). -/
def Obligations.ReadyWaitEdge : Prop :=
  ∀ (s : State) (p : Pins),
    s.fsm = .rdyWait → s.curOp = 0x5#4 → p.rstN = true →
    (s.readySample = false →
      (Clock.edge p s).fsm = .rdyWait ∧ (Clock.edge p s).trace = s.trace ∧
      (Clock.edge p s).resData = s.resData ∧ (Clock.edge p s).doneR = false) ∧
    (s.readySample = true →
      (Clock.edge p s).fsm = .idle ∧ (Clock.edge p s).trace = s.trace ++ [.readySample true] ∧
      (Clock.edge p s).resData = 0#32 ∧ (Clock.edge p s).doneR = true)

/-- Once CONV keeps `drdy_n` low, a held RDYW completes within three edges (41_select_ready.md R127;
70_reset_and_hazards.md R263). -/
def Obligations.ReadyWaitEndsWhenConverterReady : Prop :=
  ∀ (s : State) (p : Nat → Pins),
    s.fsm = .rdyWait → s.curOp = 0x5#4 →
    (∀ k, (p k).rstN = true ∧ (p k).drdyN = false ∧ (p k).op = none) →
    (Clock.run p 3 s).fsm = .idle ∧ (Clock.run p 3 s).trace = s.trace ++ [.readySample true] ∧
    (Clock.run p 3 s).results = s.results ++ [0#32]

/-- Every transfer ends: within `XFER_TIMEOUT_CYCLES` edges of its acceptance the block is idle again,
whatever the pins do short of a reset, the shifter working or standing still on each edge
(40_bus_primitive.md R102; that a failing shifter stands still is the model's choice, log 5). Once its eight
samples are in it no longer times out: it goes on with them to the end of the period, or completes with them
(R103; that the watchdog limit ends it early but not as a timeout there is the model's choice, log 10). -/
def Obligations.XchgEndsWithinBudget : Prop :=
  (∀ (s : State) (p : Nat → Pins),
    s.BetweenEdges → s.fsm = .xfer → (∀ k, (p k).rstN = true) →
    ∃ k, k ≤ s.cfg.xferTimeoutCycles - s.wdog ∧ (Clock.run p k s).fsm = .idle) ∧
  (∀ (s : State) (p : Pins),
    s.BetweenEdges → s.fsm = .xfer → s.bitcnt = 8 → p.rstN = true →
    (Clock.edge p s).xferTimeouts = s.xferTimeouts ∧ (Clock.edge p s).shreg = s.shreg ∧
    ((Clock.edge p s).fsm = .xfer ∧ (Clock.edge p s).trace = s.trace ∨
      (Clock.edge p s).fsm = .idle ∧ (Clock.edge p s).resData = s.shreg.zeroExtend 32 ∧
      (Clock.edge p s).trace = s.trace ++ [.byte (operandByte s.curArg0) s.shreg s.csActive]))

/-- A shifter that never works is abandoned when `wdog` reaches `XFER_TIMEOUT_CYCLES`: SCLK and MOSI
idle, one timeout counted, `ByteTimeout` emitted, and the byte returned is the one still in `shreg`
(40_bus_primitive.md R101, R102). That a failing shifter stands still, so that this byte is the one sent,
is the model's choice (log 5); `exec` draws the byte, as R102 has a model do. -/
def Obligations.DeadShifterTimesOut : Prop :=
  ∀ (s : State) (w : CmdWord) (p : Nat → Pins),
    s.cfg.Legal → s.fsm = .idle → s.WiresIdle → (p 0).op = some w → fieldOpCode w = 0x1#4 →
    (∀ k, (p k).rstN = true ∧ (p k).stall = true) →
    (∀ k, 1 ≤ k → k ≤ s.cfg.xferTimeoutCycles → (Clock.run p k s).fsm = .xfer) ∧
    let u := Clock.run p (s.cfg.xferTimeoutCycles + 1) s
    u.fsm = .idle ∧ u.doneR = true ∧ u.sclk = s.cfg.spiCpol ∧ u.mosi = false ∧
    u.trace = s.trace ++ [.byteTimeout (operandByte (fieldArg0 w)) s.csActive] ∧
    u.resData = (operandByte (fieldArg0 w)).zeroExtend 32 ∧
    u.xferTimeouts =
      (if s.xferTimeouts = 0xFFFF#16 then 0xFFFF#16 else s.xferTimeouts + 1#16)

/-- The ready sample is NOT `drdy_sync`, the synchronizer shifts on every edge, and the sample is bit 19 of
the status word (41_select_ready.md R126). -/
def Obligations.ReadySampleIsTwoFlopSynchronizer : Prop :=
  ∀ (s : State) (p : Pins), p.rstN = true →
    (Clock.edge p s).drdyMeta = p.drdyN ∧ (Clock.edge p s).drdySync = s.drdyMeta ∧
    s.readySample = (!s.drdySync) ∧ s.statusWord.getLsbD 19 = s.readySample

/-- Ownership edge by edge (20_memory.md R56): the hand-off of a FRAME sets `frame_owned` and makes
`tx_start` 1 for the next cycle only; `tx_done` clears `frame_owned` where it is 1 and is ignored where it
is 0. -/
def Obligations.OwnershipEdges : Prop :=
  (∀ (s : State) (p q : Pins),
    (s.fsm = .single ∨ s.fsm = .frameWait) → s.curOp = 0x7#4 → s.frameOwned = false →
    p.rstN = true → q.rstN = true →
    (Clock.edge p s).frameOwned = true ∧ (Clock.edge p s).txStart = true ∧
    (Clock.edge q (Clock.edge p s)).txStart = false) ∧
  (∀ (s : State) (p : Pins),
    (s.frameOwned = true → p.txDone = true → (Clock.edge p s).frameOwned = false) ∧
    (s.frameOwned = false →
      Clock.edge p s = Clock.edge { p with txDone := !p.txDone } s))

/-- Simultaneous events (60_exceptions.md R226): reset wins over everything; a `tx_done` on the edge where a
held FRAME would test `frame_owned` clears it, and the FRAME proceeds on the next edge; where an edge takes
the eighth MISO sample (`bitcnt` goes from seven samples to eight) at the watchdog limit, the transfer
completes on that edge with `ok(rx)` and no timeout, for both settings of `SPI_CPHA`; a `tx_done` with no
ownership is ignored. -/
def Obligations.SimultaneousEvents : Prop :=
  (∀ (s : State) (p : Pins), p.rstN = false → Clock.edge p s = s.resetEdge) ∧
  (∀ (s : State) (p q : Pins),
    s.fsm = .frameWait → s.curOp = 0x7#4 → s.frameOwned = true →
    p.rstN = true → p.txDone = true → q.rstN = true →
    (Clock.edge p s).fsm = .frameWait ∧ (Clock.edge p s).frameOwned = false ∧
    (Clock.edge p s).frame = s.frame ∧
    (Clock.edge q (Clock.edge p s)).fsm = .idle ∧
    (Clock.edge q (Clock.edge p s)).frameOwned = true ∧
    (Clock.edge q (Clock.edge p s)).frame =
      Spec.frameAfter s.curArg0 s.curArg1 s.curArg2 s.curArg3 s) ∧
  (∀ (s : State) (p : Pins),
    s.fsm = .xfer → p.rstN = true → s.bitcnt = 7 →
    (s.transferEdge p.miso p.stall).bitcnt = 8 → s.cfg.xferTimeoutCycles ≤ s.wdog + 1 →
    (Clock.edge p s).fsm = .idle ∧ (Clock.edge p s).xferTimeouts = s.xferTimeouts ∧
    (Clock.edge p s).resData = (shiftIn s.shreg p.miso).zeroExtend 32 ∧
    (Clock.edge p s).trace = s.trace ++
      [.byte (operandByte s.curArg0) (shiftIn s.shreg p.miso) s.csActive]) ∧
  (∀ (s : State) (p : Pins), s.frameOwned = false →
    Clock.edge { p with txDone := true } s = Clock.edge { p with txDone := false } s)

/-- The ports after an edge with `rst_n = 0`, and no acceptance on such an edge
(70_reset_and_hazards.md R251). -/
def Obligations.ResetPorts : Prop :=
  ∀ (s : State) (p : Pins), p.rstN = false →
    (Clock.edge p s).csN = true ∧ (Clock.edge p s).sclk = s.cfg.spiCpol ∧
    (Clock.edge p s).mosi = false ∧ (Clock.edge p s).done = false ∧
    (Clock.edge p s).txStart = false ∧ (Clock.edge p s).resData = 0#32 ∧
    (∀ addr : BitVec 5, Memory.readPort (Clock.edge p s).frame addr = 0x00#8) ∧
    (∀ u : State, u.inp.rstN = false → u.opReady = false ∧ u.accepts = false) ∧
    Clock.edge p s = Clock.edge { p with op := none } s

/-- After the last edge with `rst_n = 0` the block accepts on the next edge, and the ready sample is 0 on
the first two edges whatever `drdy_n` is (70_reset_and_hazards.md R252). -/
def Obligations.FirstEdgesAfterReset : Prop :=
  ∀ (s : State) (p q : Pins), p.rstN = false → q.rstN = true →
    (Clock.edge p s).fsm = .idle ∧
    (∀ u : State, u.inp.rstN = true → u.fsm = (Clock.edge p s).fsm → u.opReady = true) ∧
    (∀ w, q.op = some w →
      (Clock.edge q (Clock.edge p s)).fsm = acceptFsm (fieldOpCode w) (fieldArg0 w) false ∧
      (Clock.edge q (Clock.edge p s)).latchedWord = w) ∧
    (q.op = none → (Clock.edge q (Clock.edge p s)).fsm = .idle) ∧
    (Clock.edge p s).readySample = false ∧
    (Clock.edge q (Clock.edge p s)).readySample = false

/-! ## The sign-extender -/

/-- The source's magnitude calculation and two's-complement sign extension give the same result for every
input: with bit 23 set and `t` the low 23 bits, the masked complement is `0x7FFFFF - t`, the magnitude
`0x800000 - t`, and its negation `u - 2^24`; SX24 returns the sign extension (43_sign_extend.md R172). -/
def Obligations.MagnitudeDecodeIsSignExtension : Prop :=
  (∀ u : U24, u.getLsbD 23 = true →
    ((~~~ (u.zeroExtend 32)) &&& 0x7FFFFF#32).toNat = 0x7FFFFF - (u.extractLsb' 0 23).toNat ∧
    (sx24Magnitude u).toNat = 0x800000 - (u.extractLsb' 0 23).toNat ∧
    -((sx24Magnitude u).toNat : Int) = (u.toNat : Int) - 2 ^ 24) ∧
  (∀ (s : State) (u : U24), ∃ t, exec (.sx24 u) s = .next t ∧
    t.resData = BitVec.ofInt 32 (sext32 u) ∧ t.resData = u.signExtend 32)

/-- Range and form of the result (43_sign_extend.md R173): the signed result is in [-2^23, 2^23 - 1], each
of its bits 31 to 24 is bit 23 of the operand, and its low 24 bits are the operand. -/
def Obligations.Sx24RangeAndForm : Prop :=
  ∀ (s : State) (u : U24), ∃ t, exec (.sx24 u) s = .next t ∧
    -2 ^ 23 ≤ t.resData.toInt ∧ t.resData.toInt ≤ 2 ^ 23 - 1 ∧
    (∀ k, k < 8 → t.resData.getLsbD (24 + k) = u.getLsbD 23) ∧
    t.resData.extractLsb' 0 24 = u

/-- Round trip of a value through its three bytes, most significant first, and idempotence
(43_sign_extend.md R175). -/
def Obligations.Sx24RoundTrip : Prop :=
  (∀ (s : State) (v : Int), -2 ^ 23 ≤ v → v ≤ 2 ^ 23 - 1 →
    ∃ t, exec (.sx24 (Client.resultOperand ((BitVec.ofInt 32 v).extractLsb' 16 8)
        ((BitVec.ofInt 32 v).extractLsb' 8 8) ((BitVec.ofInt 32 v).extractLsb' 0 8))) s = .next t ∧
      t.resData.toInt = v) ∧
  (∀ (s t : State) (u : U24), exec (.sx24 u) s = .next t →
    ∃ t', exec (.sx24 (t.resData.extractLsb' 0 24)) t = .next t' ∧ t'.resData = t.resData)

/-! ## The framer -/

/-- The frame layout, offset by offset, in both modes; in defect mode offsets 6, 11, 16 and 21 are
unchanged (44_framer.md R183). -/
def Obligations.FrameLayout : Prop :=
  ∀ (s t : State) (ch1 ch2 ch3 ch4 : Word32), Memory.wf s.frame = true → s.frameOwned = false →
    exec (.frame ch1 ch2 ch3 ch4) s = .next t →
    (s.cfg.frameLsbDefect = false → Memory.bytes t.frame =
      [0xAA#8, 0xBB#8] ++ (0x01#8 :: be32 ch1) ++ (0x02#8 :: be32 ch2) ++ (0x03#8 :: be32 ch3) ++
        (0x04#8 :: be32 ch4) ++ [0xCC#8, 0xDD#8]) ∧
    (s.cfg.frameLsbDefect = true → Memory.bytes t.frame =
      [0xAA#8, 0xBB#8,
        0x01#8, ch1.extractLsb' 24 8, ch1.extractLsb' 16 8, ch1.extractLsb' 0 8,
          Memory.read s.frame 6,
        0x02#8, ch2.extractLsb' 24 8, ch2.extractLsb' 16 8, ch2.extractLsb' 0 8,
          Memory.read s.frame 11,
        0x03#8, ch3.extractLsb' 24 8, ch3.extractLsb' 16 8, ch3.extractLsb' 0 8,
          Memory.read s.frame 16,
        0x04#8, ch4.extractLsb' 24 8, ch4.extractLsb' 16 8, ch4.extractLsb' 0 8,
          Memory.read s.frame 21,
        0xCC#8, 0xDD#8])

/-- In both modes every frame handed off is 24 bytes, starts `AA BB 01`, has the tags 02, 03, 04 at 7, 12 and
17, and ends `CC DD` (44_framer.md R188). -/
def Obligations.FrameShape : Prop :=
  ∀ (s t : State) (ch1 ch2 ch3 ch4 : Word32), Memory.wf s.frame = true → s.frameOwned = false →
    exec (.frame ch1 ch2 ch3 ch4) s = .next t →
    ∃ f : List Byte, t.trace = s.trace ++ [.handoff f] ∧ f = Memory.bytes t.frame ∧ f.length = 24 ∧
      f.take 3 = [0xAA#8, 0xBB#8, 0x01#8] ∧ f[7]? = some 0x02#8 ∧ f[12]? = some 0x03#8 ∧
      f[17]? = some 0x04#8 ∧ f.drop 22 = [0xCC#8, 0xDD#8]

/-- In defect mode bits 15 to 8 of a channel never reach the frame: operands that differ only there give the
same next state (44_framer.md R182). -/
def Obligations.DefectModeDropsBits15To8 : Prop :=
  ∀ (s : State) (a1 a2 a3 a4 b1 b2 b3 b4 : Word32), s.cfg.frameLsbDefect = true →
    a1 &&& 0xFFFF00FF#32 = b1 &&& 0xFFFF00FF#32 → a2 &&& 0xFFFF00FF#32 = b2 &&& 0xFFFF00FF#32 →
    a3 &&& 0xFFFF00FF#32 = b3 &&& 0xFFFF00FF#32 → a4 &&& 0xFFFF00FF#32 = b4 &&& 0xFFFF00FF#32 →
    exec (.frame a1 a2 a3 a4) s = exec (.frame b1 b2 b3 b4) s

/-- The TXC read port: addresses 0 to 23 read the frame byte, 24 to 31 read 0x00, and what TXC drives on its
read address has no effect on any step (20_memory.md R51, R57). -/
def Obligations.TxReadPort : Prop :=
  ∀ s : State,
    (s.inp.txRdAddr.toNat < 24 → s.txRdData = Memory.read s.frame s.inp.txRdAddr.toNat) ∧
    (24 ≤ s.inp.txRdAddr.toNat → s.txRdData = 0x00#8) ∧
    ∀ addr : BitVec 5, step { s with inp := { s.inp with txRdAddr := addr } } = step s

/-! ## Chip select and the client protocol -/

/-- Chip select is a level: after any number of CSEL 1, one CSEL 0 releases it, whatever the outside drives
during each (41_select_ready.md R124). -/
def Obligations.OneReleaseUndoesAllAsserts : Prop :=
  ∀ (s : State) (levels : List Inputs) (last : Inputs), s.fsm = .idle →
    ∃ t, runHost (levels.map (fun l => (.csel true, l)) ++ [(.csel false, last)]) s = .next t ∧
      t.fsm = .idle ∧ t.csActive = false

/-- The client's sequences, issued with the converter ready, complete with chip select released and meet the
client's obligations of ready gating and spacing, whatever the transfers return: the register write, the
burst read, a result read after a ready poll, one scan step, and `readChannel` with and without its MUX
write (42_bus_commands.md R151 to R153, R155, R156, R161 to R163; the monitor's reading is log 19). -/
def Obligations.ClientSequencesConform : Prop :=
  ∀ (s : State) (m : Monitor) (c : ClientParams) (addr value b0 b1 b2 : Byte) (i : Fin 4)
    (last : Option Byte) (pos neg : BitVec 4),
    s.fsm = .idle → s.drdyMeta = false → s.drdySync = false → m.phase = .command → m.ok = true →
    ∀ ops ∈ [Client.wreg addr value, Client.rreg5 c, .rdyw :: Client.rdata c b0 b1 b2,
      Client.scanStep c i b0 b1 b2, (Client.readChannel c last pos neg b0 b1 b2).1],
    ∀ levels : List Inputs, levels.length = ops.length → (∀ l ∈ levels, l.drdyN = false) →
    ∃ t es, runHost (ops.zip levels) s = .next t ∧ t.fsm = .idle ∧ t.csActive = false ∧
      t.trace = s.trace ++ es ∧ (m.run es).ok = true ∧ (m.run es).phase = .command

/-- MUX writes: `readChannel` twice with the same pair issues exactly one, a scan cycle four
(42_bus_commands.md R164). -/
def Obligations.MuxWriteCounts : Prop :=
  (∀ (c : ClientParams) (last : Option Byte) (pos neg : BitVec 4) (b0 b1 b2 d0 d1 d2 : Byte),
    Client.muxWrites (Client.readChannel c last pos neg b0 b1 b2).1 =
      (if last = some (Client.pairByte pos neg) then 0 else 1) ∧
    Client.muxWrites (Client.readChannel c (Client.readChannel c last pos neg b0 b1 b2).2 pos neg
      d0 d1 d2).1 = 0) ∧
  (∀ (c : ClientParams) (bytes1 bytes2 : Fin 4 → Byte × Byte × Byte),
    Client.muxWrites (Client.scanCycle c bytes1) = 4 ∧
    Client.muxWrites (Client.scanCycle c bytes1 ++ Client.scanCycle c bytes2) = 8)

/-- Where received bytes go. Pipeline lag: after one scan cycle slot 3 holds what was in flight before it, and
after two every slot `i` holds a result of pair `i`, whatever the buffer held (42_bus_commands.md R165,
R166; log 25). The converter's registers change only by an explicit write: a known value was known before,
or is the value byte of a write command to that register. And a scan step and `readChannel`, run on the
block with the converter ready and no exchange timing out, read their one result with the MUX register at
the pair it is attributed to, the conversion in flight being its source, where HOST's last-configured pair
is the MUX register's (R160; how the registers are read off the trace is log 28). A burst read run there
gives STATUS, MUX, ADCON, DRATE and IO in the order of its five data exchanges, to HOST and in the view, and
changes no register (R143, R152). RDATA, with the SX24 operand HOST builds from the results of its three
dummy exchanges, the first in bits 23 to 16, completes with the decoded value and is the sequence
`Client.rdata` of those bytes, which are the converter's where no exchange timed out (R149, R153). -/
def Obligations.ReceivedBytesGoToTheirRegistersAndSlots : Prop :=
  (∀ b : ScanBuffer, b.slots.length = 4 →
    b.scanCycle.slots[3]? = some b.inFlight ∧
    ∀ i : Fin 4, b.scanCycle.scanCycle.slots[i.val]? = some (some i)) ∧
  (∀ (v : ConverterView) (e : Event) (a : BitVec 4) (x : Byte),
    (v.event e).regs.get a = some x →
      v.regs.get a = some x ∨
      (v.monitor.phase = .wregValue ∧ v.writing = a ∧ ∃ rx, e = .byte x rx true)) ∧
  (∀ (s : State) (v : ConverterView) (c : ClientParams) (b0 b1 b2 : Byte) (i : Fin 4)
    (last : Option Byte) (pos neg : BitVec 4),
    s.fsm = .idle → s.drdyMeta = false → s.drdySync = false →
    v.monitor.phase = .command → v.monitor.ok = true → v.lost = false →
    (∀ x, last = some x → v.regs.mux = some x) →
    ∀ r ∈ [(Client.scanStep c i b0 b1 b2, Client.scanPair i),
      ((Client.readChannel c last pos neg b0 b1 b2).1, Client.pairByte pos neg)],
    ∀ levels : List Inputs, levels.length = r.1.length →
    (∀ l ∈ levels, l.drdyN = false ∧ l.xferStall = false) →
    ∃ t es read, runHost (r.1.zip levels) s = .next t ∧ t.trace = s.trace ++ es ∧
      (v.run es).reads = v.reads ++ [read] ∧ read.attributable r.2 = true ∧
      read.source = v.inFlight ∧ (v.run es).regs.mux = some r.2 ∧
      (v.run es).inFlight = some r.2 ∧ (v.run es).lost = false ∧
      (v.run es).monitor.phase = .command ∧ (v.run es).monitor.ok = true) ∧
  (∀ (s : State) (v : ConverterView) (c : ClientParams) (levels : List Inputs) (b : Fin 5 → Byte),
    s.fsm = .idle → s.drdyMeta = false → s.drdySync = false →
    v.monitor.phase = .command → v.monitor.ok = true → v.lost = false →
    levels.length = (Client.rreg5 c).length →
    (∀ l ∈ levels, l.drdyN = false ∧ l.xferStall = false) →
    (∀ j : Fin 5, (levels[6 + 2 * j.val]?).map Inputs.misoByte = some (b j)) →
    ∃ t es rs, runHost ((Client.rreg5 c).zip levels) s = .next t ∧ t.trace = s.trace ++ es ∧
      t.results = s.results ++ rs ∧
      Client.burstRegisters rs = ⟨some (b 0), some (b 1), some (b 2), some (b 3), some (b 4)⟩ ∧
      (v.run es).readBack = Client.burstRegisters rs ∧ (v.run es).regs = v.regs ∧
      (v.run es).monitor.ok = true ∧ (v.run es).lost = false) ∧
  (∀ (s : State) (c : ClientParams) (levels : List Inputs),
    s.fsm = .idle → levels.length = (Client.rdataItems c).length →
    ∃ t rs, ∃ b : Fin 3 → Byte,
      runItems ((Client.rdataItems c).zip levels) s = .next t ∧ t.fsm = .idle ∧
      t.results = s.results ++ rs ∧ (∀ j : Fin 3, rs[3 + j.val]? = some ((b j).zeroExtend 32)) ∧
      t.resData = BitVec.ofInt 32 (sext32 (b 0 ++ b 1 ++ b 2)) ∧
      runHost ((Client.rdata c (b 0) (b 1) (b 2)).zip levels) s = .next t ∧
      ((∀ l ∈ levels, l.xferStall = false) →
        ∀ j : Fin 3, (levels[3 + j.val]?).map Inputs.misoByte = some (b j)))
end

