-- ==== Sys2Proof/Laws/Client.lean ====
section
/-! SUPPORT. The client's monitor and the view of the converter: what one event can do to each, and how runs
over a trace compose. -/

namespace Sys2Proof.Machine

/-! ## Runs -/

@[simp] theorem Monitor.run_nil (m : Monitor) : m.run [] = m := rfl

@[simp] theorem Monitor.run_cons (m : Monitor) (e : Event) (es : List Event) :
    m.run (e :: es) = (m.event e).run es := rfl

@[simp] theorem Monitor.run_append (m : Monitor) (es fs : List Event) :
    m.run (es ++ fs) = (m.run es).run fs := List.foldl_append

@[simp] theorem ConverterView.run_nil (v : ConverterView) : v.run [] = v := rfl

@[simp] theorem ConverterView.run_cons (v : ConverterView) (e : Event) (es : List Event) :
    v.run (e :: es) = (v.event e).run es := rfl

@[simp] theorem ConverterView.run_append (v : ConverterView) (es fs : List Event) :
    v.run (es ++ fs) = (v.run es).run fs := List.foldl_append

/-! ## What HOST issues -/

/-- Items that are operations run as the operations do. -/
theorem runItems_op (ops : List (Instr × Inputs)) (s : State) :
    runItems (ops.map fun p => (.op p.1, p.2)) s = runHost ops s := by
  induction ops generalizing s with
  | nil => rfl
  | cons p ops ih => simp only [List.map_cons, runItems, runHost, AsmItem.instr, ih]

/-- The operand HOST builds from the seven results of RDATA's exchanges. -/
@[simp] theorem Client.lastOperand_append (rs : List Word32) (r0 r1 r2 r3 r4 r5 r6 : Word32) :
    Client.lastOperand (rs ++ [r0, r1, r2, r3, r4, r5, r6]) =
      some (Client.resultOperand (operandByte r3) (operandByte r4) (operandByte r5)) := by
  simp [Client.lastOperand, Client.operandFrom, Client.rdataResults, Client.byteAt]

/-! ## Registers -/

@[simp] theorem ConvRegs.unknown_get (a : BitVec 4) : ConvRegs.unknown.get a = none := by
  unfold ConvRegs.get ConvRegs.unknown
  split <;> rfl

/-- A register holds after a write what was written to it, or what it held. -/
theorem ConvRegs.set_get {r : ConvRegs} {a b : BitVec 4} {x y : Byte}
    (h : (r.set a x).get b = some y) : (b = a ∧ y = x) ∨ r.get b = some y := by
  by_cases hab : b = a
  · subst hab
    left
    unfold ConvRegs.set at h
    split at h <;> rename_i ha <;> simp_all [ConvRegs.get]
  · right
    have hne : b.toNat ≠ a.toNat := fun e => hab (BitVec.eq_of_toNat_eq e)
    unfold ConvRegs.set at h
    split at h
    case h_6 => simp at h
    all_goals
      rename_i ha
      unfold ConvRegs.get at h ⊢
      split at h <;> simp_all

/-! ## One event -/

@[simp] theorem ConverterView.event_monitor (v : ConverterView) (e : Event) :
    (v.event e).monitor = v.monitor.event e := by
  simp only [ConverterView.event]
  split <;> rfl

@[simp] theorem ConverterView.run_monitor (v : ConverterView) (es : List Event) :
    (v.run es).monitor = v.monitor.run es := by
  induction es generalizing v with
  | nil => rfl
  | cons e es ih => simp [ih]

/-- An event is the converter's part in it, with everything forgotten where HOST has broken an obligation or
the converter's reading is lost. -/
theorem ConverterView.event_cases (v : ConverterView) (e : Event) :
    ((v.monitor.event e).ok = true ∧ (v.act e).lost = false ∧
      v.event e = { v.act e with monitor := v.monitor.event e }) ∨
    (((v.monitor.event e).ok = false ∨ (v.act e).lost = true) ∧
      v.event e = ({ v.act e with monitor := v.monitor.event e } : ConverterView).forget) := by
  cases ho : (v.monitor.event e).ok <;> cases hl : (v.act e).lost <;>
    simp [ConverterView.event, ho, hl]

/-- Everything a byte can do to the registers: nothing, leave nothing known, or the one explicit write. -/
theorem ConverterView.take_regs (v : ConverterView) (tx rx : Byte) :
    (v.take tx rx).regs = v.regs ∨ (v.take tx rx).regs = ConvRegs.unknown ∨
      (v.monitor.phase = .wregValue ∧ (v.take tx rx).regs = v.regs.set v.writing tx) := by
  unfold ConverterView.take
  split
  · split
    · exact .inl rfl
    · split
      · exact .inl rfl
      · split
        · exact .inr (.inl rfl)
        · exact .inl rfl
  · exact .inl rfl
  · exact .inr (.inr ⟨‹_›, rfl⟩)
  · exact .inl rfl
  · exact .inl rfl
  · split <;> exact .inl rfl

/-- What was read back changes only by a data byte of a burst read, or where nothing stays known. -/
theorem ConverterView.take_readBack (v : ConverterView) (tx rx : Byte) :
    (v.take tx rx).readBack = v.readBack ∨ (v.take tx rx).readBack = ConvRegs.unknown ∨
      ∃ need left, v.monitor.phase = .rregData need left ∧
        (v.take tx rx).readBack = v.readBack.set (Client.burstAddr left) rx := by
  unfold ConverterView.take
  split
  · split
    · exact .inl rfl
    · split
      · exact .inl rfl
      · split
        · exact .inr (.inl rfl)
        · exact .inl rfl
  · exact .inl rfl
  · exact .inl rfl
  · exact .inl rfl
  · exact .inr (.inr ⟨_, _, ‹_›, rfl⟩)
  · split <;> exact .inl rfl

end Sys2Proof.Machine
end

