-- ==== Sys2Proof/Laws/Memory.lean ====
section
/-! SUPPORT. The laws of the frame memory: every operation keeps the canonical form, a read after a write,
and canonical memories with the same bytes are the same list. -/

namespace Sys2Proof.Machine

/-! ## Reading -/

@[simp] theorem Memory.read_nil (a : Nat) : Memory.read [] a = 0#8 := rfl

theorem Memory.read_cons (x : Nat) (y : Byte) (m : Memory) (a : Nat) :
    Memory.read ((x, y) :: m) a = if x = a then y else Memory.read m a := rfl

theorem Memory.wfFrom_cons {lo x : Nat} {y : Byte} {m : Memory} :
    Memory.wfFrom lo ((x, y) :: m) = true ↔
      lo ≤ x ∧ x < 24 ∧ y ≠ 0#8 ∧ Memory.wfFrom (x + 1) m = true := by
  simp [Memory.wfFrom, and_assoc]

/-- A lower bound of the listed addresses may be weakened. -/
theorem Memory.wfFrom_weaken {lo lo' : Nat} {m : Memory} (h : Memory.wfFrom lo m = true)
    (hle : lo' ≤ lo) : Memory.wfFrom lo' m = true := by
  cases m with
  | nil => rfl
  | cons c m =>
    obtain ⟨x, y⟩ := c
    rw [Memory.wfFrom_cons] at h ⊢
    exact ⟨hle.trans h.1, h.2⟩

/-- Below its bound a canonical memory lists nothing. -/
theorem Memory.read_below {m : Memory} {lo a : Nat} (h : Memory.wfFrom lo m = true) (ha : a < lo) :
    Memory.read m a = 0#8 := by
  induction m generalizing lo with
  | nil => rfl
  | cons c m ih =>
    obtain ⟨x, y⟩ := c
    rw [Memory.wfFrom_cons] at h
    rw [Memory.read_cons, if_neg (by omega)]
    exact ih h.2.2.2 (by omega)

/-- Outside the buffer a canonical memory lists nothing. -/
theorem Memory.read_outside {m : Memory} {lo a : Nat} (h : Memory.wfFrom lo m = true)
    (ha : 24 ≤ a) : Memory.read m a = 0#8 := by
  induction m generalizing lo with
  | nil => rfl
  | cons c m ih =>
    obtain ⟨x, y⟩ := c
    rw [Memory.wfFrom_cons] at h
    rw [Memory.read_cons, if_neg (by omega)]
    exact ih h.2.2.2

/-! ## Writing -/

/-- A write inside the buffer keeps the canonical form above any bound not over its address. -/
theorem Memory.wfFrom_write {m : Memory} {lo a : Nat} {b : Byte} (h : Memory.wfFrom lo m = true)
    (hlo : lo ≤ a) (ha : a < 24) : Memory.wfFrom lo (Memory.write m a b) = true := by
  induction m generalizing lo with
  | nil =>
    by_cases hb : b = 0#8
    · simp [Memory.write, hb, Memory.wfFrom]
    · simp [Memory.write, hb, Memory.wfFrom, hlo, ha]
  | cons c m ih =>
    obtain ⟨x, y⟩ := c
    have h' := Memory.wfFrom_cons.mp h
    unfold Memory.write
    split
    · split
      · exact h
      · exact Memory.wfFrom_cons.mpr ⟨hlo, ha, ‹_›,
          Memory.wfFrom_cons.mpr ⟨by omega, h'.2⟩⟩
    · split
      · split
        · exact Memory.wfFrom_weaken h'.2.2.2 (by omega)
        · exact Memory.wfFrom_cons.mpr ⟨hlo, ha, ‹_›, by subst a; exact h'.2.2.2⟩
      · exact Memory.wfFrom_cons.mpr ⟨h'.1, h'.2.1, h'.2.2.1, ih h'.2.2.2 (by omega)⟩

/-- A write inside the buffer keeps the canonical form. -/
theorem Memory.wf_write {m : Memory} {a : Nat} {b : Byte} (h : Memory.wf m = true) (ha : a < 24) :
    Memory.wf (Memory.write m a b) = true :=
  Memory.wfFrom_write h (Nat.zero_le a) ha

theorem Memory.read_write_from {m : Memory} {lo : Nat} (h : Memory.wfFrom lo m = true) (a : Nat)
    (b : Byte) (a' : Nat) :
    Memory.read (Memory.write m a b) a' = if a' = a then b else Memory.read m a' := by
  induction m generalizing lo with
  | nil =>
    by_cases hb : b = 0#8
    · simp [Memory.write, hb]
    · by_cases ha : a' = a
      · simp [Memory.write, hb, Memory.read_cons, ha]
      · simp [Memory.write, hb, Memory.read_cons, ha, Ne.symm ha]
  | cons c m ih =>
    obtain ⟨x, y⟩ := c
    have h' := Memory.wfFrom_cons.mp h
    unfold Memory.write
    split
    · rename_i hlt
      split
      · by_cases ha : a' = a
        · subst ha
          rw [if_pos rfl, Memory.read_cons, if_neg (by omega),
            Memory.read_below h'.2.2.2 (by omega)]
          exact (‹b = 0#8›).symm
        · rw [if_neg ha]
      · rw [Memory.read_cons]
        by_cases ha : a' = a
        · rw [if_pos ha.symm, if_pos ha]
        · rw [if_neg (Ne.symm ha), if_neg ha]
    · split
      · rename_i hx
        subst hx
        split
        · by_cases ha : a' = a
          · subst ha
            rw [if_pos rfl, Memory.read_below h'.2.2.2 (by omega)]
            exact (‹b = 0#8›).symm
          · rw [if_neg ha, Memory.read_cons, if_neg (Ne.symm ha)]
        · rw [Memory.read_cons, Memory.read_cons]
          by_cases ha : a' = a
          · rw [if_pos ha.symm, if_pos ha]
          · rw [if_neg (Ne.symm ha), if_neg ha, if_neg (Ne.symm ha)]
      · rw [Memory.read_cons, Memory.read_cons, ih h'.2.2.2]
        by_cases hxa : x = a'
        · rw [if_pos hxa, if_pos hxa, if_neg (by omega)]
        · rw [if_neg hxa, if_neg hxa]

/-- A read after a write: the byte written at its address, every other byte as before. -/
theorem Memory.read_write {m : Memory} (h : Memory.wf m = true) (a : Nat) (b : Byte) (a' : Nat) :
    Memory.read (Memory.write m a b) a' = if a' = a then b else Memory.read m a' :=
  Memory.read_write_from h a b a'

/-! ## A list of writes -/

@[simp] theorem Memory.writeAll_nil (m : Memory) : Memory.writeAll m [] = m := rfl

@[simp] theorem Memory.writeAll_cons (m : Memory) (a : Nat) (b : Byte) (w : List (Nat × Byte)) :
    Memory.writeAll m ((a, b) :: w) = Memory.writeAll (Memory.write m a b) w := rfl

/-- Writes inside the buffer keep the canonical form. -/
theorem Memory.wf_writeAll {m : Memory} {w : List (Nat × Byte)} (h : Memory.wf m = true)
    (hw : ∀ c ∈ w, c.1 < 24) : Memory.wf (Memory.writeAll m w) = true := by
  induction w generalizing m with
  | nil => exact h
  | cons c w ih =>
    exact ih (Memory.wf_write h (hw c (by simp))) fun d hd => hw d (by simp [hd])

/-- An address no write names reads as before. -/
theorem Memory.read_writeAll_other {m : Memory} {w : List (Nat × Byte)} {a : Nat}
    (h : Memory.wf m = true) (hw : ∀ c ∈ w, c.1 < 24) (ha : a ∉ w.map Prod.fst) :
    Memory.read (Memory.writeAll m w) a = Memory.read m a := by
  induction w generalizing m with
  | nil => rfl
  | cons c w ih =>
    obtain ⟨x, y⟩ := c
    simp only [List.map_cons, List.mem_cons, not_or] at ha
    have hx : x < 24 := hw (x, y) (by simp)
    rw [Memory.writeAll_cons, ih (Memory.wf_write h hx) (fun d hd => hw d (by simp [hd])) ha.2,
      Memory.read_write h, if_neg ha.1]

/-! ## Equal bytes, equal lists -/

theorem Memory.ext_from {m m' : Memory} {lo : Nat} (h : Memory.wfFrom lo m = true)
    (h' : Memory.wfFrom lo m' = true) (hr : ∀ a, Memory.read m a = Memory.read m' a) : m = m' := by
  induction m generalizing lo m' with
  | nil =>
    cases m' with
    | nil => rfl
    | cons c n =>
      obtain ⟨x, y⟩ := c
      have hx := hr x
      rw [Memory.read_cons, if_pos rfl] at hx
      exact absurd hx.symm (Memory.wfFrom_cons.mp h').2.2.1
  | cons c m ih =>
    obtain ⟨x, y⟩ := c
    have hm := Memory.wfFrom_cons.mp h
    cases m' with
    | nil =>
      have hx := hr x
      rw [Memory.read_cons, if_pos rfl] at hx
      exact absurd hx hm.2.2.1
    | cons d n =>
      obtain ⟨x', y'⟩ := d
      have hn := Memory.wfFrom_cons.mp h'
      have hxx : x = x' := by
        rcases Nat.lt_trichotomy x x' with hlt | heq | hgt
        · have hx := hr x
          rw [Memory.read_cons, if_pos rfl, Memory.read_cons, if_neg (by omega),
            Memory.read_below hn.2.2.2 (by omega)] at hx
          exact absurd hx hm.2.2.1
        · exact heq
        · have hx := hr x'
          rw [Memory.read_cons, if_neg (by omega), Memory.read_cons, if_pos rfl,
            Memory.read_below hm.2.2.2 (by omega)] at hx
          exact absurd hx.symm hn.2.2.1
      subst hxx
      have hyy : y = y' := by simpa [Memory.read_cons] using hr x
      subst hyy
      rw [ih hm.2.2.2 hn.2.2.2 fun a => ?_]
      by_cases ha : x = a
      · subst ha
        rw [Memory.read_below hm.2.2.2 (by omega), Memory.read_below hn.2.2.2 (by omega)]
      · simpa [Memory.read_cons, ha] using hr a

/-- Canonical memories that read the same everywhere are the same data. -/
theorem Memory.ext {m m' : Memory} (h : Memory.wf m = true) (h' : Memory.wf m' = true)
    (hr : ∀ a, Memory.read m a = Memory.read m' a) : m = m' :=
  Memory.ext_from h h' hr

/-! ## The stores of a FRAME (44_framer.md R181, R182) -/

/-- The addresses of one channel's stores do not depend on its value. -/
theorem channelStores_addrs (defect : Bool) (k : Nat) (v : Word32) :
    (channelStores defect k v).map Prod.fst =
      if defect then [2 + 5 * k, 2 + 5 * k + 1, 2 + 5 * k + 2, 2 + 5 * k + 3]
      else [2 + 5 * k, 2 + 5 * k + 1, 2 + 5 * k + 2, 2 + 5 * k + 3, 2 + 5 * k + 4] := by
  cases defect <;> rfl

/-- The addresses a FRAME stores to, written out. -/
theorem frameStoreAddrs_eq (defect : Bool) (c1 c2 c3 c4 : Word32) :
    frameStoreAddrs defect c1 c2 c3 c4 =
      if defect then [0, 1, 2, 3, 4, 5, 7, 8, 9, 10, 12, 13, 14, 15, 17, 18, 19, 20, 22, 23]
      else List.range 24 := by
  cases defect <;> rfl

/-- Every store of a FRAME is inside the buffer. -/
theorem frameStores_inside (defect : Bool) (c1 c2 c3 c4 : Word32) :
    ∀ c ∈ frameStores defect c1 c2 c3 c4, c.1 < 24 := by
  intro c hc
  have hm : c.1 ∈ frameStoreAddrs defect c1 c2 c3 c4 := List.mem_map_of_mem hc
  rw [frameStoreAddrs_eq] at hm
  cases defect
  · simpa using hm
  · revert hm
    generalize c.1 = a
    intro hm
    simp only [if_true, List.mem_cons, List.not_mem_nil, or_false] at hm
    omega

end Sys2Proof.Machine
end

