-- ==== Sys2Proof/Laws/State.lean ====
section
/-! SUPPORT. One lemma per field per update of State, each true by rfl. -/

namespace Sys2Proof.Machine

/-! ## `State.emit` -/

@[simp] theorem State.emit_cfg (s : State) (e : Event) : (s.emit e).cfg = s.cfg := rfl
@[simp] theorem State.emit_csActive (s : State) (e : Event) :
    (s.emit e).csActive = s.csActive := rfl
@[simp] theorem State.emit_xferTimeouts (s : State) (e : Event) :
    (s.emit e).xferTimeouts = s.xferTimeouts := rfl
@[simp] theorem State.emit_badOp (s : State) (e : Event) : (s.emit e).badOp = s.badOp := rfl
@[simp] theorem State.emit_frameOwned (s : State) (e : Event) :
    (s.emit e).frameOwned = s.frameOwned := rfl
@[simp] theorem State.emit_frame (s : State) (e : Event) : (s.emit e).frame = s.frame := rfl
@[simp] theorem State.emit_resData (s : State) (e : Event) : (s.emit e).resData = s.resData := rfl
@[simp] theorem State.emit_fsm (s : State) (e : Event) : (s.emit e).fsm = s.fsm := rfl
@[simp] theorem State.emit_curOp (s : State) (e : Event) : (s.emit e).curOp = s.curOp := rfl
@[simp] theorem State.emit_curArg0 (s : State) (e : Event) : (s.emit e).curArg0 = s.curArg0 := rfl
@[simp] theorem State.emit_curArg1 (s : State) (e : Event) : (s.emit e).curArg1 = s.curArg1 := rfl
@[simp] theorem State.emit_curArg2 (s : State) (e : Event) : (s.emit e).curArg2 = s.curArg2 := rfl
@[simp] theorem State.emit_curArg3 (s : State) (e : Event) : (s.emit e).curArg3 = s.curArg3 := rfl
@[simp] theorem State.emit_shreg (s : State) (e : Event) : (s.emit e).shreg = s.shreg := rfl
@[simp] theorem State.emit_bitcnt (s : State) (e : Event) : (s.emit e).bitcnt = s.bitcnt := rfl
@[simp] theorem State.emit_sclkCnt (s : State) (e : Event) : (s.emit e).sclkCnt = s.sclkCnt := rfl
@[simp] theorem State.emit_wdog (s : State) (e : Event) : (s.emit e).wdog = s.wdog := rfl
@[simp] theorem State.emit_dcnt (s : State) (e : Event) : (s.emit e).dcnt = s.dcnt := rfl
@[simp] theorem State.emit_dtarget (s : State) (e : Event) : (s.emit e).dtarget = s.dtarget := rfl
@[simp] theorem State.emit_drdyMeta (s : State) (e : Event) :
    (s.emit e).drdyMeta = s.drdyMeta := rfl
@[simp] theorem State.emit_drdySync (s : State) (e : Event) :
    (s.emit e).drdySync = s.drdySync := rfl
@[simp] theorem State.emit_doneR (s : State) (e : Event) : (s.emit e).doneR = s.doneR := rfl
@[simp] theorem State.emit_txStartR (s : State) (e : Event) :
    (s.emit e).txStartR = s.txStartR := rfl
@[simp] theorem State.emit_sclk (s : State) (e : Event) : (s.emit e).sclk = s.sclk := rfl
@[simp] theorem State.emit_mosi (s : State) (e : Event) : (s.emit e).mosi = s.mosi := rfl
@[simp] theorem State.emit_inp (s : State) (e : Event) : (s.emit e).inp = s.inp := rfl
@[simp] theorem State.emit_tick (s : State) (e : Event) : (s.emit e).tick = s.tick := rfl
@[simp] theorem State.emit_trace (s : State) (e : Event) : (s.emit e).trace = s.trace ++ [e] := rfl
@[simp] theorem State.emit_results (s : State) (e : Event) : (s.emit e).results = s.results := rfl

/-! ## `State.complete` -/

@[simp] theorem State.complete_cfg (s : State) (res : Word32) : (s.complete res).cfg = s.cfg := rfl
@[simp] theorem State.complete_csActive (s : State) (res : Word32) :
    (s.complete res).csActive = s.csActive := rfl
@[simp] theorem State.complete_xferTimeouts (s : State) (res : Word32) :
    (s.complete res).xferTimeouts = s.xferTimeouts := rfl
@[simp] theorem State.complete_badOp (s : State) (res : Word32) :
    (s.complete res).badOp = s.badOp := rfl
@[simp] theorem State.complete_frameOwned (s : State) (res : Word32) :
    (s.complete res).frameOwned = s.frameOwned := rfl
@[simp] theorem State.complete_frame (s : State) (res : Word32) :
    (s.complete res).frame = s.frame := rfl
@[simp] theorem State.complete_resData (s : State) (res : Word32) :
    (s.complete res).resData = res := rfl
@[simp] theorem State.complete_fsm (s : State) (res : Word32) : (s.complete res).fsm = .idle := rfl
@[simp] theorem State.complete_curOp (s : State) (res : Word32) :
    (s.complete res).curOp = s.curOp := rfl
@[simp] theorem State.complete_curArg0 (s : State) (res : Word32) :
    (s.complete res).curArg0 = s.curArg0 := rfl
@[simp] theorem State.complete_curArg1 (s : State) (res : Word32) :
    (s.complete res).curArg1 = s.curArg1 := rfl
@[simp] theorem State.complete_curArg2 (s : State) (res : Word32) :
    (s.complete res).curArg2 = s.curArg2 := rfl
@[simp] theorem State.complete_curArg3 (s : State) (res : Word32) :
    (s.complete res).curArg3 = s.curArg3 := rfl
@[simp] theorem State.complete_shreg (s : State) (res : Word32) :
    (s.complete res).shreg = s.shreg := rfl
@[simp] theorem State.complete_bitcnt (s : State) (res : Word32) :
    (s.complete res).bitcnt = s.bitcnt := rfl
@[simp] theorem State.complete_sclkCnt (s : State) (res : Word32) :
    (s.complete res).sclkCnt = s.sclkCnt := rfl
@[simp] theorem State.complete_wdog (s : State) (res : Word32) :
    (s.complete res).wdog = s.wdog := rfl
@[simp] theorem State.complete_dcnt (s : State) (res : Word32) :
    (s.complete res).dcnt = s.dcnt := rfl
@[simp] theorem State.complete_dtarget (s : State) (res : Word32) :
    (s.complete res).dtarget = s.dtarget := rfl
@[simp] theorem State.complete_drdyMeta (s : State) (res : Word32) :
    (s.complete res).drdyMeta = s.drdyMeta := rfl
@[simp] theorem State.complete_drdySync (s : State) (res : Word32) :
    (s.complete res).drdySync = s.drdySync := rfl
@[simp] theorem State.complete_doneR (s : State) (res : Word32) :
    (s.complete res).doneR = true := rfl
@[simp] theorem State.complete_txStartR (s : State) (res : Word32) :
    (s.complete res).txStartR = s.txStartR := rfl
@[simp] theorem State.complete_sclk (s : State) (res : Word32) :
    (s.complete res).sclk = s.sclk := rfl
@[simp] theorem State.complete_mosi (s : State) (res : Word32) :
    (s.complete res).mosi = s.mosi := rfl
@[simp] theorem State.complete_inp (s : State) (res : Word32) : (s.complete res).inp = s.inp := rfl
@[simp] theorem State.complete_tick (s : State) (res : Word32) :
    (s.complete res).tick = s.tick := rfl
@[simp] theorem State.complete_trace (s : State) (res : Word32) :
    (s.complete res).trace = s.trace := rfl
@[simp] theorem State.complete_results (s : State) (res : Word32) :
    (s.complete res).results = s.results ++ [res] := rfl

/-! ## `State.hold` -/

@[simp] theorem State.hold_cfg (s : State) (w : Fsm) : (s.hold w).cfg = s.cfg := rfl
@[simp] theorem State.hold_csActive (s : State) (w : Fsm) : (s.hold w).csActive = s.csActive := rfl
@[simp] theorem State.hold_xferTimeouts (s : State) (w : Fsm) :
    (s.hold w).xferTimeouts = s.xferTimeouts := rfl
@[simp] theorem State.hold_badOp (s : State) (w : Fsm) : (s.hold w).badOp = s.badOp := rfl
@[simp] theorem State.hold_frameOwned (s : State) (w : Fsm) :
    (s.hold w).frameOwned = s.frameOwned := rfl
@[simp] theorem State.hold_frame (s : State) (w : Fsm) : (s.hold w).frame = s.frame := rfl
@[simp] theorem State.hold_resData (s : State) (w : Fsm) : (s.hold w).resData = s.resData := rfl
@[simp] theorem State.hold_fsm (s : State) (w : Fsm) : (s.hold w).fsm = w := rfl
@[simp] theorem State.hold_curOp (s : State) (w : Fsm) : (s.hold w).curOp = s.curOp := rfl
@[simp] theorem State.hold_curArg0 (s : State) (w : Fsm) : (s.hold w).curArg0 = s.curArg0 := rfl
@[simp] theorem State.hold_curArg1 (s : State) (w : Fsm) : (s.hold w).curArg1 = s.curArg1 := rfl
@[simp] theorem State.hold_curArg2 (s : State) (w : Fsm) : (s.hold w).curArg2 = s.curArg2 := rfl
@[simp] theorem State.hold_curArg3 (s : State) (w : Fsm) : (s.hold w).curArg3 = s.curArg3 := rfl
@[simp] theorem State.hold_shreg (s : State) (w : Fsm) : (s.hold w).shreg = s.shreg := rfl
@[simp] theorem State.hold_bitcnt (s : State) (w : Fsm) : (s.hold w).bitcnt = s.bitcnt := rfl
@[simp] theorem State.hold_sclkCnt (s : State) (w : Fsm) : (s.hold w).sclkCnt = s.sclkCnt := rfl
@[simp] theorem State.hold_wdog (s : State) (w : Fsm) : (s.hold w).wdog = s.wdog := rfl
@[simp] theorem State.hold_dcnt (s : State) (w : Fsm) : (s.hold w).dcnt = s.dcnt := rfl
@[simp] theorem State.hold_dtarget (s : State) (w : Fsm) : (s.hold w).dtarget = s.dtarget := rfl
@[simp] theorem State.hold_drdyMeta (s : State) (w : Fsm) : (s.hold w).drdyMeta = s.drdyMeta := rfl
@[simp] theorem State.hold_drdySync (s : State) (w : Fsm) : (s.hold w).drdySync = s.drdySync := rfl
@[simp] theorem State.hold_doneR (s : State) (w : Fsm) : (s.hold w).doneR = s.doneR := rfl
@[simp] theorem State.hold_txStartR (s : State) (w : Fsm) : (s.hold w).txStartR = s.txStartR := rfl
@[simp] theorem State.hold_sclk (s : State) (w : Fsm) : (s.hold w).sclk = s.sclk := rfl
@[simp] theorem State.hold_mosi (s : State) (w : Fsm) : (s.hold w).mosi = s.mosi := rfl
@[simp] theorem State.hold_inp (s : State) (w : Fsm) : (s.hold w).inp = s.inp := rfl
@[simp] theorem State.hold_tick (s : State) (w : Fsm) : (s.hold w).tick = s.tick := rfl
@[simp] theorem State.hold_trace (s : State) (w : Fsm) : (s.hold w).trace = s.trace := rfl
@[simp] theorem State.hold_results (s : State) (w : Fsm) : (s.hold w).results = s.results := rfl

/-! ## `State.startWait` -/

@[simp] theorem State.startWait_cfg (s : State) (n : Nat) : (s.startWait n).cfg = s.cfg := rfl
@[simp] theorem State.startWait_csActive (s : State) (n : Nat) :
    (s.startWait n).csActive = s.csActive := rfl
@[simp] theorem State.startWait_xferTimeouts (s : State) (n : Nat) :
    (s.startWait n).xferTimeouts = s.xferTimeouts := rfl
@[simp] theorem State.startWait_badOp (s : State) (n : Nat) : (s.startWait n).badOp = s.badOp := rfl
@[simp] theorem State.startWait_frameOwned (s : State) (n : Nat) :
    (s.startWait n).frameOwned = s.frameOwned := rfl
@[simp] theorem State.startWait_frame (s : State) (n : Nat) : (s.startWait n).frame = s.frame := rfl
@[simp] theorem State.startWait_resData (s : State) (n : Nat) :
    (s.startWait n).resData = s.resData := rfl
@[simp] theorem State.startWait_fsm (s : State) (n : Nat) : (s.startWait n).fsm = s.fsm := rfl
@[simp] theorem State.startWait_curOp (s : State) (n : Nat) : (s.startWait n).curOp = s.curOp := rfl
@[simp] theorem State.startWait_curArg0 (s : State) (n : Nat) :
    (s.startWait n).curArg0 = s.curArg0 := rfl
@[simp] theorem State.startWait_curArg1 (s : State) (n : Nat) :
    (s.startWait n).curArg1 = s.curArg1 := rfl
@[simp] theorem State.startWait_curArg2 (s : State) (n : Nat) :
    (s.startWait n).curArg2 = s.curArg2 := rfl
@[simp] theorem State.startWait_curArg3 (s : State) (n : Nat) :
    (s.startWait n).curArg3 = s.curArg3 := rfl
@[simp] theorem State.startWait_shreg (s : State) (n : Nat) : (s.startWait n).shreg = s.shreg := rfl
@[simp] theorem State.startWait_bitcnt (s : State) (n : Nat) :
    (s.startWait n).bitcnt = s.bitcnt := rfl
@[simp] theorem State.startWait_sclkCnt (s : State) (n : Nat) :
    (s.startWait n).sclkCnt = s.sclkCnt := rfl
@[simp] theorem State.startWait_wdog (s : State) (n : Nat) : (s.startWait n).wdog = s.wdog := rfl
@[simp] theorem State.startWait_dcnt (s : State) (n : Nat) : (s.startWait n).dcnt = 0 := rfl
@[simp] theorem State.startWait_dtarget (s : State) (n : Nat) :
    (s.startWait n).dtarget = n * s.cfg.clkPerUs := rfl
@[simp] theorem State.startWait_drdyMeta (s : State) (n : Nat) :
    (s.startWait n).drdyMeta = s.drdyMeta := rfl
@[simp] theorem State.startWait_drdySync (s : State) (n : Nat) :
    (s.startWait n).drdySync = s.drdySync := rfl
@[simp] theorem State.startWait_doneR (s : State) (n : Nat) : (s.startWait n).doneR = s.doneR := rfl
@[simp] theorem State.startWait_txStartR (s : State) (n : Nat) :
    (s.startWait n).txStartR = s.txStartR := rfl
@[simp] theorem State.startWait_sclk (s : State) (n : Nat) : (s.startWait n).sclk = s.sclk := rfl
@[simp] theorem State.startWait_mosi (s : State) (n : Nat) : (s.startWait n).mosi = s.mosi := rfl
@[simp] theorem State.startWait_inp (s : State) (n : Nat) : (s.startWait n).inp = s.inp := rfl
@[simp] theorem State.startWait_tick (s : State) (n : Nat) : (s.startWait n).tick = s.tick := rfl
@[simp] theorem State.startWait_trace (s : State) (n : Nat) : (s.startWait n).trace = s.trace := rfl
@[simp] theorem State.startWait_results (s : State) (n : Nat) :
    (s.startWait n).results = s.results := rfl

/-! ## `State.waitUs` -/

@[simp] theorem State.waitUs_cfg (s : State) (n : Nat) : (s.waitUs n).cfg = s.cfg := rfl
@[simp] theorem State.waitUs_csActive (s : State) (n : Nat) :
    (s.waitUs n).csActive = s.csActive := rfl
@[simp] theorem State.waitUs_xferTimeouts (s : State) (n : Nat) :
    (s.waitUs n).xferTimeouts = s.xferTimeouts := rfl
@[simp] theorem State.waitUs_badOp (s : State) (n : Nat) : (s.waitUs n).badOp = s.badOp := rfl
@[simp] theorem State.waitUs_frameOwned (s : State) (n : Nat) :
    (s.waitUs n).frameOwned = s.frameOwned := rfl
@[simp] theorem State.waitUs_frame (s : State) (n : Nat) : (s.waitUs n).frame = s.frame := rfl
@[simp] theorem State.waitUs_resData (s : State) (n : Nat) : (s.waitUs n).resData = s.resData := rfl
@[simp] theorem State.waitUs_fsm (s : State) (n : Nat) : (s.waitUs n).fsm = s.fsm := rfl
@[simp] theorem State.waitUs_curOp (s : State) (n : Nat) : (s.waitUs n).curOp = s.curOp := rfl
@[simp] theorem State.waitUs_curArg0 (s : State) (n : Nat) : (s.waitUs n).curArg0 = s.curArg0 := rfl
@[simp] theorem State.waitUs_curArg1 (s : State) (n : Nat) : (s.waitUs n).curArg1 = s.curArg1 := rfl
@[simp] theorem State.waitUs_curArg2 (s : State) (n : Nat) : (s.waitUs n).curArg2 = s.curArg2 := rfl
@[simp] theorem State.waitUs_curArg3 (s : State) (n : Nat) : (s.waitUs n).curArg3 = s.curArg3 := rfl
@[simp] theorem State.waitUs_shreg (s : State) (n : Nat) : (s.waitUs n).shreg = s.shreg := rfl
@[simp] theorem State.waitUs_bitcnt (s : State) (n : Nat) : (s.waitUs n).bitcnt = s.bitcnt := rfl
@[simp] theorem State.waitUs_sclkCnt (s : State) (n : Nat) : (s.waitUs n).sclkCnt = s.sclkCnt := rfl
@[simp] theorem State.waitUs_wdog (s : State) (n : Nat) : (s.waitUs n).wdog = s.wdog := rfl
@[simp] theorem State.waitUs_dcnt (s : State) (n : Nat) :
    (s.waitUs n).dcnt = n * s.cfg.clkPerUs := rfl
@[simp] theorem State.waitUs_dtarget (s : State) (n : Nat) :
    (s.waitUs n).dtarget = n * s.cfg.clkPerUs := rfl
@[simp] theorem State.waitUs_drdyMeta (s : State) (n : Nat) :
    (s.waitUs n).drdyMeta = s.drdyMeta := rfl
@[simp] theorem State.waitUs_drdySync (s : State) (n : Nat) :
    (s.waitUs n).drdySync = s.drdySync := rfl
@[simp] theorem State.waitUs_doneR (s : State) (n : Nat) : (s.waitUs n).doneR = s.doneR := rfl
@[simp] theorem State.waitUs_txStartR (s : State) (n : Nat) :
    (s.waitUs n).txStartR = s.txStartR := rfl
@[simp] theorem State.waitUs_sclk (s : State) (n : Nat) : (s.waitUs n).sclk = s.sclk := rfl
@[simp] theorem State.waitUs_mosi (s : State) (n : Nat) : (s.waitUs n).mosi = s.mosi := rfl
@[simp] theorem State.waitUs_inp (s : State) (n : Nat) : (s.waitUs n).inp = s.inp := rfl
@[simp] theorem State.waitUs_tick (s : State) (n : Nat) : (s.waitUs n).tick = s.tick := rfl
@[simp] theorem State.waitUs_trace (s : State) (n : Nat) : (s.waitUs n).trace = s.trace := rfl
@[simp] theorem State.waitUs_results (s : State) (n : Nat) : (s.waitUs n).results = s.results := rfl

/-! ## `State.startXfer` -/

@[simp] theorem State.startXfer_cfg (s : State) (tx : Byte) : (s.startXfer tx).cfg = s.cfg := rfl
@[simp] theorem State.startXfer_csActive (s : State) (tx : Byte) :
    (s.startXfer tx).csActive = s.csActive := rfl
@[simp] theorem State.startXfer_xferTimeouts (s : State) (tx : Byte) :
    (s.startXfer tx).xferTimeouts = s.xferTimeouts := rfl
@[simp] theorem State.startXfer_badOp (s : State) (tx : Byte) :
    (s.startXfer tx).badOp = s.badOp := rfl
@[simp] theorem State.startXfer_frameOwned (s : State) (tx : Byte) :
    (s.startXfer tx).frameOwned = s.frameOwned := rfl
@[simp] theorem State.startXfer_frame (s : State) (tx : Byte) :
    (s.startXfer tx).frame = s.frame := rfl
@[simp] theorem State.startXfer_resData (s : State) (tx : Byte) :
    (s.startXfer tx).resData = s.resData := rfl
@[simp] theorem State.startXfer_fsm (s : State) (tx : Byte) : (s.startXfer tx).fsm = s.fsm := rfl
@[simp] theorem State.startXfer_curOp (s : State) (tx : Byte) :
    (s.startXfer tx).curOp = s.curOp := rfl
@[simp] theorem State.startXfer_curArg0 (s : State) (tx : Byte) :
    (s.startXfer tx).curArg0 = s.curArg0 := rfl
@[simp] theorem State.startXfer_curArg1 (s : State) (tx : Byte) :
    (s.startXfer tx).curArg1 = s.curArg1 := rfl
@[simp] theorem State.startXfer_curArg2 (s : State) (tx : Byte) :
    (s.startXfer tx).curArg2 = s.curArg2 := rfl
@[simp] theorem State.startXfer_curArg3 (s : State) (tx : Byte) :
    (s.startXfer tx).curArg3 = s.curArg3 := rfl
@[simp] theorem State.startXfer_shreg (s : State) (tx : Byte) : (s.startXfer tx).shreg = tx := rfl
@[simp] theorem State.startXfer_bitcnt (s : State) (tx : Byte) : (s.startXfer tx).bitcnt = 0 := rfl
@[simp] theorem State.startXfer_sclkCnt (s : State) (tx : Byte) :
    (s.startXfer tx).sclkCnt = 0 := rfl
@[simp] theorem State.startXfer_wdog (s : State) (tx : Byte) : (s.startXfer tx).wdog = 0 := rfl
@[simp] theorem State.startXfer_dcnt (s : State) (tx : Byte) : (s.startXfer tx).dcnt = s.dcnt := rfl
@[simp] theorem State.startXfer_dtarget (s : State) (tx : Byte) :
    (s.startXfer tx).dtarget = s.dtarget := rfl
@[simp] theorem State.startXfer_drdyMeta (s : State) (tx : Byte) :
    (s.startXfer tx).drdyMeta = s.drdyMeta := rfl
@[simp] theorem State.startXfer_drdySync (s : State) (tx : Byte) :
    (s.startXfer tx).drdySync = s.drdySync := rfl
@[simp] theorem State.startXfer_doneR (s : State) (tx : Byte) :
    (s.startXfer tx).doneR = s.doneR := rfl
@[simp] theorem State.startXfer_txStartR (s : State) (tx : Byte) :
    (s.startXfer tx).txStartR = s.txStartR := rfl
@[simp] theorem State.startXfer_sclk (s : State) (tx : Byte) : (s.startXfer tx).sclk = s.sclk := rfl
@[simp] theorem State.startXfer_mosi (s : State) (tx : Byte) :
    (s.startXfer tx).mosi = if s.cfg.spiCpha then false else tx.getLsbD 7 := rfl
@[simp] theorem State.startXfer_inp (s : State) (tx : Byte) : (s.startXfer tx).inp = s.inp := rfl
@[simp] theorem State.startXfer_tick (s : State) (tx : Byte) : (s.startXfer tx).tick = s.tick := rfl
@[simp] theorem State.startXfer_trace (s : State) (tx : Byte) :
    (s.startXfer tx).trace = s.trace := rfl
@[simp] theorem State.startXfer_results (s : State) (tx : Byte) :
    (s.startXfer tx).results = s.results := rfl

/-! ## `State.endXfer` -/

@[simp] theorem State.endXfer_cfg (s : State) (rx : Byte) : (s.endXfer rx).cfg = s.cfg := rfl
@[simp] theorem State.endXfer_csActive (s : State) (rx : Byte) :
    (s.endXfer rx).csActive = s.csActive := rfl
@[simp] theorem State.endXfer_xferTimeouts (s : State) (rx : Byte) :
    (s.endXfer rx).xferTimeouts = s.xferTimeouts := rfl
@[simp] theorem State.endXfer_badOp (s : State) (rx : Byte) : (s.endXfer rx).badOp = s.badOp := rfl
@[simp] theorem State.endXfer_frameOwned (s : State) (rx : Byte) :
    (s.endXfer rx).frameOwned = s.frameOwned := rfl
@[simp] theorem State.endXfer_frame (s : State) (rx : Byte) : (s.endXfer rx).frame = s.frame := rfl
@[simp] theorem State.endXfer_resData (s : State) (rx : Byte) :
    (s.endXfer rx).resData = s.resData := rfl
@[simp] theorem State.endXfer_fsm (s : State) (rx : Byte) : (s.endXfer rx).fsm = s.fsm := rfl
@[simp] theorem State.endXfer_curOp (s : State) (rx : Byte) : (s.endXfer rx).curOp = s.curOp := rfl
@[simp] theorem State.endXfer_curArg0 (s : State) (rx : Byte) :
    (s.endXfer rx).curArg0 = s.curArg0 := rfl
@[simp] theorem State.endXfer_curArg1 (s : State) (rx : Byte) :
    (s.endXfer rx).curArg1 = s.curArg1 := rfl
@[simp] theorem State.endXfer_curArg2 (s : State) (rx : Byte) :
    (s.endXfer rx).curArg2 = s.curArg2 := rfl
@[simp] theorem State.endXfer_curArg3 (s : State) (rx : Byte) :
    (s.endXfer rx).curArg3 = s.curArg3 := rfl
@[simp] theorem State.endXfer_shreg (s : State) (rx : Byte) : (s.endXfer rx).shreg = rx := rfl
@[simp] theorem State.endXfer_bitcnt (s : State) (rx : Byte) : (s.endXfer rx).bitcnt = 8 := rfl
@[simp] theorem State.endXfer_sclkCnt (s : State) (rx : Byte) : (s.endXfer rx).sclkCnt = 0 := rfl
@[simp] theorem State.endXfer_wdog (s : State) (rx : Byte) : (s.endXfer rx).wdog = s.wdog := rfl
@[simp] theorem State.endXfer_dcnt (s : State) (rx : Byte) : (s.endXfer rx).dcnt = s.dcnt := rfl
@[simp] theorem State.endXfer_dtarget (s : State) (rx : Byte) :
    (s.endXfer rx).dtarget = s.dtarget := rfl
@[simp] theorem State.endXfer_drdyMeta (s : State) (rx : Byte) :
    (s.endXfer rx).drdyMeta = s.drdyMeta := rfl
@[simp] theorem State.endXfer_drdySync (s : State) (rx : Byte) :
    (s.endXfer rx).drdySync = s.drdySync := rfl
@[simp] theorem State.endXfer_doneR (s : State) (rx : Byte) : (s.endXfer rx).doneR = s.doneR := rfl
@[simp] theorem State.endXfer_txStartR (s : State) (rx : Byte) :
    (s.endXfer rx).txStartR = s.txStartR := rfl
@[simp] theorem State.endXfer_sclk (s : State) (rx : Byte) :
    (s.endXfer rx).sclk = s.cfg.spiCpol := rfl
@[simp] theorem State.endXfer_mosi (s : State) (rx : Byte) : (s.endXfer rx).mosi = false := rfl
@[simp] theorem State.endXfer_inp (s : State) (rx : Byte) : (s.endXfer rx).inp = s.inp := rfl
@[simp] theorem State.endXfer_tick (s : State) (rx : Byte) : (s.endXfer rx).tick = s.tick := rfl
@[simp] theorem State.endXfer_trace (s : State) (rx : Byte) : (s.endXfer rx).trace = s.trace := rfl
@[simp] theorem State.endXfer_results (s : State) (rx : Byte) :
    (s.endXfer rx).results = s.results := rfl

/-! ## `State.abandonXfer` -/

@[simp] theorem State.abandonXfer_cfg (s : State) (p : StallPoint) :
    (s.abandonXfer p).cfg = s.cfg := rfl
@[simp] theorem State.abandonXfer_csActive (s : State) (p : StallPoint) :
    (s.abandonXfer p).csActive = s.csActive := rfl
@[simp] theorem State.abandonXfer_xferTimeouts (s : State) (p : StallPoint) :
    (s.abandonXfer p).xferTimeouts = s.xferTimeouts := rfl
@[simp] theorem State.abandonXfer_badOp (s : State) (p : StallPoint) :
    (s.abandonXfer p).badOp = s.badOp := rfl
@[simp] theorem State.abandonXfer_frameOwned (s : State) (p : StallPoint) :
    (s.abandonXfer p).frameOwned = s.frameOwned := rfl
@[simp] theorem State.abandonXfer_frame (s : State) (p : StallPoint) :
    (s.abandonXfer p).frame = s.frame := rfl
@[simp] theorem State.abandonXfer_resData (s : State) (p : StallPoint) :
    (s.abandonXfer p).resData = s.resData := rfl
@[simp] theorem State.abandonXfer_fsm (s : State) (p : StallPoint) :
    (s.abandonXfer p).fsm = s.fsm := rfl
@[simp] theorem State.abandonXfer_curOp (s : State) (p : StallPoint) :
    (s.abandonXfer p).curOp = s.curOp := rfl
@[simp] theorem State.abandonXfer_curArg0 (s : State) (p : StallPoint) :
    (s.abandonXfer p).curArg0 = s.curArg0 := rfl
@[simp] theorem State.abandonXfer_curArg1 (s : State) (p : StallPoint) :
    (s.abandonXfer p).curArg1 = s.curArg1 := rfl
@[simp] theorem State.abandonXfer_curArg2 (s : State) (p : StallPoint) :
    (s.abandonXfer p).curArg2 = s.curArg2 := rfl
@[simp] theorem State.abandonXfer_curArg3 (s : State) (p : StallPoint) :
    (s.abandonXfer p).curArg3 = s.curArg3 := rfl
@[simp] theorem State.abandonXfer_shreg (s : State) (p : StallPoint) :
    (s.abandonXfer p).shreg = p.byte := rfl
@[simp] theorem State.abandonXfer_bitcnt (s : State) (p : StallPoint) :
    (s.abandonXfer p).bitcnt = p.bits.val := rfl
@[simp] theorem State.abandonXfer_sclkCnt (s : State) (p : StallPoint) :
    (s.abandonXfer p).sclkCnt = p.cnt % (s.cfg.sclkDiv / 2) := rfl
@[simp] theorem State.abandonXfer_wdog (s : State) (p : StallPoint) :
    (s.abandonXfer p).wdog = s.wdog := rfl
@[simp] theorem State.abandonXfer_dcnt (s : State) (p : StallPoint) :
    (s.abandonXfer p).dcnt = s.dcnt := rfl
@[simp] theorem State.abandonXfer_dtarget (s : State) (p : StallPoint) :
    (s.abandonXfer p).dtarget = s.dtarget := rfl
@[simp] theorem State.abandonXfer_drdyMeta (s : State) (p : StallPoint) :
    (s.abandonXfer p).drdyMeta = s.drdyMeta := rfl
@[simp] theorem State.abandonXfer_drdySync (s : State) (p : StallPoint) :
    (s.abandonXfer p).drdySync = s.drdySync := rfl
@[simp] theorem State.abandonXfer_doneR (s : State) (p : StallPoint) :
    (s.abandonXfer p).doneR = s.doneR := rfl
@[simp] theorem State.abandonXfer_txStartR (s : State) (p : StallPoint) :
    (s.abandonXfer p).txStartR = s.txStartR := rfl
@[simp] theorem State.abandonXfer_sclk (s : State) (p : StallPoint) :
    (s.abandonXfer p).sclk = s.cfg.spiCpol := rfl
@[simp] theorem State.abandonXfer_mosi (s : State) (p : StallPoint) :
    (s.abandonXfer p).mosi = false := rfl
@[simp] theorem State.abandonXfer_inp (s : State) (p : StallPoint) :
    (s.abandonXfer p).inp = s.inp := rfl
@[simp] theorem State.abandonXfer_tick (s : State) (p : StallPoint) :
    (s.abandonXfer p).tick = s.tick := rfl
@[simp] theorem State.abandonXfer_trace (s : State) (p : StallPoint) :
    (s.abandonXfer p).trace = s.trace := rfl
@[simp] theorem State.abandonXfer_results (s : State) (p : StallPoint) :
    (s.abandonXfer p).results = s.results := rfl

/-! ## `State.handoff` -/

@[simp] theorem State.handoff_cfg (s : State) : (s.handoff).cfg = s.cfg := rfl
@[simp] theorem State.handoff_csActive (s : State) : (s.handoff).csActive = s.csActive := rfl
@[simp] theorem State.handoff_xferTimeouts (s : State) :
    (s.handoff).xferTimeouts = s.xferTimeouts := rfl
@[simp] theorem State.handoff_badOp (s : State) : (s.handoff).badOp = s.badOp := rfl
@[simp] theorem State.handoff_frameOwned (s : State) : (s.handoff).frameOwned = true := rfl
@[simp] theorem State.handoff_frame (s : State) : (s.handoff).frame = s.frame := rfl
@[simp] theorem State.handoff_resData (s : State) : (s.handoff).resData = s.resData := rfl
@[simp] theorem State.handoff_fsm (s : State) : (s.handoff).fsm = s.fsm := rfl
@[simp] theorem State.handoff_curOp (s : State) : (s.handoff).curOp = s.curOp := rfl
@[simp] theorem State.handoff_curArg0 (s : State) : (s.handoff).curArg0 = s.curArg0 := rfl
@[simp] theorem State.handoff_curArg1 (s : State) : (s.handoff).curArg1 = s.curArg1 := rfl
@[simp] theorem State.handoff_curArg2 (s : State) : (s.handoff).curArg2 = s.curArg2 := rfl
@[simp] theorem State.handoff_curArg3 (s : State) : (s.handoff).curArg3 = s.curArg3 := rfl
@[simp] theorem State.handoff_shreg (s : State) : (s.handoff).shreg = s.shreg := rfl
@[simp] theorem State.handoff_bitcnt (s : State) : (s.handoff).bitcnt = s.bitcnt := rfl
@[simp] theorem State.handoff_sclkCnt (s : State) : (s.handoff).sclkCnt = s.sclkCnt := rfl
@[simp] theorem State.handoff_wdog (s : State) : (s.handoff).wdog = s.wdog := rfl
@[simp] theorem State.handoff_dcnt (s : State) : (s.handoff).dcnt = s.dcnt := rfl
@[simp] theorem State.handoff_dtarget (s : State) : (s.handoff).dtarget = s.dtarget := rfl
@[simp] theorem State.handoff_drdyMeta (s : State) : (s.handoff).drdyMeta = s.drdyMeta := rfl
@[simp] theorem State.handoff_drdySync (s : State) : (s.handoff).drdySync = s.drdySync := rfl
@[simp] theorem State.handoff_doneR (s : State) : (s.handoff).doneR = s.doneR := rfl
@[simp] theorem State.handoff_txStartR (s : State) : (s.handoff).txStartR = true := rfl
@[simp] theorem State.handoff_sclk (s : State) : (s.handoff).sclk = s.sclk := rfl
@[simp] theorem State.handoff_mosi (s : State) : (s.handoff).mosi = s.mosi := rfl
@[simp] theorem State.handoff_inp (s : State) : (s.handoff).inp = s.inp := rfl
@[simp] theorem State.handoff_tick (s : State) : (s.handoff).tick = s.tick := rfl
@[simp] theorem State.handoff_trace (s : State) : (s.handoff).trace = s.trace := rfl
@[simp] theorem State.handoff_results (s : State) : (s.handoff).results = s.results := rfl

/-! ## `State.clearPulses` -/

@[simp] theorem State.clearPulses_cfg (s : State) : (s.clearPulses).cfg = s.cfg := rfl
@[simp] theorem State.clearPulses_csActive (s : State) :
    (s.clearPulses).csActive = s.csActive := rfl
@[simp] theorem State.clearPulses_xferTimeouts (s : State) :
    (s.clearPulses).xferTimeouts = s.xferTimeouts := rfl
@[simp] theorem State.clearPulses_badOp (s : State) : (s.clearPulses).badOp = s.badOp := rfl
@[simp] theorem State.clearPulses_frameOwned (s : State) :
    (s.clearPulses).frameOwned = s.frameOwned := rfl
@[simp] theorem State.clearPulses_frame (s : State) : (s.clearPulses).frame = s.frame := rfl
@[simp] theorem State.clearPulses_resData (s : State) : (s.clearPulses).resData = s.resData := rfl
@[simp] theorem State.clearPulses_fsm (s : State) : (s.clearPulses).fsm = s.fsm := rfl
@[simp] theorem State.clearPulses_curOp (s : State) : (s.clearPulses).curOp = s.curOp := rfl
@[simp] theorem State.clearPulses_curArg0 (s : State) : (s.clearPulses).curArg0 = s.curArg0 := rfl
@[simp] theorem State.clearPulses_curArg1 (s : State) : (s.clearPulses).curArg1 = s.curArg1 := rfl
@[simp] theorem State.clearPulses_curArg2 (s : State) : (s.clearPulses).curArg2 = s.curArg2 := rfl
@[simp] theorem State.clearPulses_curArg3 (s : State) : (s.clearPulses).curArg3 = s.curArg3 := rfl
@[simp] theorem State.clearPulses_shreg (s : State) : (s.clearPulses).shreg = s.shreg := rfl
@[simp] theorem State.clearPulses_bitcnt (s : State) : (s.clearPulses).bitcnt = s.bitcnt := rfl
@[simp] theorem State.clearPulses_sclkCnt (s : State) : (s.clearPulses).sclkCnt = s.sclkCnt := rfl
@[simp] theorem State.clearPulses_wdog (s : State) : (s.clearPulses).wdog = s.wdog := rfl
@[simp] theorem State.clearPulses_dcnt (s : State) : (s.clearPulses).dcnt = s.dcnt := rfl
@[simp] theorem State.clearPulses_dtarget (s : State) : (s.clearPulses).dtarget = s.dtarget := rfl
@[simp] theorem State.clearPulses_drdyMeta (s : State) :
    (s.clearPulses).drdyMeta = s.drdyMeta := rfl
@[simp] theorem State.clearPulses_drdySync (s : State) :
    (s.clearPulses).drdySync = s.drdySync := rfl
@[simp] theorem State.clearPulses_doneR (s : State) : (s.clearPulses).doneR = false := rfl
@[simp] theorem State.clearPulses_txStartR (s : State) : (s.clearPulses).txStartR = false := rfl
@[simp] theorem State.clearPulses_sclk (s : State) : (s.clearPulses).sclk = s.sclk := rfl
@[simp] theorem State.clearPulses_mosi (s : State) : (s.clearPulses).mosi = s.mosi := rfl
@[simp] theorem State.clearPulses_inp (s : State) : (s.clearPulses).inp = s.inp := rfl
@[simp] theorem State.clearPulses_tick (s : State) : (s.clearPulses).tick = s.tick := rfl
@[simp] theorem State.clearPulses_trace (s : State) : (s.clearPulses).trace = s.trace := rfl
@[simp] theorem State.clearPulses_results (s : State) : (s.clearPulses).results = s.results := rfl

/-! ## `State.syncEdge` -/

@[simp] theorem State.syncEdge_cfg (s : State) (d : Bool) : (s.syncEdge d).cfg = s.cfg := rfl
@[simp] theorem State.syncEdge_csActive (s : State) (d : Bool) :
    (s.syncEdge d).csActive = s.csActive := rfl
@[simp] theorem State.syncEdge_xferTimeouts (s : State) (d : Bool) :
    (s.syncEdge d).xferTimeouts = s.xferTimeouts := rfl
@[simp] theorem State.syncEdge_badOp (s : State) (d : Bool) : (s.syncEdge d).badOp = s.badOp := rfl
@[simp] theorem State.syncEdge_frameOwned (s : State) (d : Bool) :
    (s.syncEdge d).frameOwned = s.frameOwned := rfl
@[simp] theorem State.syncEdge_frame (s : State) (d : Bool) : (s.syncEdge d).frame = s.frame := rfl
@[simp] theorem State.syncEdge_resData (s : State) (d : Bool) :
    (s.syncEdge d).resData = s.resData := rfl
@[simp] theorem State.syncEdge_fsm (s : State) (d : Bool) : (s.syncEdge d).fsm = s.fsm := rfl
@[simp] theorem State.syncEdge_curOp (s : State) (d : Bool) : (s.syncEdge d).curOp = s.curOp := rfl
@[simp] theorem State.syncEdge_curArg0 (s : State) (d : Bool) :
    (s.syncEdge d).curArg0 = s.curArg0 := rfl
@[simp] theorem State.syncEdge_curArg1 (s : State) (d : Bool) :
    (s.syncEdge d).curArg1 = s.curArg1 := rfl
@[simp] theorem State.syncEdge_curArg2 (s : State) (d : Bool) :
    (s.syncEdge d).curArg2 = s.curArg2 := rfl
@[simp] theorem State.syncEdge_curArg3 (s : State) (d : Bool) :
    (s.syncEdge d).curArg3 = s.curArg3 := rfl
@[simp] theorem State.syncEdge_shreg (s : State) (d : Bool) : (s.syncEdge d).shreg = s.shreg := rfl
@[simp] theorem State.syncEdge_bitcnt (s : State) (d : Bool) :
    (s.syncEdge d).bitcnt = s.bitcnt := rfl
@[simp] theorem State.syncEdge_sclkCnt (s : State) (d : Bool) :
    (s.syncEdge d).sclkCnt = s.sclkCnt := rfl
@[simp] theorem State.syncEdge_wdog (s : State) (d : Bool) : (s.syncEdge d).wdog = s.wdog := rfl
@[simp] theorem State.syncEdge_dcnt (s : State) (d : Bool) : (s.syncEdge d).dcnt = s.dcnt := rfl
@[simp] theorem State.syncEdge_dtarget (s : State) (d : Bool) :
    (s.syncEdge d).dtarget = s.dtarget := rfl
@[simp] theorem State.syncEdge_drdyMeta (s : State) (d : Bool) : (s.syncEdge d).drdyMeta = d := rfl
@[simp] theorem State.syncEdge_drdySync (s : State) (d : Bool) :
    (s.syncEdge d).drdySync = s.drdyMeta := rfl
@[simp] theorem State.syncEdge_doneR (s : State) (d : Bool) : (s.syncEdge d).doneR = s.doneR := rfl
@[simp] theorem State.syncEdge_txStartR (s : State) (d : Bool) :
    (s.syncEdge d).txStartR = s.txStartR := rfl
@[simp] theorem State.syncEdge_sclk (s : State) (d : Bool) : (s.syncEdge d).sclk = s.sclk := rfl
@[simp] theorem State.syncEdge_mosi (s : State) (d : Bool) : (s.syncEdge d).mosi = s.mosi := rfl
@[simp] theorem State.syncEdge_inp (s : State) (d : Bool) : (s.syncEdge d).inp = s.inp := rfl
@[simp] theorem State.syncEdge_tick (s : State) (d : Bool) : (s.syncEdge d).tick = s.tick := rfl
@[simp] theorem State.syncEdge_trace (s : State) (d : Bool) : (s.syncEdge d).trace = s.trace := rfl
@[simp] theorem State.syncEdge_results (s : State) (d : Bool) :
    (s.syncEdge d).results = s.results := rfl

/-! ## `State.latch` -/

@[simp] theorem State.latch_cfg (s : State) (w : CmdWord) : (s.latch w).cfg = s.cfg := rfl
@[simp] theorem State.latch_csActive (s : State) (w : CmdWord) :
    (s.latch w).csActive = s.csActive := rfl
@[simp] theorem State.latch_xferTimeouts (s : State) (w : CmdWord) :
    (s.latch w).xferTimeouts = s.xferTimeouts := rfl
@[simp] theorem State.latch_badOp (s : State) (w : CmdWord) : (s.latch w).badOp = s.badOp := rfl
@[simp] theorem State.latch_frameOwned (s : State) (w : CmdWord) :
    (s.latch w).frameOwned = s.frameOwned := rfl
@[simp] theorem State.latch_frame (s : State) (w : CmdWord) : (s.latch w).frame = s.frame := rfl
@[simp] theorem State.latch_resData (s : State) (w : CmdWord) :
    (s.latch w).resData = s.resData := rfl
@[simp] theorem State.latch_fsm (s : State) (w : CmdWord) : (s.latch w).fsm = s.fsm := rfl
@[simp] theorem State.latch_curOp (s : State) (w : CmdWord) :
    (s.latch w).curOp = fieldOpCode w := rfl
@[simp] theorem State.latch_curArg0 (s : State) (w : CmdWord) :
    (s.latch w).curArg0 = fieldArg0 w := rfl
@[simp] theorem State.latch_curArg1 (s : State) (w : CmdWord) :
    (s.latch w).curArg1 = fieldArg1 w := rfl
@[simp] theorem State.latch_curArg2 (s : State) (w : CmdWord) :
    (s.latch w).curArg2 = fieldArg2 w := rfl
@[simp] theorem State.latch_curArg3 (s : State) (w : CmdWord) :
    (s.latch w).curArg3 = fieldArg3 w := rfl
@[simp] theorem State.latch_shreg (s : State) (w : CmdWord) : (s.latch w).shreg = s.shreg := rfl
@[simp] theorem State.latch_bitcnt (s : State) (w : CmdWord) : (s.latch w).bitcnt = s.bitcnt := rfl
@[simp] theorem State.latch_sclkCnt (s : State) (w : CmdWord) :
    (s.latch w).sclkCnt = s.sclkCnt := rfl
@[simp] theorem State.latch_wdog (s : State) (w : CmdWord) : (s.latch w).wdog = s.wdog := rfl
@[simp] theorem State.latch_dcnt (s : State) (w : CmdWord) : (s.latch w).dcnt = s.dcnt := rfl
@[simp] theorem State.latch_dtarget (s : State) (w : CmdWord) :
    (s.latch w).dtarget = s.dtarget := rfl
@[simp] theorem State.latch_drdyMeta (s : State) (w : CmdWord) :
    (s.latch w).drdyMeta = s.drdyMeta := rfl
@[simp] theorem State.latch_drdySync (s : State) (w : CmdWord) :
    (s.latch w).drdySync = s.drdySync := rfl
@[simp] theorem State.latch_doneR (s : State) (w : CmdWord) : (s.latch w).doneR = s.doneR := rfl
@[simp] theorem State.latch_txStartR (s : State) (w : CmdWord) :
    (s.latch w).txStartR = s.txStartR := rfl
@[simp] theorem State.latch_sclk (s : State) (w : CmdWord) : (s.latch w).sclk = s.sclk := rfl
@[simp] theorem State.latch_mosi (s : State) (w : CmdWord) : (s.latch w).mosi = s.mosi := rfl
@[simp] theorem State.latch_inp (s : State) (w : CmdWord) : (s.latch w).inp = s.inp := rfl
@[simp] theorem State.latch_tick (s : State) (w : CmdWord) : (s.latch w).tick = s.tick := rfl
@[simp] theorem State.latch_trace (s : State) (w : CmdWord) : (s.latch w).trace = s.trace := rfl
@[simp] theorem State.latch_results (s : State) (w : CmdWord) :
    (s.latch w).results = s.results := rfl

/-! ## `State.advance` -/

@[simp] theorem State.advance_cfg (s : State) (i : Inputs) : (s.advance i).cfg = s.cfg := rfl
@[simp] theorem State.advance_csActive (s : State) (i : Inputs) :
    (s.advance i).csActive = s.csActive := rfl
@[simp] theorem State.advance_xferTimeouts (s : State) (i : Inputs) :
    (s.advance i).xferTimeouts = s.xferTimeouts := rfl
@[simp] theorem State.advance_badOp (s : State) (i : Inputs) : (s.advance i).badOp = s.badOp := rfl
@[simp] theorem State.advance_frameOwned (s : State) (i : Inputs) :
    (s.advance i).frameOwned = s.frameOwned := rfl
@[simp] theorem State.advance_frame (s : State) (i : Inputs) : (s.advance i).frame = s.frame := rfl
@[simp] theorem State.advance_resData (s : State) (i : Inputs) :
    (s.advance i).resData = s.resData := rfl
@[simp] theorem State.advance_fsm (s : State) (i : Inputs) : (s.advance i).fsm = s.fsm := rfl
@[simp] theorem State.advance_curOp (s : State) (i : Inputs) : (s.advance i).curOp = s.curOp := rfl
@[simp] theorem State.advance_curArg0 (s : State) (i : Inputs) :
    (s.advance i).curArg0 = s.curArg0 := rfl
@[simp] theorem State.advance_curArg1 (s : State) (i : Inputs) :
    (s.advance i).curArg1 = s.curArg1 := rfl
@[simp] theorem State.advance_curArg2 (s : State) (i : Inputs) :
    (s.advance i).curArg2 = s.curArg2 := rfl
@[simp] theorem State.advance_curArg3 (s : State) (i : Inputs) :
    (s.advance i).curArg3 = s.curArg3 := rfl
@[simp] theorem State.advance_shreg (s : State) (i : Inputs) : (s.advance i).shreg = s.shreg := rfl
@[simp] theorem State.advance_bitcnt (s : State) (i : Inputs) :
    (s.advance i).bitcnt = s.bitcnt := rfl
@[simp] theorem State.advance_sclkCnt (s : State) (i : Inputs) :
    (s.advance i).sclkCnt = s.sclkCnt := rfl
@[simp] theorem State.advance_wdog (s : State) (i : Inputs) : (s.advance i).wdog = s.wdog := rfl
@[simp] theorem State.advance_dcnt (s : State) (i : Inputs) : (s.advance i).dcnt = s.dcnt := rfl
@[simp] theorem State.advance_dtarget (s : State) (i : Inputs) :
    (s.advance i).dtarget = s.dtarget := rfl
@[simp] theorem State.advance_drdyMeta (s : State) (i : Inputs) :
    (s.advance i).drdyMeta = s.drdyMeta := rfl
@[simp] theorem State.advance_drdySync (s : State) (i : Inputs) :
    (s.advance i).drdySync = s.drdySync := rfl
@[simp] theorem State.advance_doneR (s : State) (i : Inputs) : (s.advance i).doneR = s.doneR := rfl
@[simp] theorem State.advance_txStartR (s : State) (i : Inputs) :
    (s.advance i).txStartR = s.txStartR := rfl
@[simp] theorem State.advance_sclk (s : State) (i : Inputs) : (s.advance i).sclk = s.sclk := rfl
@[simp] theorem State.advance_mosi (s : State) (i : Inputs) : (s.advance i).mosi = s.mosi := rfl
@[simp] theorem State.advance_inp (s : State) (i : Inputs) : (s.advance i).inp = i := rfl
@[simp] theorem State.advance_tick (s : State) (i : Inputs) : (s.advance i).tick = s.tick + 1 := rfl
@[simp] theorem State.advance_trace (s : State) (i : Inputs) : (s.advance i).trace = s.trace := rfl
@[simp] theorem State.advance_results (s : State) (i : Inputs) :
    (s.advance i).results = s.results := rfl

/-! ## `State.countTimeout` -/

@[simp] theorem State.countTimeout_cfg (s : State) : (s.countTimeout).cfg = s.cfg := rfl
@[simp] theorem State.countTimeout_csActive (s : State) :
    (s.countTimeout).csActive = s.csActive := rfl
@[simp] theorem State.countTimeout_xferTimeouts (s : State) :
    (s.countTimeout).xferTimeouts = if s.xferTimeouts = 0xFFFF#16 then 0xFFFF#16 else s.xferTimeouts + 1#16 := rfl
@[simp] theorem State.countTimeout_badOp (s : State) : (s.countTimeout).badOp = s.badOp := rfl
@[simp] theorem State.countTimeout_frameOwned (s : State) :
    (s.countTimeout).frameOwned = s.frameOwned := rfl
@[simp] theorem State.countTimeout_frame (s : State) : (s.countTimeout).frame = s.frame := rfl
@[simp] theorem State.countTimeout_resData (s : State) : (s.countTimeout).resData = s.resData := rfl
@[simp] theorem State.countTimeout_fsm (s : State) : (s.countTimeout).fsm = s.fsm := rfl
@[simp] theorem State.countTimeout_curOp (s : State) : (s.countTimeout).curOp = s.curOp := rfl
@[simp] theorem State.countTimeout_curArg0 (s : State) : (s.countTimeout).curArg0 = s.curArg0 := rfl
@[simp] theorem State.countTimeout_curArg1 (s : State) : (s.countTimeout).curArg1 = s.curArg1 := rfl
@[simp] theorem State.countTimeout_curArg2 (s : State) : (s.countTimeout).curArg2 = s.curArg2 := rfl
@[simp] theorem State.countTimeout_curArg3 (s : State) : (s.countTimeout).curArg3 = s.curArg3 := rfl
@[simp] theorem State.countTimeout_shreg (s : State) : (s.countTimeout).shreg = s.shreg := rfl
@[simp] theorem State.countTimeout_bitcnt (s : State) : (s.countTimeout).bitcnt = s.bitcnt := rfl
@[simp] theorem State.countTimeout_sclkCnt (s : State) : (s.countTimeout).sclkCnt = s.sclkCnt := rfl
@[simp] theorem State.countTimeout_wdog (s : State) : (s.countTimeout).wdog = s.wdog := rfl
@[simp] theorem State.countTimeout_dcnt (s : State) : (s.countTimeout).dcnt = s.dcnt := rfl
@[simp] theorem State.countTimeout_dtarget (s : State) : (s.countTimeout).dtarget = s.dtarget := rfl
@[simp] theorem State.countTimeout_drdyMeta (s : State) :
    (s.countTimeout).drdyMeta = s.drdyMeta := rfl
@[simp] theorem State.countTimeout_drdySync (s : State) :
    (s.countTimeout).drdySync = s.drdySync := rfl
@[simp] theorem State.countTimeout_doneR (s : State) : (s.countTimeout).doneR = s.doneR := rfl
@[simp] theorem State.countTimeout_txStartR (s : State) :
    (s.countTimeout).txStartR = s.txStartR := rfl
@[simp] theorem State.countTimeout_sclk (s : State) : (s.countTimeout).sclk = s.sclk := rfl
@[simp] theorem State.countTimeout_mosi (s : State) : (s.countTimeout).mosi = s.mosi := rfl
@[simp] theorem State.countTimeout_inp (s : State) : (s.countTimeout).inp = s.inp := rfl
@[simp] theorem State.countTimeout_tick (s : State) : (s.countTimeout).tick = s.tick := rfl
@[simp] theorem State.countTimeout_trace (s : State) : (s.countTimeout).trace = s.trace := rfl
@[simp] theorem State.countTimeout_results (s : State) : (s.countTimeout).results = s.results := rfl

/-! ## `State.setBadOp` -/

@[simp] theorem State.setBadOp_cfg (s : State) : (s.setBadOp).cfg = s.cfg := rfl
@[simp] theorem State.setBadOp_csActive (s : State) : (s.setBadOp).csActive = s.csActive := rfl
@[simp] theorem State.setBadOp_xferTimeouts (s : State) :
    (s.setBadOp).xferTimeouts = s.xferTimeouts := rfl
@[simp] theorem State.setBadOp_badOp (s : State) : (s.setBadOp).badOp = true := rfl
@[simp] theorem State.setBadOp_frameOwned (s : State) :
    (s.setBadOp).frameOwned = s.frameOwned := rfl
@[simp] theorem State.setBadOp_frame (s : State) : (s.setBadOp).frame = s.frame := rfl
@[simp] theorem State.setBadOp_resData (s : State) : (s.setBadOp).resData = s.resData := rfl
@[simp] theorem State.setBadOp_fsm (s : State) : (s.setBadOp).fsm = s.fsm := rfl
@[simp] theorem State.setBadOp_curOp (s : State) : (s.setBadOp).curOp = s.curOp := rfl
@[simp] theorem State.setBadOp_curArg0 (s : State) : (s.setBadOp).curArg0 = s.curArg0 := rfl
@[simp] theorem State.setBadOp_curArg1 (s : State) : (s.setBadOp).curArg1 = s.curArg1 := rfl
@[simp] theorem State.setBadOp_curArg2 (s : State) : (s.setBadOp).curArg2 = s.curArg2 := rfl
@[simp] theorem State.setBadOp_curArg3 (s : State) : (s.setBadOp).curArg3 = s.curArg3 := rfl
@[simp] theorem State.setBadOp_shreg (s : State) : (s.setBadOp).shreg = s.shreg := rfl
@[simp] theorem State.setBadOp_bitcnt (s : State) : (s.setBadOp).bitcnt = s.bitcnt := rfl
@[simp] theorem State.setBadOp_sclkCnt (s : State) : (s.setBadOp).sclkCnt = s.sclkCnt := rfl
@[simp] theorem State.setBadOp_wdog (s : State) : (s.setBadOp).wdog = s.wdog := rfl
@[simp] theorem State.setBadOp_dcnt (s : State) : (s.setBadOp).dcnt = s.dcnt := rfl
@[simp] theorem State.setBadOp_dtarget (s : State) : (s.setBadOp).dtarget = s.dtarget := rfl
@[simp] theorem State.setBadOp_drdyMeta (s : State) : (s.setBadOp).drdyMeta = s.drdyMeta := rfl
@[simp] theorem State.setBadOp_drdySync (s : State) : (s.setBadOp).drdySync = s.drdySync := rfl
@[simp] theorem State.setBadOp_doneR (s : State) : (s.setBadOp).doneR = s.doneR := rfl
@[simp] theorem State.setBadOp_txStartR (s : State) : (s.setBadOp).txStartR = s.txStartR := rfl
@[simp] theorem State.setBadOp_sclk (s : State) : (s.setBadOp).sclk = s.sclk := rfl
@[simp] theorem State.setBadOp_mosi (s : State) : (s.setBadOp).mosi = s.mosi := rfl
@[simp] theorem State.setBadOp_inp (s : State) : (s.setBadOp).inp = s.inp := rfl
@[simp] theorem State.setBadOp_tick (s : State) : (s.setBadOp).tick = s.tick := rfl
@[simp] theorem State.setBadOp_trace (s : State) : (s.setBadOp).trace = s.trace := rfl
@[simp] theorem State.setBadOp_results (s : State) : (s.setBadOp).results = s.results := rfl

/-! ## `State.writeFrame` -/

@[simp] theorem State.writeFrame_cfg (s : State) (c1 c2 c3 c4 : Word32) :
    (s.writeFrame c1 c2 c3 c4).cfg = s.cfg := rfl
@[simp] theorem State.writeFrame_csActive (s : State) (c1 c2 c3 c4 : Word32) :
    (s.writeFrame c1 c2 c3 c4).csActive = s.csActive := rfl
@[simp] theorem State.writeFrame_xferTimeouts (s : State) (c1 c2 c3 c4 : Word32) :
    (s.writeFrame c1 c2 c3 c4).xferTimeouts = s.xferTimeouts := rfl
@[simp] theorem State.writeFrame_badOp (s : State) (c1 c2 c3 c4 : Word32) :
    (s.writeFrame c1 c2 c3 c4).badOp = s.badOp := rfl
@[simp] theorem State.writeFrame_frameOwned (s : State) (c1 c2 c3 c4 : Word32) :
    (s.writeFrame c1 c2 c3 c4).frameOwned = s.frameOwned := rfl
@[simp] theorem State.writeFrame_frame (s : State) (c1 c2 c3 c4 : Word32) :
    (s.writeFrame c1 c2 c3 c4).frame = Memory.writeAll s.frame (frameStores s.cfg.frameLsbDefect c1 c2 c3 c4) := rfl
@[simp] theorem State.writeFrame_resData (s : State) (c1 c2 c3 c4 : Word32) :
    (s.writeFrame c1 c2 c3 c4).resData = s.resData := rfl
@[simp] theorem State.writeFrame_fsm (s : State) (c1 c2 c3 c4 : Word32) :
    (s.writeFrame c1 c2 c3 c4).fsm = s.fsm := rfl
@[simp] theorem State.writeFrame_curOp (s : State) (c1 c2 c3 c4 : Word32) :
    (s.writeFrame c1 c2 c3 c4).curOp = s.curOp := rfl
@[simp] theorem State.writeFrame_curArg0 (s : State) (c1 c2 c3 c4 : Word32) :
    (s.writeFrame c1 c2 c3 c4).curArg0 = s.curArg0 := rfl
@[simp] theorem State.writeFrame_curArg1 (s : State) (c1 c2 c3 c4 : Word32) :
    (s.writeFrame c1 c2 c3 c4).curArg1 = s.curArg1 := rfl
@[simp] theorem State.writeFrame_curArg2 (s : State) (c1 c2 c3 c4 : Word32) :
    (s.writeFrame c1 c2 c3 c4).curArg2 = s.curArg2 := rfl
@[simp] theorem State.writeFrame_curArg3 (s : State) (c1 c2 c3 c4 : Word32) :
    (s.writeFrame c1 c2 c3 c4).curArg3 = s.curArg3 := rfl
@[simp] theorem State.writeFrame_shreg (s : State) (c1 c2 c3 c4 : Word32) :
    (s.writeFrame c1 c2 c3 c4).shreg = s.shreg := rfl
@[simp] theorem State.writeFrame_bitcnt (s : State) (c1 c2 c3 c4 : Word32) :
    (s.writeFrame c1 c2 c3 c4).bitcnt = s.bitcnt := rfl
@[simp] theorem State.writeFrame_sclkCnt (s : State) (c1 c2 c3 c4 : Word32) :
    (s.writeFrame c1 c2 c3 c4).sclkCnt = s.sclkCnt := rfl
@[simp] theorem State.writeFrame_wdog (s : State) (c1 c2 c3 c4 : Word32) :
    (s.writeFrame c1 c2 c3 c4).wdog = s.wdog := rfl
@[simp] theorem State.writeFrame_dcnt (s : State) (c1 c2 c3 c4 : Word32) :
    (s.writeFrame c1 c2 c3 c4).dcnt = s.dcnt := rfl
@[simp] theorem State.writeFrame_dtarget (s : State) (c1 c2 c3 c4 : Word32) :
    (s.writeFrame c1 c2 c3 c4).dtarget = s.dtarget := rfl
@[simp] theorem State.writeFrame_drdyMeta (s : State) (c1 c2 c3 c4 : Word32) :
    (s.writeFrame c1 c2 c3 c4).drdyMeta = s.drdyMeta := rfl
@[simp] theorem State.writeFrame_drdySync (s : State) (c1 c2 c3 c4 : Word32) :
    (s.writeFrame c1 c2 c3 c4).drdySync = s.drdySync := rfl
@[simp] theorem State.writeFrame_doneR (s : State) (c1 c2 c3 c4 : Word32) :
    (s.writeFrame c1 c2 c3 c4).doneR = s.doneR := rfl
@[simp] theorem State.writeFrame_txStartR (s : State) (c1 c2 c3 c4 : Word32) :
    (s.writeFrame c1 c2 c3 c4).txStartR = s.txStartR := rfl
@[simp] theorem State.writeFrame_sclk (s : State) (c1 c2 c3 c4 : Word32) :
    (s.writeFrame c1 c2 c3 c4).sclk = s.sclk := rfl
@[simp] theorem State.writeFrame_mosi (s : State) (c1 c2 c3 c4 : Word32) :
    (s.writeFrame c1 c2 c3 c4).mosi = s.mosi := rfl
@[simp] theorem State.writeFrame_inp (s : State) (c1 c2 c3 c4 : Word32) :
    (s.writeFrame c1 c2 c3 c4).inp = s.inp := rfl
@[simp] theorem State.writeFrame_tick (s : State) (c1 c2 c3 c4 : Word32) :
    (s.writeFrame c1 c2 c3 c4).tick = s.tick := rfl
@[simp] theorem State.writeFrame_trace (s : State) (c1 c2 c3 c4 : Word32) :
    (s.writeFrame c1 c2 c3 c4).trace = s.trace := rfl
@[simp] theorem State.writeFrame_results (s : State) (c1 c2 c3 c4 : Word32) :
    (s.writeFrame c1 c2 c3 c4).results = s.results := rfl

/-! ## `State.leadingEdge` -/

@[simp] theorem State.leadingEdge_cfg (s : State) (m : Bool) : (s.leadingEdge m).cfg = s.cfg := rfl
@[simp] theorem State.leadingEdge_csActive (s : State) (m : Bool) :
    (s.leadingEdge m).csActive = s.csActive := rfl
@[simp] theorem State.leadingEdge_xferTimeouts (s : State) (m : Bool) :
    (s.leadingEdge m).xferTimeouts = s.xferTimeouts := rfl
@[simp] theorem State.leadingEdge_badOp (s : State) (m : Bool) :
    (s.leadingEdge m).badOp = s.badOp := rfl
@[simp] theorem State.leadingEdge_frameOwned (s : State) (m : Bool) :
    (s.leadingEdge m).frameOwned = s.frameOwned := rfl
@[simp] theorem State.leadingEdge_frame (s : State) (m : Bool) :
    (s.leadingEdge m).frame = s.frame := rfl
@[simp] theorem State.leadingEdge_resData (s : State) (m : Bool) :
    (s.leadingEdge m).resData = s.resData := rfl
@[simp] theorem State.leadingEdge_fsm (s : State) (m : Bool) : (s.leadingEdge m).fsm = s.fsm := rfl
@[simp] theorem State.leadingEdge_curOp (s : State) (m : Bool) :
    (s.leadingEdge m).curOp = s.curOp := rfl
@[simp] theorem State.leadingEdge_curArg0 (s : State) (m : Bool) :
    (s.leadingEdge m).curArg0 = s.curArg0 := rfl
@[simp] theorem State.leadingEdge_curArg1 (s : State) (m : Bool) :
    (s.leadingEdge m).curArg1 = s.curArg1 := rfl
@[simp] theorem State.leadingEdge_curArg2 (s : State) (m : Bool) :
    (s.leadingEdge m).curArg2 = s.curArg2 := rfl
@[simp] theorem State.leadingEdge_curArg3 (s : State) (m : Bool) :
    (s.leadingEdge m).curArg3 = s.curArg3 := rfl
@[simp] theorem State.leadingEdge_shreg (s : State) (m : Bool) :
    (s.leadingEdge m).shreg = if s.cfg.spiCpha then s.shreg else shiftIn s.shreg m := rfl
@[simp] theorem State.leadingEdge_bitcnt (s : State) (m : Bool) :
    (s.leadingEdge m).bitcnt = (if s.cfg.spiCpha then s.bitcnt else s.bitcnt + 1) := rfl
@[simp] theorem State.leadingEdge_sclkCnt (s : State) (m : Bool) :
    (s.leadingEdge m).sclkCnt = 0 := rfl
@[simp] theorem State.leadingEdge_wdog (s : State) (m : Bool) :
    (s.leadingEdge m).wdog = s.wdog := rfl
@[simp] theorem State.leadingEdge_dcnt (s : State) (m : Bool) :
    (s.leadingEdge m).dcnt = s.dcnt := rfl
@[simp] theorem State.leadingEdge_dtarget (s : State) (m : Bool) :
    (s.leadingEdge m).dtarget = s.dtarget := rfl
@[simp] theorem State.leadingEdge_drdyMeta (s : State) (m : Bool) :
    (s.leadingEdge m).drdyMeta = s.drdyMeta := rfl
@[simp] theorem State.leadingEdge_drdySync (s : State) (m : Bool) :
    (s.leadingEdge m).drdySync = s.drdySync := rfl
@[simp] theorem State.leadingEdge_doneR (s : State) (m : Bool) :
    (s.leadingEdge m).doneR = s.doneR := rfl
@[simp] theorem State.leadingEdge_txStartR (s : State) (m : Bool) :
    (s.leadingEdge m).txStartR = s.txStartR := rfl
@[simp] theorem State.leadingEdge_sclk (s : State) (m : Bool) :
    (s.leadingEdge m).sclk = !s.cfg.spiCpol := rfl
@[simp] theorem State.leadingEdge_mosi (s : State) (m : Bool) :
    (s.leadingEdge m).mosi = if s.cfg.spiCpha then s.shreg.getLsbD 7 else s.mosi := rfl
@[simp] theorem State.leadingEdge_inp (s : State) (m : Bool) : (s.leadingEdge m).inp = s.inp := rfl
@[simp] theorem State.leadingEdge_tick (s : State) (m : Bool) :
    (s.leadingEdge m).tick = s.tick := rfl
@[simp] theorem State.leadingEdge_trace (s : State) (m : Bool) :
    (s.leadingEdge m).trace = s.trace := rfl
@[simp] theorem State.leadingEdge_results (s : State) (m : Bool) :
    (s.leadingEdge m).results = s.results := rfl

/-! ## `State.trailingEdge` -/

@[simp] theorem State.trailingEdge_cfg (s : State) (m : Bool) :
    (s.trailingEdge m).cfg = s.cfg := rfl
@[simp] theorem State.trailingEdge_csActive (s : State) (m : Bool) :
    (s.trailingEdge m).csActive = s.csActive := rfl
@[simp] theorem State.trailingEdge_xferTimeouts (s : State) (m : Bool) :
    (s.trailingEdge m).xferTimeouts = s.xferTimeouts := rfl
@[simp] theorem State.trailingEdge_badOp (s : State) (m : Bool) :
    (s.trailingEdge m).badOp = s.badOp := rfl
@[simp] theorem State.trailingEdge_frameOwned (s : State) (m : Bool) :
    (s.trailingEdge m).frameOwned = s.frameOwned := rfl
@[simp] theorem State.trailingEdge_frame (s : State) (m : Bool) :
    (s.trailingEdge m).frame = s.frame := rfl
@[simp] theorem State.trailingEdge_resData (s : State) (m : Bool) :
    (s.trailingEdge m).resData = s.resData := rfl
@[simp] theorem State.trailingEdge_fsm (s : State) (m : Bool) :
    (s.trailingEdge m).fsm = s.fsm := rfl
@[simp] theorem State.trailingEdge_curOp (s : State) (m : Bool) :
    (s.trailingEdge m).curOp = s.curOp := rfl
@[simp] theorem State.trailingEdge_curArg0 (s : State) (m : Bool) :
    (s.trailingEdge m).curArg0 = s.curArg0 := rfl
@[simp] theorem State.trailingEdge_curArg1 (s : State) (m : Bool) :
    (s.trailingEdge m).curArg1 = s.curArg1 := rfl
@[simp] theorem State.trailingEdge_curArg2 (s : State) (m : Bool) :
    (s.trailingEdge m).curArg2 = s.curArg2 := rfl
@[simp] theorem State.trailingEdge_curArg3 (s : State) (m : Bool) :
    (s.trailingEdge m).curArg3 = s.curArg3 := rfl
@[simp] theorem State.trailingEdge_shreg (s : State) (m : Bool) :
    (s.trailingEdge m).shreg = if s.cfg.spiCpha then shiftIn s.shreg m else s.shreg := rfl
@[simp] theorem State.trailingEdge_bitcnt (s : State) (m : Bool) :
    (s.trailingEdge m).bitcnt = (if s.cfg.spiCpha then s.bitcnt + 1 else s.bitcnt) := rfl
@[simp] theorem State.trailingEdge_sclkCnt (s : State) (m : Bool) :
    (s.trailingEdge m).sclkCnt = 0 := rfl
@[simp] theorem State.trailingEdge_wdog (s : State) (m : Bool) :
    (s.trailingEdge m).wdog = s.wdog := rfl
@[simp] theorem State.trailingEdge_dcnt (s : State) (m : Bool) :
    (s.trailingEdge m).dcnt = s.dcnt := rfl
@[simp] theorem State.trailingEdge_dtarget (s : State) (m : Bool) :
    (s.trailingEdge m).dtarget = s.dtarget := rfl
@[simp] theorem State.trailingEdge_drdyMeta (s : State) (m : Bool) :
    (s.trailingEdge m).drdyMeta = s.drdyMeta := rfl
@[simp] theorem State.trailingEdge_drdySync (s : State) (m : Bool) :
    (s.trailingEdge m).drdySync = s.drdySync := rfl
@[simp] theorem State.trailingEdge_doneR (s : State) (m : Bool) :
    (s.trailingEdge m).doneR = s.doneR := rfl
@[simp] theorem State.trailingEdge_txStartR (s : State) (m : Bool) :
    (s.trailingEdge m).txStartR = s.txStartR := rfl
@[simp] theorem State.trailingEdge_sclk (s : State) (m : Bool) :
    (s.trailingEdge m).sclk = s.cfg.spiCpol := rfl
@[simp] theorem State.trailingEdge_mosi (s : State) (m : Bool) :
    (s.trailingEdge m).mosi = if s.cfg.spiCpha then s.mosi else s.shreg.getLsbD 7 := rfl
@[simp] theorem State.trailingEdge_inp (s : State) (m : Bool) :
    (s.trailingEdge m).inp = s.inp := rfl
@[simp] theorem State.trailingEdge_tick (s : State) (m : Bool) :
    (s.trailingEdge m).tick = s.tick := rfl
@[simp] theorem State.trailingEdge_trace (s : State) (m : Bool) :
    (s.trailingEdge m).trace = s.trace := rfl
@[simp] theorem State.trailingEdge_results (s : State) (m : Bool) :
    (s.trailingEdge m).results = s.results := rfl

/-! ## `State.elapseXfer` -/

@[simp] theorem State.elapseXfer_cfg (s : State) (r : Xfer) : (s.elapseXfer r).cfg = s.cfg := by
  cases r <;> rfl
@[simp] theorem State.elapseXfer_csActive (s : State) (r : Xfer) : (s.elapseXfer r).csActive = s.csActive := by
  cases r <;> rfl
@[simp] theorem State.elapseXfer_xferTimeouts (s : State) (r : Xfer) : (s.elapseXfer r).xferTimeouts = s.xferTimeouts := by
  cases r <;> rfl
@[simp] theorem State.elapseXfer_badOp (s : State) (r : Xfer) : (s.elapseXfer r).badOp = s.badOp := by
  cases r <;> rfl
@[simp] theorem State.elapseXfer_frameOwned (s : State) (r : Xfer) : (s.elapseXfer r).frameOwned = s.frameOwned := by
  cases r <;> rfl
@[simp] theorem State.elapseXfer_frame (s : State) (r : Xfer) : (s.elapseXfer r).frame = s.frame := by
  cases r <;> rfl
@[simp] theorem State.elapseXfer_resData (s : State) (r : Xfer) : (s.elapseXfer r).resData = s.resData := by
  cases r <;> rfl
@[simp] theorem State.elapseXfer_fsm (s : State) (r : Xfer) : (s.elapseXfer r).fsm = s.fsm := by
  cases r <;> rfl
@[simp] theorem State.elapseXfer_curOp (s : State) (r : Xfer) : (s.elapseXfer r).curOp = s.curOp := by
  cases r <;> rfl
@[simp] theorem State.elapseXfer_curArg0 (s : State) (r : Xfer) : (s.elapseXfer r).curArg0 = s.curArg0 := by
  cases r <;> rfl
@[simp] theorem State.elapseXfer_curArg1 (s : State) (r : Xfer) : (s.elapseXfer r).curArg1 = s.curArg1 := by
  cases r <;> rfl
@[simp] theorem State.elapseXfer_curArg2 (s : State) (r : Xfer) : (s.elapseXfer r).curArg2 = s.curArg2 := by
  cases r <;> rfl
@[simp] theorem State.elapseXfer_curArg3 (s : State) (r : Xfer) : (s.elapseXfer r).curArg3 = s.curArg3 := by
  cases r <;> rfl
@[simp] theorem State.elapseXfer_shreg (s : State) (r : Xfer) : (s.elapseXfer r).shreg = s.shreg := by
  cases r <;> rfl
@[simp] theorem State.elapseXfer_bitcnt (s : State) (r : Xfer) : (s.elapseXfer r).bitcnt = s.bitcnt := by
  cases r <;> rfl
@[simp] theorem State.elapseXfer_sclkCnt (s : State) (r : Xfer) : (s.elapseXfer r).sclkCnt = s.sclkCnt := by
  cases r <;> rfl
theorem State.elapseXfer_wdog (s : State) (r : Xfer) :
    (s.elapseXfer r).wdog =
      match r with
      | .ok _ => 8 * s.cfg.sclkDiv
      | .timeout _ => s.cfg.xferTimeoutCycles := by
  cases r <;> rfl
@[simp] theorem State.elapseXfer_dcnt (s : State) (r : Xfer) : (s.elapseXfer r).dcnt = s.dcnt := by
  cases r <;> rfl
@[simp] theorem State.elapseXfer_dtarget (s : State) (r : Xfer) : (s.elapseXfer r).dtarget = s.dtarget := by
  cases r <;> rfl
@[simp] theorem State.elapseXfer_drdyMeta (s : State) (r : Xfer) : (s.elapseXfer r).drdyMeta = s.drdyMeta := by
  cases r <;> rfl
@[simp] theorem State.elapseXfer_drdySync (s : State) (r : Xfer) : (s.elapseXfer r).drdySync = s.drdySync := by
  cases r <;> rfl
@[simp] theorem State.elapseXfer_doneR (s : State) (r : Xfer) : (s.elapseXfer r).doneR = s.doneR := by
  cases r <;> rfl
@[simp] theorem State.elapseXfer_txStartR (s : State) (r : Xfer) : (s.elapseXfer r).txStartR = s.txStartR := by
  cases r <;> rfl
@[simp] theorem State.elapseXfer_sclk (s : State) (r : Xfer) : (s.elapseXfer r).sclk = s.sclk := by
  cases r <;> rfl
@[simp] theorem State.elapseXfer_mosi (s : State) (r : Xfer) : (s.elapseXfer r).mosi = s.mosi := by
  cases r <;> rfl
@[simp] theorem State.elapseXfer_inp (s : State) (r : Xfer) : (s.elapseXfer r).inp = s.inp := by
  cases r <;> rfl
@[simp] theorem State.elapseXfer_tick (s : State) (r : Xfer) : (s.elapseXfer r).tick = s.tick := by
  cases r <;> rfl
@[simp] theorem State.elapseXfer_trace (s : State) (r : Xfer) : (s.elapseXfer r).trace = s.trace := by
  cases r <;> rfl
@[simp] theorem State.elapseXfer_results (s : State) (r : Xfer) : (s.elapseXfer r).results = s.results := by
  cases r <;> rfl

/-! ## `State.txDoneEdge` -/

@[simp] theorem State.txDoneEdge_cfg (s : State) (o d : Bool) : (s.txDoneEdge o d).cfg = s.cfg := by
  cases o <;> cases d <;> rfl
@[simp] theorem State.txDoneEdge_csActive (s : State) (o d : Bool) : (s.txDoneEdge o d).csActive = s.csActive := by
  cases o <;> cases d <;> rfl
@[simp] theorem State.txDoneEdge_xferTimeouts (s : State) (o d : Bool) : (s.txDoneEdge o d).xferTimeouts = s.xferTimeouts := by
  cases o <;> cases d <;> rfl
@[simp] theorem State.txDoneEdge_badOp (s : State) (o d : Bool) : (s.txDoneEdge o d).badOp = s.badOp := by
  cases o <;> cases d <;> rfl
@[simp] theorem State.txDoneEdge_frameOwned (s : State) (o d : Bool) :
    (s.txDoneEdge o d).frameOwned = (s.frameOwned && !(o && d)) := by
  cases o <;> cases d <;> simp [State.txDoneEdge]
@[simp] theorem State.txDoneEdge_frame (s : State) (o d : Bool) : (s.txDoneEdge o d).frame = s.frame := by
  cases o <;> cases d <;> rfl
@[simp] theorem State.txDoneEdge_resData (s : State) (o d : Bool) : (s.txDoneEdge o d).resData = s.resData := by
  cases o <;> cases d <;> rfl
@[simp] theorem State.txDoneEdge_fsm (s : State) (o d : Bool) : (s.txDoneEdge o d).fsm = s.fsm := by
  cases o <;> cases d <;> rfl
@[simp] theorem State.txDoneEdge_curOp (s : State) (o d : Bool) : (s.txDoneEdge o d).curOp = s.curOp := by
  cases o <;> cases d <;> rfl
@[simp] theorem State.txDoneEdge_curArg0 (s : State) (o d : Bool) : (s.txDoneEdge o d).curArg0 = s.curArg0 := by
  cases o <;> cases d <;> rfl
@[simp] theorem State.txDoneEdge_curArg1 (s : State) (o d : Bool) : (s.txDoneEdge o d).curArg1 = s.curArg1 := by
  cases o <;> cases d <;> rfl
@[simp] theorem State.txDoneEdge_curArg2 (s : State) (o d : Bool) : (s.txDoneEdge o d).curArg2 = s.curArg2 := by
  cases o <;> cases d <;> rfl
@[simp] theorem State.txDoneEdge_curArg3 (s : State) (o d : Bool) : (s.txDoneEdge o d).curArg3 = s.curArg3 := by
  cases o <;> cases d <;> rfl
@[simp] theorem State.txDoneEdge_shreg (s : State) (o d : Bool) : (s.txDoneEdge o d).shreg = s.shreg := by
  cases o <;> cases d <;> rfl
@[simp] theorem State.txDoneEdge_bitcnt (s : State) (o d : Bool) : (s.txDoneEdge o d).bitcnt = s.bitcnt := by
  cases o <;> cases d <;> rfl
@[simp] theorem State.txDoneEdge_sclkCnt (s : State) (o d : Bool) : (s.txDoneEdge o d).sclkCnt = s.sclkCnt := by
  cases o <;> cases d <;> rfl
@[simp] theorem State.txDoneEdge_wdog (s : State) (o d : Bool) : (s.txDoneEdge o d).wdog = s.wdog := by
  cases o <;> cases d <;> rfl
@[simp] theorem State.txDoneEdge_dcnt (s : State) (o d : Bool) : (s.txDoneEdge o d).dcnt = s.dcnt := by
  cases o <;> cases d <;> rfl
@[simp] theorem State.txDoneEdge_dtarget (s : State) (o d : Bool) : (s.txDoneEdge o d).dtarget = s.dtarget := by
  cases o <;> cases d <;> rfl
@[simp] theorem State.txDoneEdge_drdyMeta (s : State) (o d : Bool) : (s.txDoneEdge o d).drdyMeta = s.drdyMeta := by
  cases o <;> cases d <;> rfl
@[simp] theorem State.txDoneEdge_drdySync (s : State) (o d : Bool) : (s.txDoneEdge o d).drdySync = s.drdySync := by
  cases o <;> cases d <;> rfl
@[simp] theorem State.txDoneEdge_doneR (s : State) (o d : Bool) : (s.txDoneEdge o d).doneR = s.doneR := by
  cases o <;> cases d <;> rfl
@[simp] theorem State.txDoneEdge_txStartR (s : State) (o d : Bool) : (s.txDoneEdge o d).txStartR = s.txStartR := by
  cases o <;> cases d <;> rfl
@[simp] theorem State.txDoneEdge_sclk (s : State) (o d : Bool) : (s.txDoneEdge o d).sclk = s.sclk := by
  cases o <;> cases d <;> rfl
@[simp] theorem State.txDoneEdge_mosi (s : State) (o d : Bool) : (s.txDoneEdge o d).mosi = s.mosi := by
  cases o <;> cases d <;> rfl
@[simp] theorem State.txDoneEdge_inp (s : State) (o d : Bool) : (s.txDoneEdge o d).inp = s.inp := by
  cases o <;> cases d <;> rfl
@[simp] theorem State.txDoneEdge_tick (s : State) (o d : Bool) : (s.txDoneEdge o d).tick = s.tick := by
  cases o <;> cases d <;> rfl
@[simp] theorem State.txDoneEdge_trace (s : State) (o d : Bool) : (s.txDoneEdge o d).trace = s.trace := by
  cases o <;> cases d <;> rfl
@[simp] theorem State.txDoneEdge_results (s : State) (o d : Bool) : (s.txDoneEdge o d).results = s.results := by
  cases o <;> cases d <;> rfl

/-! ## `State.resetEdge` (70_reset_and_hazards.md R250) -/

@[simp] theorem State.resetEdge_cfg (s : State) : s.resetEdge.cfg = s.cfg := rfl
@[simp] theorem State.resetEdge_csActive (s : State) : s.resetEdge.csActive = false := rfl
@[simp] theorem State.resetEdge_xferTimeouts (s : State) : s.resetEdge.xferTimeouts = 0#16 := rfl
@[simp] theorem State.resetEdge_badOp (s : State) : s.resetEdge.badOp = false := rfl
@[simp] theorem State.resetEdge_frameOwned (s : State) : s.resetEdge.frameOwned = false := rfl
@[simp] theorem State.resetEdge_frame (s : State) : s.resetEdge.frame = [] := rfl
@[simp] theorem State.resetEdge_resData (s : State) : s.resetEdge.resData = 0#32 := rfl
@[simp] theorem State.resetEdge_fsm (s : State) : s.resetEdge.fsm = .idle := rfl
@[simp] theorem State.resetEdge_curOp (s : State) : s.resetEdge.curOp = 0#4 := rfl
@[simp] theorem State.resetEdge_curArg0 (s : State) : s.resetEdge.curArg0 = 0#32 := rfl
@[simp] theorem State.resetEdge_curArg1 (s : State) : s.resetEdge.curArg1 = 0#32 := rfl
@[simp] theorem State.resetEdge_curArg2 (s : State) : s.resetEdge.curArg2 = 0#32 := rfl
@[simp] theorem State.resetEdge_curArg3 (s : State) : s.resetEdge.curArg3 = 0#32 := rfl
@[simp] theorem State.resetEdge_shreg (s : State) : s.resetEdge.shreg = 0#8 := rfl
@[simp] theorem State.resetEdge_bitcnt (s : State) : s.resetEdge.bitcnt = 0 := rfl
@[simp] theorem State.resetEdge_sclkCnt (s : State) : s.resetEdge.sclkCnt = 0 := rfl
@[simp] theorem State.resetEdge_wdog (s : State) : s.resetEdge.wdog = 0 := rfl
@[simp] theorem State.resetEdge_dcnt (s : State) : s.resetEdge.dcnt = 0 := rfl
@[simp] theorem State.resetEdge_dtarget (s : State) : s.resetEdge.dtarget = 0 := rfl
@[simp] theorem State.resetEdge_drdyMeta (s : State) : s.resetEdge.drdyMeta = true := rfl
@[simp] theorem State.resetEdge_drdySync (s : State) : s.resetEdge.drdySync = true := rfl
@[simp] theorem State.resetEdge_doneR (s : State) : s.resetEdge.doneR = false := rfl
@[simp] theorem State.resetEdge_txStartR (s : State) : s.resetEdge.txStartR = false := rfl
@[simp] theorem State.resetEdge_sclk (s : State) : s.resetEdge.sclk = s.cfg.spiCpol := rfl
@[simp] theorem State.resetEdge_mosi (s : State) : s.resetEdge.mosi = false := rfl
@[simp] theorem State.resetEdge_inp (s : State) : s.resetEdge.inp = s.inp := rfl
@[simp] theorem State.resetEdge_tick (s : State) : s.resetEdge.tick = s.tick := rfl
@[simp] theorem State.resetEdge_trace (s : State) : s.resetEdge.trace = s.trace := rfl
@[simp] theorem State.resetEdge_results (s : State) : s.resetEdge.results = s.results := rfl

end Sys2Proof.Machine
end

