-- ==== Sys2Proof/Laws/Ops.lean ====
section
/-! SUPPORT. One lemma for each shared operation that is not a plain record update: everything it can do.
Later proofs cite these instead of unfolding. -/

namespace Sys2Proof.Machine

/-! ## Outcomes -/

@[simp] theorem mapNext_next (f : State → State) (s : State) :
    mapNext f (.next s) = .next (f s) := rfl

@[simp] theorem nextOr_next (s t : State) : nextOr s (.next t) = t := rfl

/-- What a mapped outcome that is a next state comes from. -/
theorem mapNext_eq_next {f : State → State} {o : Outcome} {t : State}
    (h : mapNext f o = .next t) : ∃ u, o = .next u ∧ t = f u := by
  cases o with
  | next u => exact ⟨u, rfl, (Host.Outcome.next.inj h).symm⟩
  | fault r => cases h
  | refused r => cases h

/-! ## The command word -/

/-- The word is its fields (30_encoding.md R71). -/
@[simp] theorem packWord_fields (w : CmdWord) :
    packWord (fieldOpCode w) (fieldArg0 w) (fieldArg1 w) (fieldArg2 w) (fieldArg3 w) = w := by
  apply BitVec.eq_of_getLsbD_eq
  intro i hi
  simp only [packWord, fieldOpCode, fieldArg0, fieldArg1, fieldArg2, fieldArg3,
    BitVec.getLsbD_append, BitVec.getLsbD_extractLsb']
  by_cases h1 : i < 4
  · simp [h1]
  · by_cases h2 : i - 4 < 32
    · simp [h1, h2]; congr 1; omega
    · by_cases h3 : i - 4 - 32 < 32
      · simp [h1, h2, h3]; congr 1; omega
      · by_cases h4 : i - 4 - 32 - 32 < 32
        · simp [h1, h2, h3, h4]; congr 1; omega
        · have h5 : i - 4 - 32 - 32 - 32 < 32 := by omega
          simp [h1, h2, h3, h4, h5]; congr 1; omega

@[simp] theorem fieldOpCode_packWord (c : OpCode) (a0 a1 a2 a3 : Word32) :
    fieldOpCode (packWord c a0 a1 a2 a3) = c := by
  apply BitVec.eq_of_getLsbD_eq
  intro i hi
  simp only [fieldOpCode, packWord, BitVec.getLsbD_append, BitVec.getLsbD_extractLsb', hi,
    decide_true, Bool.true_and, if_true, Nat.zero_add]

@[simp] theorem fieldArg0_packWord (c : OpCode) (a0 a1 a2 a3 : Word32) :
    fieldArg0 (packWord c a0 a1 a2 a3) = a0 := by
  apply BitVec.eq_of_getLsbD_eq
  intro i hi
  have e1 : ¬ 4 + i < 4 := by omega
  have e2 : 4 + i - 4 = i := by omega
  simp only [fieldArg0, packWord, BitVec.getLsbD_append, BitVec.getLsbD_extractLsb', hi, e1, e2,
    decide_true, Bool.true_and, if_true, if_false]

@[simp] theorem fieldArg1_packWord (c : OpCode) (a0 a1 a2 a3 : Word32) :
    fieldArg1 (packWord c a0 a1 a2 a3) = a1 := by
  apply BitVec.eq_of_getLsbD_eq
  intro i hi
  have e1 : ¬ 36 + i < 4 := by omega
  have e2 : ¬ 36 + i - 4 < 32 := by omega
  have e4 : 36 + i - 4 - 32 = i := by omega
  simp only [fieldArg1, packWord, BitVec.getLsbD_append, BitVec.getLsbD_extractLsb', hi, e1, e2, e4,
    decide_true, Bool.true_and, if_true, if_false]

@[simp] theorem fieldArg2_packWord (c : OpCode) (a0 a1 a2 a3 : Word32) :
    fieldArg2 (packWord c a0 a1 a2 a3) = a2 := by
  apply BitVec.eq_of_getLsbD_eq
  intro i hi
  have e1 : ¬ 68 + i < 4 := by omega
  have e2 : ¬ 68 + i - 4 < 32 := by omega
  have e3 : ¬ 68 + i - 4 - 32 < 32 := by omega
  have e5 : 68 + i - 4 - 32 - 32 = i := by omega
  simp only [fieldArg2, packWord, BitVec.getLsbD_append, BitVec.getLsbD_extractLsb', hi, e1, e2, e3,
    e5, decide_true, Bool.true_and, if_true, if_false]

@[simp] theorem fieldArg3_packWord (c : OpCode) (a0 a1 a2 a3 : Word32) :
    fieldArg3 (packWord c a0 a1 a2 a3) = a3 := by
  apply BitVec.eq_of_getLsbD_eq
  intro i hi
  have e1 : ¬ 100 + i < 4 := by omega
  have e2 : ¬ 100 + i - 4 < 32 := by omega
  have e3 : ¬ 100 + i - 4 - 32 < 32 := by omega
  have e4 : ¬ 100 + i - 4 - 32 - 32 < 32 := by omega
  have e6 : 100 + i - 4 - 32 - 32 - 32 = i := by omega
  simp only [fieldArg3, packWord, BitVec.getLsbD_append, BitVec.getLsbD_extractLsb', hi, e1, e2, e3,
    e4, e6, decide_true, Bool.true_and, if_false]

/-- Decoding a packed word. -/
@[simp] theorem decodeWord_packWord (c : OpCode) (a0 a1 a2 a3 : Word32) :
    decodeWord (packWord c a0 a1 a2 a3) = decodeFields c a0 a1 a2 a3 := by
  simp [decodeWord]

/-! ## Accepting -/

/-- What starting an operation can do: nothing, start a transfer, or start a wait. -/
theorem State.startOp_cases (s : State) (w : CmdWord) :
    s.startOp w = s ∨ s.startOp w = s.startXfer (operandByte (fieldArg0 w)) ∨
      ∃ n, s.startOp w = s.startWait n := by
  unfold State.startOp
  split
  · exact .inr (.inl rfl)
  · exact .inr (.inr ⟨_, rfl⟩)
  · exact .inr (.inr ⟨_, rfl⟩)
  · exact .inl rfl
  · exact .inl rfl
  · exact .inl rfl
  · exact .inl rfl

@[simp] theorem State.accept_fsm (s : State) (w : CmdWord) :
    (s.accept w).fsm = acceptFsm (fieldOpCode w) (fieldArg0 w) s.frameOwned := rfl

@[simp] theorem State.accept_curOp (s : State) (w : CmdWord) :
    (s.accept w).curOp = fieldOpCode w := rfl

@[simp] theorem State.accept_curArg0 (s : State) (w : CmdWord) :
    (s.accept w).curArg0 = fieldArg0 w := rfl

@[simp] theorem State.accept_latchedWord (s : State) (w : CmdWord) :
    (s.accept w).latchedWord = w := packWord_fields w

/-- What accepting an operation leaves alone. -/
theorem State.accept_frame (s : State) (w : CmdWord) :
    (s.accept w).cfg = s.cfg ∧ (s.accept w).csActive = s.csActive ∧
    (s.accept w).xferTimeouts = s.xferTimeouts ∧ (s.accept w).badOp = s.badOp ∧
    (s.accept w).frameOwned = s.frameOwned ∧ (s.accept w).frame = s.frame ∧
    (s.accept w).resData = s.resData ∧ (s.accept w).drdyMeta = s.drdyMeta ∧
    (s.accept w).drdySync = s.drdySync ∧ (s.accept w).doneR = s.doneR ∧
    (s.accept w).txStartR = s.txStartR ∧ (s.accept w).sclk = s.sclk ∧
    (s.accept w).inp = s.inp ∧ (s.accept w).tick = s.tick ∧ (s.accept w).trace = s.trace ∧
    (s.accept w).results = s.results := by
  rcases State.startOp_cases s w with h | h | ⟨n, h⟩ <;> simp [State.accept, h]

/-- Where an accepted operation goes is never IDLE: it is in progress. -/
theorem acceptFsm_ne_idle (c : OpCode) (a0 : Word32) (o : Bool) : acceptFsm c a0 o ≠ .idle := by
  unfold acceptFsm
  split <;> (try split) <;> simp

/-! ## Completions -/

/-- The end of an exchange that received a byte. -/
theorem State.finishXfer_ok (s : State) (tx rx : Byte) :
    s.finishXfer tx (.ok rx) =
      ((s.endXfer rx).emit (.byte tx rx s.csActive)).complete (zextByte rx) := rfl

/-- The end of an exchange that timed out. -/
theorem State.finishXfer_timeout (s : State) (tx : Byte) (p : StallPoint) :
    s.finishXfer tx (.timeout p) =
      ((s.abandonXfer p).countTimeout.emit (.byteTimeout tx s.csActive)).complete
        (zextByte p.byte) := rfl

/-- Asserting chip select: the level is 1 afterwards, and one event where it was 0. -/
theorem State.assertSelect_eq (s : State) :
    s.assertSelect =
      { s with
        csActive := true
        trace := s.trace ++ (if s.csActive then [] else [.csAssert]) } := by
  cases h : s.csActive
  · simp [State.assertSelect, h, State.emit]
  · cases s; simp_all [State.assertSelect]

/-- Releasing chip select after its guard. -/
theorem State.releaseSelect_eq (s : State) :
    s.releaseSelect =
      { s with
        csActive := false
        trace := s.trace ++ (if s.csActive then [.guard 2, .csRelease] else [.guard 2]) } := by
  cases h : s.csActive
  · cases s; simp_all [State.releaseSelect, State.emit]
  · simp [State.releaseSelect, h, State.emit]

/-! ## One step -/

/-- Everything a step can do: reset, idle, run the presented operation, or retry the held one. -/
theorem runStep_cases {next : Inputs} {s t : State} (h : runStep next s = .next t) :
    (s.inp.rstN = false ∧ t = s.resetEdge.advance next) ∨
    (s.inp.rstN = true ∧ s.fsm = .idle ∧ s.inp.host = none ∧ t = s.waitEdge.advance next) ∨
    (s.inp.rstN = true ∧ s.fsm = .idle ∧ ∃ p u, s.inp.host = some p ∧
      exec (decodePresented p) (s.acceptEdge p) = .next u ∧ t = u.finishEdge.advance next) ∨
    (s.inp.rstN = true ∧ s.fsm ≠ .idle ∧ ∃ u, exec s.latchedInstr s.waitEdge = .next u ∧
      t = u.finishEdge.advance (heldOver s.inp next)) := by
  unfold runStep at h
  split at h
  · rename_i hr
    split at h
    · rename_i hf
      split at h
      · rename_i hh
        exact .inr (.inl ⟨hr, hf, hh, (Host.Outcome.next.inj h).symm⟩)
      · rename_i p hh
        obtain ⟨u, hu, rfl⟩ := mapNext_eq_next h
        exact .inr (.inr (.inl ⟨hr, hf, p, u, hh, hu, rfl⟩))
    all_goals
      rename_i hf
      obtain ⟨u, hu, rfl⟩ := mapNext_eq_next h
      exact .inr (.inr (.inr ⟨hr, by simp [hf], u, hu, rfl⟩))
  · rename_i hr
    exact .inl ⟨by simpa using hr, (Host.Outcome.next.inj h).symm⟩

end Sys2Proof.Machine
end

