-- ==== Sys2Proof/Laws/Exec.lean ====
section
/-! SUPPORT. Everything an operation can do, said once: `exec_cases` lists the next state of every
meaning, guards included, and `exec_next` says that there is one. -/

namespace Sys2Proof.Machine

/-- The next state of an operation, by what the operation is. -/
theorem exec_cases {i : Instr} {s t : State} (h : exec i s = .next t) :
    (i.opCode = 0x1#4 ∧ ∃ tx, t = s.exchange tx) ∨
    (∃ n, i = .delay n ∧ t = (s.waitUs n.toNat).finishDelay n) ∨
    (i = .csel true ∧ t = s.assertSelect.complete 0#32) ∨
    (i = .csel false ∧ t = (s.waitUs Config.guardUs).releaseSelect.complete 0#32) ∨
    (i = .rdyt ∧ t = (s.emit (.readySample s.readySample)).complete (zextBool s.readySample)) ∨
    (i = .rdyw ∧ s.readySample = true ∧ t = (s.emit (.readySample true)).complete 0#32) ∨
    (i = .rdyw ∧ s.readySample = false ∧ t = s.hold .rdyWait) ∨
    (∃ u, i = .sx24 u ∧ t = s.complete (sx24Value u)) ∨
    (∃ c1 c2 c3 c4, i = .frame c1 c2 c3 c4 ∧ s.frameOwned = false ∧
      t = (s.writeFrame c1 c2 c3 c4).handoff.emitHandoff.complete 0#32) ∨
    (∃ c1 c2 c3 c4, i = .frame c1 c2 c3 c4 ∧ s.frameOwned = true ∧ t = s.hold .frameWait) ∨
    (i = .stat ∧ t = s.complete s.statusWord) ∨
    (i.isReserved = true ∧ t = s.reservedOp) := by
  cases i with
  | xchg tx => exact .inl ⟨rfl, tx, (Host.Outcome.next.inj h).symm⟩
  | wreg a => exact .inl ⟨rfl, _, (Host.Outcome.next.inj h).symm⟩
  | rreg a => exact .inl ⟨rfl, _, (Host.Outcome.next.inj h).symm⟩
  | rdata => exact .inl ⟨rfl, _, (Host.Outcome.next.inj h).symm⟩
  | sync => exact .inl ⟨rfl, _, (Host.Outcome.next.inj h).symm⟩
  | wakeup => exact .inl ⟨rfl, _, (Host.Outcome.next.inj h).symm⟩
  | reset => exact .inl ⟨rfl, _, (Host.Outcome.next.inj h).symm⟩
  | delay n => exact .inr (.inl ⟨n, rfl, (Host.Outcome.next.inj h).symm⟩)
  | csel a =>
    cases a with
    | true => exact .inr (.inr (.inl ⟨rfl, (Host.Outcome.next.inj h).symm⟩))
    | false => exact .inr (.inr (.inr (.inl ⟨rfl, (Host.Outcome.next.inj h).symm⟩)))
  | rdyt =>
    exact .inr (.inr (.inr (.inr (.inl ⟨rfl, (Host.Outcome.next.inj h).symm⟩))))
  | rdyw =>
    simp only [exec, execRdyw] at h
    split at h
    · rename_i hr
      exact .inr (.inr (.inr (.inr (.inr (.inl ⟨rfl, hr, (Host.Outcome.next.inj h).symm⟩)))))
    · rename_i hr
      exact .inr (.inr (.inr (.inr (.inr (.inr (.inl
        ⟨rfl, by simpa using hr, (Host.Outcome.next.inj h).symm⟩))))))
  | sx24 u =>
    exact .inr (.inr (.inr (.inr (.inr (.inr (.inr (.inl
      ⟨u, rfl, (Host.Outcome.next.inj h).symm⟩)))))))
  | frame c1 c2 c3 c4 =>
    simp only [exec, execFrame] at h
    split at h
    · rename_i ho
      exact .inr (.inr (.inr (.inr (.inr (.inr (.inr (.inr (.inr (.inl
        ⟨c1, c2, c3, c4, rfl, ho, (Host.Outcome.next.inj h).symm⟩)))))))))
    · rename_i ho
      exact .inr (.inr (.inr (.inr (.inr (.inr (.inr (.inr (.inl
        ⟨c1, c2, c3, c4, rfl, by simpa using ho, (Host.Outcome.next.inj h).symm⟩))))))))
  | stat =>
    exact .inr (.inr (.inr (.inr (.inr (.inr (.inr (.inr (.inr (.inr (.inl
      ⟨rfl, (Host.Outcome.next.inj h).symm⟩))))))))))
  | reserved0 | reserved9 | reservedA | reservedB | reservedC | reservedD | reservedE | reservedF =>
    exact .inr (.inr (.inr (.inr (.inr (.inr (.inr (.inr (.inr (.inr (.inr
      ⟨rfl, (Host.Outcome.next.inj h).symm⟩))))))))))

/-! ## The code of a decoded instruction -/

/-- The code of the operation a code decodes to is that code. -/
theorem decodeFields_opCode (c : OpCode) (a0 a1 a2 a3 : Word32) :
    (decodeFields c a0 a1 a2 a3).opCode = c := by
  unfold decodeFields
  split <;> first | rfl | skip
  have := c.isLt
  simp_all only [← BitVec.toNat_inj, Instr.opCode]
  simp_all
  omega

/-- No command word of format H decodes to a client byte. -/
theorem decodeFields_isBus (c : OpCode) (a0 a1 a2 a3 : Word32) :
    (decodeFields c a0 a1 a2 a3).isBus = false := by
  unfold decodeFields
  split <;> rfl

@[simp] theorem decodeWord_opCode (w : CmdWord) : (decodeWord w).opCode = fieldOpCode w :=
  decodeFields_opCode _ _ _ _ _

@[simp] theorem decodeWord_isBus (w : CmdWord) : (decodeWord w).isBus = false :=
  decodeFields_isBus _ _ _ _ _

/-- An operation always has a next state. -/
theorem exec_next (i : Instr) (s : State) : ∃ t, exec i s = .next t := by
  cases i with
  | csel a => cases a <;> exact ⟨_, rfl⟩
  | rdyw =>
    by_cases hr : s.readySample = true
    · exact ⟨_, if_pos hr⟩
    · exact ⟨_, if_neg hr⟩
  | frame c1 c2 c3 c4 =>
    by_cases ho : s.frameOwned = true
    · exact ⟨_, if_pos ho⟩
    · exact ⟨_, if_neg ho⟩
  | _ => exact ⟨_, rfl⟩

end Sys2Proof.Machine
end

