-- ==== Sys2Proof/Laws/Clock.lean ====
section
/-! SUPPORT. Everything one clock edge can do, said once: the edge of a transfer, and the edge of each
state of the control machine. -/

namespace Sys2Proof.Machine

/-! ## The edge of a transfer -/

/-- What a working shifter can do on one edge: count, or one of the two SCLK edges. -/
theorem State.shifterEdge_cases (s : State) (miso : Bool) :
    (s.sclkCnt + 1 < s.cfg.sclkDiv / 2 ∧
      s.shifterEdge miso = { s with sclkCnt := s.sclkCnt + 1 }) ∨
    (s.cfg.sclkDiv / 2 ≤ s.sclkCnt + 1 ∧ s.sclk = s.cfg.spiCpol ∧
      s.shifterEdge miso = s.leadingEdge miso) ∨
    (s.cfg.sclkDiv / 2 ≤ s.sclkCnt + 1 ∧ s.sclk ≠ s.cfg.spiCpol ∧
      s.shifterEdge miso = s.trailingEdge miso) := by
  unfold State.shifterEdge
  split
  · exact .inl ⟨‹_›, rfl⟩
  · split
    · exact .inr (.inl ⟨by omega, ‹_›, rfl⟩)
    · exact .inr (.inr ⟨by omega, ‹_›, rfl⟩)

/-- A sample is counted only by the SCLK edge that takes it, one at a time, and only that edge shifts. -/
theorem State.transferEdge_sample (s : State) (miso stall : Bool) :
    ((s.transferEdge miso stall).bitcnt = s.bitcnt ∧
      (s.transferEdge miso stall).shreg = s.shreg) ∨
      (stall = false ∧ (s.transferEdge miso stall).bitcnt = s.bitcnt + 1 ∧
        (s.transferEdge miso stall).shreg = shiftIn s.shreg miso) := by
  cases stall with
  | true => exact .inl ⟨rfl, rfl⟩
  | false =>
    rcases s.shifterEdge_cases miso with ⟨-, h⟩ | ⟨-, -, h⟩ | ⟨-, -, h⟩ <;>
      cases hc : s.cfg.spiCpha <;>
      simp [State.transferEdge, h, State.leadingEdge, State.trailingEdge, hc]

/-- What an edge of a transfer leaves alone. -/
theorem State.transferEdge_frame (s : State) (miso stall : Bool) :
    (s.transferEdge miso stall).cfg = s.cfg ∧ (s.transferEdge miso stall).fsm = s.fsm ∧
    (s.transferEdge miso stall).curOp = s.curOp ∧
    (s.transferEdge miso stall).curArg0 = s.curArg0 ∧
    (s.transferEdge miso stall).csActive = s.csActive ∧
    (s.transferEdge miso stall).frame = s.frame ∧
    (s.transferEdge miso stall).frameOwned = s.frameOwned ∧
    (s.transferEdge miso stall).xferTimeouts = s.xferTimeouts ∧
    (s.transferEdge miso stall).trace = s.trace ∧
    (s.transferEdge miso stall).wdog = s.wdog + 1 := by
  cases stall with
  | true => exact ⟨rfl, rfl, rfl, rfl, rfl, rfl, rfl, rfl, rfl, rfl⟩
  | false =>
    rcases s.shifterEdge_cases miso with ⟨-, h⟩ | ⟨-, -, h⟩ | ⟨-, -, h⟩ <;>
      simp [State.transferEdge, h, State.leadingEdge, State.trailingEdge]

/-- The shifter does not look at the pulses. -/
theorem State.transferEdge_clearPulses (s : State) (miso stall : Bool) :
    s.clearPulses.transferEdge miso stall = (s.transferEdge miso stall).clearPulses := by
  cases stall with
  | true => rfl
  | false =>
    by_cases hc : s.sclkCnt + 1 < s.cfg.sclkDiv / 2 <;> by_cases hl : s.sclk = s.cfg.spiCpol <;>
      cases hp : s.cfg.spiCpha <;>
      simp [State.transferEdge, State.shifterEdge, hc, hl, hp, State.clearPulses,
        State.leadingEdge, State.trailingEdge]

/-- Everything an edge in XFER can do: complete with the byte received, be abandoned, or go on. -/
theorem State.xferEdge_cases (s : State) (miso stall : Bool) :
    let t := s.transferEdge miso stall
    (t.bitcnt = 8 ∧ (t.sclk = t.cfg.spiCpol ∨ t.wdogExpired = true) ∧
      s.xferEdge miso stall = t.finishXfer (operandByte t.curArg0) (.ok t.shreg)) ∨
    (t.bitcnt ≠ 8 ∧ t.wdogExpired = true ∧
      s.xferEdge miso stall = t.finishXfer (operandByte t.curArg0)
        (.timeout ⟨t.shreg, Fin.ofNat 8 t.bitcnt, t.sclkCnt⟩)) ∨
    (t.wdogExpired = false ∧ (t.bitcnt = 8 → t.sclk ≠ t.cfg.spiCpol) ∧
      s.xferEdge miso stall = t) := by
  intro t
  have e : s.xferEdge miso stall = _ := rfl
  unfold State.xferEdge at e
  by_cases h8 : t.bitcnt = 8
  · by_cases hd : t.sclk = t.cfg.spiCpol ∨ t.wdogExpired = true
    · exact .inl ⟨h8, hd, e.trans ((if_pos h8).trans (if_pos hd))⟩
    · exact .inr (.inr ⟨by simpa using fun h => hd (.inr h), fun _ h => hd (.inl h),
        e.trans ((if_pos h8).trans (if_neg hd))⟩)
  · by_cases hw : t.wdogExpired = true
    · exact .inr (.inl ⟨h8, hw, e.trans ((if_neg h8).trans (if_pos hw))⟩)
    · exact .inr (.inr ⟨by simpa using hw, fun h => absurd h h8,
        e.trans ((if_neg h8).trans (if_neg hw))⟩)

/-- With the eighth sample in at the watchdog limit, an edge in XFER completes the transfer
(60_exceptions.md R226). -/
theorem State.xferEdge_sample_wins {s : State} {miso stall : Bool}
    (h8 : (s.transferEdge miso stall).bitcnt = 8)
    (hw : s.cfg.xferTimeoutCycles ≤ (s.transferEdge miso stall).wdog) :
    s.xferEdge miso stall = (s.transferEdge miso stall).finishXfer (operandByte s.curArg0)
      (.ok (s.transferEdge miso stall).shreg) := by
  have hf := s.transferEdge_frame miso stall
  rcases s.xferEdge_cases miso stall with ⟨-, -, h⟩ | ⟨h, -, -⟩ | ⟨h, -, -⟩
  · rw [h, hf.2.2.2.1]
  · exact absurd h8 h
  · simp [State.wdogExpired, hf.1] at h; omega

/-! ## The edge of the control machine -/

/-- An edge with `rst_n = 1`: the operation in progress, then `tx_done`, then the synchronizer. -/
theorem Clock.edge_run {p : Pins} (h : p.rstN = true) (s : State) :
    Clock.edge p s =
      ((s.clearPulses.opEdge p).txDoneEdge s.frameOwned p.txDone).syncEdge p.drdyN := by
  simp [Clock.edge, h]

/-- An edge with `rst_n = 0`. -/
theorem Clock.edge_reset {p : Pins} (h : p.rstN = false) (s : State) :
    Clock.edge p s = s.resetEdge := by
  simp [Clock.edge, h]

end Sys2Proof.Machine
end

