-- ==== Sys2Proof/Laws/PerInstr.lean ====
section
/-! SUPPORT. Statements made for every instruction, one lemma per constructor (LAWS.json). -/

namespace Sys2Proof.Laws.PortCode

/-- The word HOST presents for an instruction carries the instruction's operation code
(30_encoding.md R71, R74: a client byte travels as an XCHG). -/
def Statement (i : Instr) : Prop := fieldOpCode (encode i).word = i.opCode

theorem xchg (tx : Byte) : Statement (.xchg tx) := Machine.fieldOpCode_packWord _ _ _ _ _
theorem delay (n : BitVec 16) : Statement (.delay n) := Machine.fieldOpCode_packWord _ _ _ _ _
theorem csel (a : Bool) : Statement (.csel a) := Machine.fieldOpCode_packWord _ _ _ _ _
theorem rdyt : Statement .rdyt := Machine.fieldOpCode_packWord _ _ _ _ _
theorem rdyw : Statement .rdyw := Machine.fieldOpCode_packWord _ _ _ _ _
theorem sx24 (u : U24) : Statement (.sx24 u) := Machine.fieldOpCode_packWord _ _ _ _ _
theorem frame (ch1 ch2 ch3 ch4 : Word32) : Statement (.frame ch1 ch2 ch3 ch4) :=
  Machine.fieldOpCode_packWord _ _ _ _ _
theorem stat : Statement .stat := Machine.fieldOpCode_packWord _ _ _ _ _
theorem reserved0 : Statement .reserved0 := Machine.fieldOpCode_packWord _ _ _ _ _
theorem reserved9 : Statement .reserved9 := Machine.fieldOpCode_packWord _ _ _ _ _
theorem reservedA : Statement .reservedA := Machine.fieldOpCode_packWord _ _ _ _ _
theorem reservedB : Statement .reservedB := Machine.fieldOpCode_packWord _ _ _ _ _
theorem reservedC : Statement .reservedC := Machine.fieldOpCode_packWord _ _ _ _ _
theorem reservedD : Statement .reservedD := Machine.fieldOpCode_packWord _ _ _ _ _
theorem reservedE : Statement .reservedE := Machine.fieldOpCode_packWord _ _ _ _ _
theorem reservedF : Statement .reservedF := Machine.fieldOpCode_packWord _ _ _ _ _
theorem wreg (addr : BitVec 4) : Statement (.wreg addr) := Machine.fieldOpCode_packWord _ _ _ _ _
theorem rreg (start : BitVec 4) : Statement (.rreg start) := Machine.fieldOpCode_packWord _ _ _ _ _
theorem rdata : Statement .rdata := Machine.fieldOpCode_packWord _ _ _ _ _
theorem sync : Statement .sync := Machine.fieldOpCode_packWord _ _ _ _ _
theorem wakeup : Statement .wakeup := Machine.fieldOpCode_packWord _ _ _ _ _
theorem reset : Statement .reset := Machine.fieldOpCode_packWord _ _ _ _ _

end Sys2Proof.Laws.PortCode
end

