-- ==== Sys2Proof/Tests/Slice0.lean ====
section
/-! SUPPORT. The model's own tests. Expected results are the worked examples and derived vectors of
95_test_vectors.md and the examples of the rules named. -/

namespace Sys2Proof.Tests
open Sys2Proof Sys2Proof.Machine

/-! ## Small states -/

/-- Reset, with CONV ready for at least two cycles. -/
def ready : State :=
  { State.reset with
    drdyMeta := false, drdySync := false, inp := { Inputs.quiet with drdyN := false } }

/-- `s` with CONV driving `rx` in the next transfer. -/
def driving (rx : Byte) (s : State) : State := { s with inp := { s.inp with misoByte := rx } }

/-- `s` with the shifter failing in the next transfer. -/
def failing (s : State) : State := { s with inp := { s.inp with xferStall := true } }

/-- Defect mode. -/
def defect (s : State) : State := { s with cfg := { s.cfg with frameLsbDefect := true } }

/-- `SPI_CPHA = 0`. -/
def phase0 (s : State) : State := { s with cfg := { s.cfg with spiCpha := false } }

/-- TXC owns the frame. -/
def owned (s : State) : State := { s with frameOwned := true }

/-- Chip select asserted. -/
def selected (s : State) : State := { s with csActive := true }

/-- The state after one step on a command word. -/
def after (s : State) (w : Nat) : State := nextOr s (step (s.withFetchWord 132 w))

/-- The state after one operation. -/
def ran (s : State) (i : Instr) : State := nextOr s (exec i s)

/-! ## WellFormed -/

theorem test_wreg_address_4_is_well_formed : Instr.wellFormed (.wreg 4#4) = true := by decide
theorem test_wreg_address_5_is_refused : Instr.wellFormed (.wreg 5#4) = false := by decide
theorem test_rreg_start_0_is_well_formed : Instr.wellFormed (.rreg 0#4) = true := by decide
theorem test_rreg_start_1_is_refused : Instr.wellFormed (.rreg 1#4) = false := by decide

/-! ## Decoding words written out from 30_encoding.md R71, R72 and 42_bus_commands.md R142 to R146 -/

/-- L2.1: `op_arg0 = 0x101`, the bits above the byte are ignored. -/
theorem test_decode_xchg :
    decodeTableWord 132 0x000000000000000000000000000001011 = some (.xchg 0x01#8) := by decide
/-- L2.2: bit 16 of the operand is ignored. -/
theorem test_decode_delay :
    decodeTableWord 132 0x000000000000000000000000000100052 = some (.delay 5#16) := by decide
/-- L2.3: `op_arg0 = 2` has bit 0 clear. -/
theorem test_decode_csel :
    decodeTableWord 132 0x000000000000000000000000000000013 = some (.csel true) ∧
    decodeTableWord 132 0x000000000000000000000000000000023 = some (.csel false) := by decide
theorem test_decode_rdyt :
    decodeTableWord 132 0x000000000000000000000000000000004 = some .rdyt := by decide
theorem test_decode_rdyw :
    decodeTableWord 132 0x000000000000000000000000000000005 = some .rdyw := by decide
/-- L2.5: bits 31 to 24 of the operand are ignored. -/
theorem test_decode_sx24 :
    decodeTableWord 132 0x000000000000000000000000FF0000016 = some (.sx24 0x000001#24) := by decide
/-- L2.6, second row: the four operands in their places. -/
theorem test_decode_frame :
    decodeTableWord 132 0x7FFFFFFF80000000FFFFFFFE000000017 =
      some (.frame 1#32 0xFFFFFFFE#32 0x80000000#32 0x7FFFFFFF#32) := by decide
theorem test_decode_stat :
    decodeTableWord 132 0x000000000000000000000000000000008 = some .stat := by decide
theorem test_decode_reserved0 :
    decodeTableWord 132 0x000000000000000000000000000000000 = some .reserved0 := by decide
theorem test_decode_reserved9 :
    decodeTableWord 132 0x000000000000000000000000000000009 = some .reserved9 := by decide
theorem test_decode_reservedA :
    decodeTableWord 132 0x00000000000000000000000000000000A = some .reservedA := by decide
theorem test_decode_reservedB :
    decodeTableWord 132 0x00000000000000000000000000000000B = some .reservedB := by decide
theorem test_decode_reservedC :
    decodeTableWord 132 0x00000000000000000000000000000000C = some .reservedC := by decide
theorem test_decode_reservedD :
    decodeTableWord 132 0x00000000000000000000000000000000D = some .reservedD := by decide
theorem test_decode_reservedE :
    decodeTableWord 132 0x00000000000000000000000000000000E = some .reservedE := by decide
/-- L2.8: nonzero operands of a reserved code are ignored. -/
theorem test_decode_reservedF :
    decodeTableWord 132 0xFFFFFFFFFFFFFFFFFFFFFFFFFFFFFFFFF = some .reservedF := by decide
/-- R142: `0101aaaa`. -/
theorem test_decode_wreg : decodeTableWord 8 0x51 = some (.wreg 1#4) := by decide
/-- R143: `0001aaaa`. -/
theorem test_decode_rreg : decodeTableWord 8 0x10 = some (.rreg 0#4) := by decide
theorem test_decode_rdata : decodeTableWord 8 0x01 = some .rdata := by decide
theorem test_decode_sync : decodeTableWord 8 0xFC = some .sync := by decide
theorem test_decode_wakeup : decodeTableWord 8 0xFF = some .wakeup := by decide
theorem test_decode_reset : decodeTableWord 8 0xFE = some .reset := by decide

/-- R147: any other byte is rejected by name. -/
theorem test_decode_bus_rejects_by_name :
    (match decodeBus 0x60#8 with
      | .ok _ => none
      | .error e => some e) = some (.notACommandByte 0x60#8) := by decide
/-- A number that does not fit a command word has no instruction. -/
theorem test_decode_too_wide : decodeTableWord 132 (2 ^ 132) = none := by decide

/-! ## One step per operation -/

/-- L2.1, row 1. -/
theorem test_xchg_result_and_event :
    (after (driving 0x3C#8 (selected State.reset)) 0x011).resData = 0x3C#32 ∧
    (after (driving 0x3C#8 (selected State.reset)) 0x011).trace =
      [.byte 0x01#8 0x3C#8 true] := by decide
/-- L2.1, last two rows. -/
theorem test_xchg_timeout_counts_and_saturates :
    (after (failing State.reset) 0xAA1).xferTimeouts = 1#16 ∧
    (after (failing State.reset) 0xAA1).trace = [.byteTimeout 0xAA#8 false] ∧
    (after (failing { State.reset with xferTimeouts := 0xFFFF#16 }) 0xAA1).xferTimeouts =
      0xFFFF#16 := by decide
/-- L2.2, DELAY 65535. -/
theorem test_delay_event :
    (after State.reset 0xFFFF2).trace = [.delay 65535] ∧
    (after State.reset 0xFFFF2).resData = 0#32 := by decide
/-- L2.3, rows 1 and 2. -/
theorem test_csel_assert :
    (after State.reset 0x13).trace = [.csAssert] ∧ (after State.reset 0x13).csN = false ∧
    (after (selected State.reset) 0x13).trace = [] := by decide
/-- L2.3, rows 3 and 4. -/
theorem test_csel_release :
    (after (selected State.reset) 0x03).trace = [.guard 2, .csRelease] ∧
    (after (selected State.reset) 0x03).csN = true ∧
    (after State.reset 0x03).trace = [.guard 2] := by decide
/-- L2.4, rows 1 and 2. -/
theorem test_rdyt :
    (after ready 0x4).resData = 1#32 ∧ (after ready 0x4).trace = [.readySample true] ∧
    (after State.reset 0x4).resData = 0#32 ∧
    (after State.reset 0x4).trace = [.readySample false] := by decide
/-- L2.4, RDYW ready. -/
theorem test_rdyw_completes :
    (after ready 0x5).doneR = true ∧ (after ready 0x5).trace = [.readySample true] := by decide
/-- L2.4, RDYW not ready. -/
theorem test_rdyw_holds :
    (after State.reset 0x5).fsm = .rdyWait ∧ (after State.reset 0x5).doneR = false ∧
    (after State.reset 0x5).trace = [] := by decide
/-- L2.5 and E10. -/
theorem test_sx24 :
    (after State.reset 0x7FFFFF6).resData = 0x007FFFFF#32 ∧
    (after State.reset 0x8000006).resData = 0xFF800000#32 ∧
    (after State.reset 0xABCDEF6).resData = 0xFFABCDEF#32 ∧
    (after State.reset 0xFFFFFE6).resData = 0xFFFFFFFE#32 := by decide
/-- L2.6, first row, fixed mode. -/
theorem test_frame_fixed :
    Memory.bytes (after State.reset 0xFF800000007FFFFFFFFFFFFF123456787).frame =
      [0xAA#8, 0xBB#8, 0x01#8, 0x12#8, 0x34#8, 0x56#8, 0x78#8, 0x02#8, 0xFF#8, 0xFF#8, 0xFF#8,
        0xFF#8, 0x03#8, 0x00#8, 0x7F#8, 0xFF#8, 0xFF#8, 0x04#8, 0xFF#8, 0x80#8, 0x00#8, 0x00#8,
        0xCC#8, 0xDD#8] := by decide
/-- L2.6, fourth row, defect mode, and the hand-off. -/
theorem test_frame_defect :
    (after (defect State.reset) 0x7FFFFFFF80000000FFFFFFFE000000017).trace =
      [.handoff [0xAA#8, 0xBB#8, 0x01#8, 0x00#8, 0x00#8, 0x01#8, 0x00#8, 0x02#8, 0xFF#8, 0xFF#8,
        0xFE#8, 0x00#8, 0x03#8, 0x80#8, 0x00#8, 0x00#8, 0x00#8, 0x04#8, 0x7F#8, 0xFF#8, 0xFF#8,
        0x00#8, 0xCC#8, 0xDD#8]] ∧
    (after (defect State.reset) 0x7FFFFFFF80000000FFFFFFFE000000017).txStart = true := by decide
/-- L2.6, hold vectors: FRAME while owned. -/
theorem test_frame_holds :
    (after (owned State.reset) 0x7).fsm = .frameWait ∧
    (after (owned State.reset) 0x7).frame = [] := by decide
/-- L2.6, read port: addresses 3, 23, 24 and 31. -/
theorem test_read_port :
    let m := (after State.reset 0xFF800000007FFFFFFFFFFFFF123456787).frame
    Memory.readPort m 3#5 = 0x12#8 ∧ Memory.readPort m 23#5 = 0xDD#8 ∧
    Memory.readPort m 24#5 = 0x00#8 ∧ Memory.readPort m 31#5 = 0x00#8 := by decide
/-- L2.7, rows 2, 4, 6 and the last. -/
theorem test_stat :
    (after ready 0x8).resData = 0x00080000#32 ∧
    (after (owned State.reset) 0x8).resData = 0x00020000#32 ∧
    (after (selected ready) 0x8).resData = 0x000C0000#32 ∧
    (after (selected (owned (defect { ready with xferTimeouts := 0xFFFF#16, badOp := true }))) 0x8).resData
      = 0x001FFFFF#32 := by decide
/-- L2.8: every reserved code. -/
theorem test_reserved_codes :
    ∀ c ∈ [0x0, 0x9, 0xA, 0xB, 0xC, 0xD, 0xE, 0xF],
      (after State.reset c).badOp = true ∧ (after State.reset c).resData = 0#32 ∧
      (after State.reset c).doneR = true := by decide
/-- The model reading of R222 stops there. -/
theorem test_strict_reserved : blockOutcome .reserved9 State.reset = .fault .badOp := by decide
/-- E7, L2.9: each command byte goes out as it is. -/
theorem test_bus_commands_send_their_byte :
    ∀ c ∈ [(0x53, 0x53#8), (0x10, 0x10#8), (0x01, 0x01#8), (0xFC, 0xFC#8), (0xFF, 0xFF#8),
        (0xFE, 0xFE#8)],
      (nextOr State.reset (step (State.reset.withFetchWord 8 c.1))).trace =
        [.byte c.2 0x00#8 false] := by decide

/-! ## The assembler (30_encoding.md R80, R81) -/

def params : ClientParams := ⟨0x00#8, 4#16, 10#16⟩

/-- A hexadecimal operand, a comment. -/
theorem test_asm_line :
    Asm.line params "SX24 0xFFFFFE ; minus two".toList = some [.op (.sx24 0xFFFFFE#24)] := by decide
/-- A FRAME with a signed and a hexadecimal value. -/
theorem test_asm_frame :
    Asm.line params "FRAME 0x12345678, -1, 0x007FFFFF, -8388608".toList =
      some [.op (.frame 0x12345678#32 0xFFFFFFFF#32 0x007FFFFF#32 0xFF800000#32)] := by decide
/-- An operand out of range is an error. -/
theorem test_asm_out_of_range : Asm.line params "XCHG 256".toList = none := by decide
/-- The first and the fifth line of P1's listing. -/
theorem test_listing :
    Asm.listingLine 0 (encode (.csel true)).word "CSEL 1".toList =
      "0: 0x000000000000000000000000000000013 CSEL 1".toList ∧
    (Asm.listing (Client.wreg 0x01#8 0x23#8))[4]? =
      some "4: 0x000000000000000000000000000000001 XCHG 0x00".toList := by decide
/-- P2: the operand of SX24 from the results. -/
theorem test_operand_from_results :
    Client.lastOperand [0#32, 0#32, 0x5A#32, 0#32, 0xFF#32, 0xFF#32, 0xFE#32, 0#32] =
      some 0xFFFFFE#24 := by decide

/-! ## Witnesses: each statement's hypotheses are met together -/

/-- An idle block at reset with an operation on its port. -/
def presented : State := State.reset.presenting (.op 0x8#132)

theorem witness_StepRunsPresentedOperation :
    presented.inp.rstN = true ∧ presented.fsm = .idle ∧ presented.inp.host = some (.op 0x8#132) := by
  decide
theorem witness_StepRunsPresentedOperation_bus :
    (State.reset.presenting (.busByte 0x51#8)).inp.host = some (.busByte 0x51#8) ∧
    (State.reset.presenting (.busByte 0x51#8)).fsm = .idle ∧
    (State.reset.presenting (.busByte 0x51#8)).inp.rstN = true := by decide

/-- A held RDYW. -/
def heldReady : State := { State.reset with fsm := .rdyWait, curOp := 0x5#4 }
/-- A held FRAME. -/
def heldFrame : State := { owned State.reset with fsm := .frameWait, curOp := 0x7#4 }

theorem witness_StepRetriesHeldOperation_rdyw :
    heldReady.inp.rstN = true ∧ (heldReady.fsm = .rdyWait ∨ heldReady.fsm = .frameWait) := by decide
theorem witness_StepRetriesHeldOperation_frame :
    heldFrame.inp.rstN = true ∧ (heldFrame.fsm = .rdyWait ∨ heldFrame.fsm = .frameWait) := by decide
theorem witness_StepIdles :
    State.reset.inp.rstN = true ∧ State.reset.fsm = .idle ∧ State.reset.inp.host = none := by decide

/-- A block whose reset is asserted. -/
def inReset : State := { heldFrame with inp := { Inputs.quiet with rstN := false } }

theorem witness_StepResets : inReset.inp.rstN = false := by decide
theorem witness_XchgReturnsReceivedByte : State.reset.inp.xferStall = false := by decide
theorem witness_XchgTimeoutCountsAndReturnsAnyByte : (failing State.reset).inp.xferStall = true := by
  decide
theorem witness_RdywCompletesOrHolds_ready : ready.drdySync = false := by decide
theorem witness_RdywCompletesOrHolds_not_ready : State.reset.drdySync = true := by decide
theorem witness_FrameStoresAndHandsOff : State.reset.frameOwned = false := by decide
theorem witness_FrameHoldsWhileOwned : (owned State.reset).frameOwned = true := by decide
theorem witness_ReservedCodesSetBadOp :
    Instr.reserved0 ∈ [Instr.reserved0, .reserved9, .reservedA, .reservedB, .reservedC, .reservedD,
      .reservedE, .reservedF] := by decide

/-- Each clause of the statement has an operation that is not its owner. -/
theorem witness_IndicationsWrittenOnlyByTheirOperation :
    exec .stat State.reset = .next (ran State.reset .stat) ∧ Instr.isReserved .stat = false ∧
    (∀ c1 c2 c3 c4, Instr.stat ≠ .frame c1 c2 c3 c4) ∧
    (Instr.opCode .stat ≠ 0x1#4 ∨ State.reset.inp.xferStall = false) ∧
    (∀ a, Instr.stat ≠ .csel a) :=
  ⟨rfl, rfl, fun _ _ _ _ h => (nomatch h), by decide, fun _ h => (nomatch h)⟩
theorem witness_OnlyFrameStores :
    exec (.xchg 0x5A#8) State.reset = .next (ran State.reset (.xchg 0x5A#8)) ∧
    ∀ c1 c2 c3 c4, Instr.xchg 0x5A#8 ≠ .frame c1 c2 c3 c4 :=
  ⟨rfl, fun _ _ _ _ h => (nomatch h)⟩
/-- An address outside the stores in defect mode, and any address while held. -/
theorem witness_FrameStoresOnlyItsBytes :
    Memory.wf (defect State.reset).frame = true ∧
    exec (.frame 1#32 2#32 3#32 4#32) (defect State.reset) =
      .next (ran (defect State.reset) (.frame 1#32 2#32 3#32 4#32)) ∧
    6 ∉ frameStoreAddrs (defect State.reset).cfg.frameLsbDefect 1#32 2#32 3#32 4#32 ∧
    24 ∉ frameStoreAddrs State.reset.cfg.frameLsbDefect 1#32 2#32 3#32 4#32 :=
  ⟨by decide, rfl, by decide, by decide⟩
theorem witness_FrameStoresOnlyItsBytes_held :
    exec (.frame 1#32 2#32 3#32 4#32) (owned State.reset) =
      .next (ran (owned State.reset) (.frame 1#32 2#32 3#32 4#32)) ∧
    (owned State.reset).frameOwned = true := ⟨rfl, rfl⟩
theorem witness_HiddenRegistersKept :
    exec (.sx24 1#24) State.reset = .next (ran State.reset (.sx24 1#24)) ∧
    Instr.opCode (.sx24 1#24) ≠ 0x1#4 ∧ (∀ n, Instr.sx24 1#24 ≠ .delay n) ∧
    Instr.sx24 1#24 ≠ .csel false :=
  ⟨rfl, by decide, fun _ h => (nomatch h), fun h => (nomatch h)⟩

/-- The next state of a step that answers one. -/
theorem witness_step_answers_next :
    step presented = .next (nextOr presented (step presented)) ∧ presented.inp.rstN = true := ⟨rfl, rfl⟩
theorem witness_OnlyResetClearsIndications :
    step { presented with badOp := true } =
      .next (nextOr presented (step { presented with badOp := true })) ∧
    ({ presented with badOp := true } : State).badOp = true := ⟨rfl, rfl⟩
theorem witness_OnlyResetClearsIndications_reset :
    step inReset = .next (nextOr inReset (step inReset)) ∧ inReset.inp.rstN = false := ⟨rfl, rfl⟩
theorem witness_OwnedFrameIsStable :
    step heldFrame = .next (nextOr heldFrame (step heldFrame)) ∧ heldFrame.inp.rstN = true ∧
    heldFrame.frameOwned = true ∧ heldFrame.inp.txDone = false := ⟨rfl, rfl, rfl, rfl⟩
theorem witness_TraceAndResultsOnlyGrow :
    step State.reset = .next (nextOr State.reset (step State.reset)) := rfl
theorem witness_HoldsAreOnlyReadyWaitAndOwnedFrame :
    blockOutcome .rdyw State.reset = .hold ∧
    blockOutcome (.frame 0#32 0#32 0#32 0#32) (owned State.reset) = .hold ∧
    blockOutcome .rdyw ready = .complete 0#32 ∧
    blockOutcome .reservedF ready = .fault .badOp := by decide
theorem witness_StrictStepFaultsOnReservedOnly :
    (State.reset.presenting (.op 0x9#132)).nextInstr = some .reserved9 ∧
    Instr.isReserved .reserved9 = true ∧ presented.nextInstr = some .stat ∧
    Instr.isReserved .stat = false := by decide

theorem reset_between : State.reset.Between where
  legal := by decide
  frameWf := by decide
  defectBytes := by decide
  boundary := by decide
  held := by decide
  wires := by decide
  bits := by decide
  start := by decide
  done := by decide
theorem reset_betweenEdges : State.reset.BetweenEdges where
  legal := by decide
  frameWf := by decide
  defectBytes := by decide
  op := trivial
  wires := by decide
  xferBits := by decide
  xferBudget := by decide
  count := by decide
  bits := by decide
  start := by decide
  done := by decide

theorem witness_StepKeepsBetweenOperations :
    State.reset.Between ∧ step State.reset = .next (nextOr State.reset (step State.reset)) :=
  ⟨reset_between, rfl⟩
theorem witness_EdgeKeepsBetweenEdges : State.reset.BetweenEdges := reset_betweenEdges

/-! ### Clock edges -/

/-- Pins at rest but for the operation presented. -/
def pins (op : Option CmdWord) : Pins where
  rstN := true
  op := op
  miso := false
  stall := false
  drdyN := false
  txDone := false
/-- The pins of reset. -/
def resetPins : Pins := { pins none with rstN := false }

/-- The pins of `SPI_CPHA = 0`, and with a `tx_done` inside the transfer. -/
def donePins (k : Nat) : Pins := { pins (some 0xFC1#132) with txDone := k == 3 }

theorem witness_XchgClockedGivesMeaning :
    (∀ _ : Nat, (pins (some 0xFC1#132)).rstN = true ∧ (pins (some 0xFC1#132)).stall = false) ∧
    State.reset.cfg.Legal ∧ State.reset.fsm = .idle ∧ State.reset.WiresIdle ∧
    (pins (some 0xFC1#132)).op = some 0xFC1#132 ∧ fieldOpCode 0xFC1#132 = 0x1#4 ∧
    State.reset.inp.xferStall = false ∧
    State.reset.inp.misoByte = sampledByte State.reset.cfg (fun _ => pins (some 0xFC1#132)) :=
  ⟨fun _ => ⟨rfl, rfl⟩, by decide⟩
theorem witness_XchgClockedGivesMeaning_cpha0 :
    (∀ k : Nat, (donePins k).rstN = true ∧ (donePins k).stall = false) ∧
    (phase0 (owned State.reset)).cfg.Legal ∧ (phase0 (owned State.reset)).fsm = .idle ∧
    (phase0 (owned State.reset)).WiresIdle ∧ (donePins 0).op = some 0xFC1#132 ∧
    fieldOpCode 0xFC1#132 = 0x1#4 ∧ (donePins 3).txDone = true ∧
    (phase0 (owned State.reset)).inp.xferStall = false ∧
    (phase0 (owned State.reset)).inp.misoByte =
      sampledByte (phase0 (owned State.reset)).cfg donePins :=
  ⟨fun _ => ⟨rfl, rfl⟩, by decide⟩
/-- The shortest delay, and one that counts. -/
theorem witness_DelayClockedGivesMeaning :
    (∀ _ : Nat, (pins (some 0x2#132)).rstN = true ∧ (pins (some 0x52#132)).rstN = true) ∧
    (pins (some 0x2#132)).op = some 0x2#132 ∧ (pins (some 0x52#132)).op = some 0x52#132 ∧
    State.reset.fsm = .idle ∧ fieldOpCode 0x2#132 = 0x2#4 ∧ fieldOpCode 0x52#132 = 0x2#4 ∧
    operandCount (fieldArg0 0x2#132) = 0#16 ∧ operandCount (fieldArg0 0x52#132) = 5#16 :=
  ⟨fun _ => ⟨rfl, rfl⟩, rfl, rfl, by decide⟩
theorem witness_GuardClockedGivesMeaning :
    (∀ _ : Nat, (pins (some 0x3#132)).rstN = true) ∧
    (selected State.reset).fsm = .idle ∧ (pins (some 0x3#132)).op = some 0x3#132 ∧
    fieldOpCode 0x3#132 = 0x3#4 ∧ operandFlag (fieldArg0 0x3#132) = false :=
  ⟨fun _ => rfl, by decide⟩
/-- Each operation that completes on the next edge. -/
theorem witness_OneCycleOperationsClockedGiveMeaning :
    State.reset.fsm = .idle ∧
    (∀ w, (pins (some w)).op = some w ∧ (pins (some w)).rstN = true ∧
      State.reset.inp.txDone = (pins (some w)).txDone ∧ (pins (some w)).txDone = false) ∧
    [0x13#132, 0x4#132, 0x6#132, 0x7#132, 0x8#132, 0x0#132, 0xF#132].map
      (fun w => acceptFsm (fieldOpCode w) (fieldArg0 w) State.reset.frameOwned) =
      List.replicate 7 .single :=
  ⟨rfl, fun _ => ⟨rfl, rfl, rfl, rfl⟩, by decide⟩
theorem witness_ReadyWaitEdge_not_ready :
    heldReady.fsm = .rdyWait ∧ heldReady.curOp = 0x5#4 ∧ (pins none).rstN = true ∧
    heldReady.readySample = false := by decide
theorem witness_ReadyWaitEdge_ready :
    ({ heldReady with drdySync := false } : State).fsm = .rdyWait ∧
    ({ heldReady with drdySync := false } : State).readySample = true := by decide
theorem witness_ReadyWaitEndsWhenConverterReady :
    heldReady.fsm = .rdyWait ∧ heldReady.curOp = 0x5#4 ∧
    ∀ _ : Nat, (pins none).rstN = true ∧ (pins none).drdyN = false ∧ (pins none).op = none :=
  ⟨rfl, rfl, fun _ => ⟨rfl, rfl, rfl⟩⟩

/-- A block just after it accepted an XCHG. -/
def inTransfer : State := { State.reset with fsm := .xfer, curOp := 0x1#4, shreg := 0xFC#8 }

theorem inTransfer_betweenEdges : inTransfer.BetweenEdges where
  legal := by decide
  frameWf := by decide
  defectBytes := by decide
  op := rfl
  wires := by decide
  xferBits := by decide
  xferBudget := by decide
  count := by decide
  bits := by decide
  start := by decide
  done := by decide
theorem witness_XchgEndsWithinBudget :
    inTransfer.BetweenEdges ∧ inTransfer.fsm = .xfer ∧ ∀ _ : Nat, (pins none).rstN = true :=
  ⟨inTransfer_betweenEdges, rfl, fun _ => rfl⟩
/-- The last half period with `SPI_CPHA = 0`, at its first edge and at the watchdog limit. -/
def samplesIn : State := phase0 { inTransfer with bitcnt := 8, sclk := true, wdog := 17 }

theorem witness_XchgEndsWithinBudget_samples_in :
    samplesIn.BetweenEdges ∧ samplesIn.fsm = .xfer ∧ samplesIn.bitcnt = 8 ∧
    (pins none).rstN = true where
  left := {
    legal := by decide
    frameWf := by decide
    defectBytes := by decide
    op := rfl
    wires := by decide
    xferBits := by decide
    xferBudget := by decide
    count := by decide
    bits := by decide
    start := by decide
    done := by decide }
  right := by decide
theorem witness_DeadShifterTimesOut :
    State.reset.cfg.Legal ∧ State.reset.fsm = .idle ∧ State.reset.WiresIdle ∧
    fieldOpCode 0xAA1#132 = 0x1#4 ∧
    ({ pins (some 0xAA1#132) with stall := true } : Pins).op = some 0xAA1#132 ∧
    ({ pins (some 0xAA1#132) with stall := true } : Pins).rstN = true ∧
    ({ pins (some 0xAA1#132) with stall := true } : Pins).stall = true := by decide
theorem witness_ReadySampleIsTwoFlopSynchronizer : (pins none).rstN = true := by decide
/-- The hand-off, from both states of the control machine. -/
theorem witness_OwnershipEdges_handoff :
    ({ State.reset with fsm := .single, curOp := 0x7#4 } : State).frameOwned = false ∧
    ({ heldFrame with frameOwned := false } : State).fsm = .frameWait ∧
    heldFrame.curOp = 0x7#4 ∧ (pins none).rstN = true := by decide
theorem witness_OwnershipEdges_done :
    heldFrame.frameOwned = true ∧ ({ pins none with txDone := true } : Pins).txDone = true ∧
    State.reset.frameOwned = false := by decide
theorem witness_OwnedFrameIsStableOnEveryEdge :
    (pins none).rstN = true ∧ heldFrame.frameOwned = true ∧ (pins none).txDone = false := by decide
theorem witness_SimultaneousEvents_reset : resetPins.rstN = false := by decide
theorem witness_SimultaneousEvents_frame :
    heldFrame.fsm = .frameWait ∧ heldFrame.curOp = 0x7#4 ∧ heldFrame.frameOwned = true ∧
    ({ pins none with txDone := true } : Pins).rstN = true ∧
    ({ pins none with txDone := true } : Pins).txDone = true := by decide
/-- The eighth sample on the edge of the watchdog limit: a trailing edge, and with `SPI_CPHA = 0` a leading
edge. -/
theorem witness_SimultaneousEvents_transfer :
    let s : State := { inTransfer with bitcnt := 7, sclk := true, wdog := 17 }
    s.fsm = .xfer ∧ s.bitcnt = 7 ∧ (s.transferEdge true false).bitcnt = 8 ∧
    s.cfg.xferTimeoutCycles ≤ s.wdog + 1 := by decide
theorem witness_SimultaneousEvents_transfer_cpha0 :
    let s : State := phase0 { inTransfer with bitcnt := 7, wdog := 17 }
    s.fsm = .xfer ∧ s.bitcnt = 7 ∧ (s.transferEdge true false).bitcnt = 8 ∧
    (s.transferEdge true false).sclk ≠ s.cfg.spiCpol ∧
    s.cfg.xferTimeoutCycles ≤ s.wdog + 1 := by decide
/-- R226 there: the transfer completes with the byte, and no timeout is counted. -/
theorem test_eighth_sample_wins_cpha0 :
    let t := Clock.edge { pins none with miso := true }
      (phase0 { inTransfer with bitcnt := 7, wdog := 17 })
    t.fsm = .idle ∧ t.xferTimeouts = 0#16 ∧ t.resData = 0xF9#32 ∧ t.sclk = false := by decide
theorem witness_ResetPorts : resetPins.rstN = false ∧ inReset.inp.rstN = false := by decide
theorem witness_FirstEdgesAfterReset :
    resetPins.rstN = false ∧ (pins (some 0x8#132)).rstN = true ∧
    (pins (some 0x8#132)).op = some 0x8#132 ∧ (pins none).op = none ∧
    State.reset.inp.rstN = true ∧ State.reset.fsm = (Clock.edge resetPins State.reset).fsm := by decide

/-! ### The sign-extender, the framer, the client -/

theorem witness_MagnitudeDecodeIsSignExtension : (0x800000#24).getLsbD 23 = true := by decide
/-- Both ends of the range. -/
theorem witness_Sx24RoundTrip :
    (-(2 : Int) ^ 23 ≤ -8388608 ∧ (-8388608 : Int) ≤ 2 ^ 23 - 1) ∧
    (-(2 : Int) ^ 23 ≤ 8388607 ∧ (8388607 : Int) ≤ 2 ^ 23 - 1) ∧
    exec (.sx24 0x800000#24) State.reset = .next (ran State.reset (.sx24 0x800000#24)) :=
  ⟨by decide, by decide, rfl⟩
theorem witness_FrameLayout :
    Memory.wf State.reset.frame = true ∧ State.reset.frameOwned = false ∧
    State.reset.cfg.frameLsbDefect = false ∧ (defect State.reset).cfg.frameLsbDefect = true ∧
    exec (.frame 1#32 2#32 3#32 4#32) State.reset =
      .next (ran State.reset (.frame 1#32 2#32 3#32 4#32)) :=
  ⟨rfl, rfl, rfl, rfl, rfl⟩
/-- The same holds of FrameShape's hypotheses. -/
theorem witness_FrameShape :
    Memory.wf (defect State.reset).frame = true ∧ (defect State.reset).frameOwned = false ∧
    exec (.frame 1#32 2#32 3#32 4#32) (defect State.reset) =
      .next (ran (defect State.reset) (.frame 1#32 2#32 3#32 4#32)) := ⟨rfl, rfl, rfl⟩
/-- Operands that differ in bits 15 to 8. -/
theorem witness_DefectModeDropsBits15To8 :
    (defect State.reset).cfg.frameLsbDefect = true ∧
    0x12345678#32 &&& 0xFFFF00FF#32 = 0x12340078#32 &&& 0xFFFF00FF#32 ∧
    0x12345678#32 ≠ 0x12340078#32 := by decide
/-- The last address of the frame and the first above it. -/
theorem witness_TxReadPort :
    ({ Inputs.quiet with txRdAddr := 23#5 } : Inputs).txRdAddr.toNat < 24 ∧
    24 ≤ ({ Inputs.quiet with txRdAddr := 24#5 } : Inputs).txRdAddr.toNat := by decide
theorem witness_OneReleaseUndoesAllAsserts : State.reset.fsm = .idle := by decide
theorem witness_ClientSequencesConform :
    ready.fsm = .idle ∧ ready.drdyMeta = false ∧ ready.drdySync = false ∧
    Monitor.start.phase = .command ∧ Monitor.start.ok = true ∧
    (∀ n, ∀ l ∈ List.replicate n ready.inp, l.drdyN = false) ∧
    (∀ ops : List Instr, (List.replicate ops.length ready.inp).length = ops.length) :=
  ⟨rfl, rfl, rfl, rfl, rfl, fun _ _ h => by rw [List.eq_of_mem_replicate h]; rfl, fun _ => by simp⟩
/-- E4: a pair that is kept, and one that is not. -/
theorem witness_MuxWriteCounts :
    Client.muxWrites (Client.readChannel params (some 0x23#8) 2#4 3#4 0#8 0#8 0#8).1 = 0 ∧
    Client.muxWrites (Client.readChannel params none 2#4 3#4 0#8 0#8 0#8).1 = 1 := by decide
/-- An empty buffer. -/
theorem witness_ReceivedBytesGoToTheirRegistersAndSlots_slots :
    (ScanBuffer.mk [none, none, none, none] none).slots.length = 4 := by decide
/-- A view inside a write of MUX, before its value byte, and one that holds a pair. -/
def writingMux : ConverterView :=
  { ConverterView.start with
    monitor := { Monitor.start with phase := .wregValue, gapUs := 5 }, writing := 1#4 }
def knowingMux : ConverterView :=
  { ConverterView.start with regs := { ConvRegs.unknown with mux := some 0x23#8 } }

theorem witness_ReceivedBytesGoToTheirRegistersAndSlots_write :
    (writingMux.event (.byte 0x23#8 0x00#8 true)).regs.get 1#4 = some 0x23#8 := by decide
theorem witness_ReceivedBytesGoToTheirRegistersAndSlots_keep :
    (knowingMux.event (.byte 0xFC#8 0x00#8 false)).regs.get 1#4 = some 0x23#8 := by decide
/-- With no pair configured yet, and with the pair kept. -/
theorem witness_ReceivedBytesGoToTheirRegistersAndSlots_run :
    ready.fsm = .idle ∧ ready.drdyMeta = false ∧ ready.drdySync = false ∧
    knowingMux.monitor.phase = .command ∧ knowingMux.monitor.ok = true ∧ knowingMux.lost = false ∧
    (∀ x, some 0x23#8 = some x → knowingMux.regs.mux = some x) ∧
    (∀ x, (none : Option Byte) = some x → ConverterView.start.regs.mux = some x) ∧
    (∀ n, ∀ l ∈ List.replicate n ready.inp, l.drdyN = false ∧ l.xferStall = false) :=
  ⟨rfl, rfl, rfl, rfl, rfl, rfl, fun _ h => h, fun _ h => (nomatch h),
    fun _ _ h => by rw [List.eq_of_mem_replicate h]; exact ⟨rfl, rfl⟩⟩
/-- Levels that give each register of a burst read its own byte. -/
def burstLevels : List Inputs :=
  (List.range 17).map fun k => { ready.inp with misoByte := BitVec.ofNat 8 k }

theorem witness_ReceivedBytesGoToTheirRegistersAndSlots_burst :
    burstLevels.length = (Client.rreg5 params).length ∧
    (∀ l ∈ burstLevels, l.drdyN = false ∧ l.xferStall = false) ∧
    ∀ j : Fin 5, (burstLevels[6 + 2 * j.val]?).map Inputs.misoByte =
      some (BitVec.ofNat 8 (6 + 2 * j.val)) := by decide
/-- Any idle state and levels of the right number. -/
theorem witness_ReceivedBytesGoToTheirRegistersAndSlots_rdata :
    State.reset.fsm = .idle ∧
    (List.replicate 8 ready.inp).length = (Client.rdataItems params).length ∧
    (∀ l ∈ List.replicate 8 ready.inp, l.xferStall = false) := by decide
/-- R143: the second received byte is MUX. -/
theorem test_burst_read_order :
    (Client.burstRegisters ((List.range 17).map (BitVec.ofNat 32))).mux = some 0x08#8 ∧
    (({ ConverterView.start with
        monitor := { Monitor.start with phase := .rregData 5 4, gapUs := 5 } } : ConverterView).event
      (.byte 0xFF#8 0x23#8 true)).readBack = { ConvRegs.unknown with mux := some 0x23#8 } := by decide
/-- R143: a burst read from start address 1 is none HOST may issue. -/
theorem test_burst_start_1_breaks_the_obligations :
    (Monitor.start.event (.byte 0x11#8 0x00#8 true)).ok = false ∧
    (Monitor.start.event (.byte 0x10#8 0x00#8 true)).ok = true := by decide
/-- R160: a result read with MUX at another pair is not attributable to this one. -/
theorem test_attribution_needs_the_mux_pair :
    ResultRead.attributable ⟨some 0x01#8, none⟩ 0x23#8 = false ∧
    ResultRead.attributable ⟨some 0x23#8, none⟩ 0x23#8 = true ∧
    ResultRead.attributable ⟨none, none⟩ 0x23#8 = false := by decide
/-- R162: a value byte without its spacing leaves no register known. -/
theorem test_broken_spacing_corrupts_the_registers :
    (({ writingMux with monitor := { writingMux.monitor with gapUs := 4 } } : ConverterView).event
      (.byte 0x23#8 0x00#8 true)).regs = ConvRegs.unknown := by decide

end Sys2Proof.Tests
end

section
/-! SUPPORT. The edge of a FRAME that hands off, and what an edge does with `tx_done` (20_memory.md R56,
44_framer.md R185). -/

namespace Sys2Proof.Machine

@[simp] theorem State.txStart_eq (s : State) : s.txStart = s.txStartR := rfl

@[simp] theorem State.emitHandoff_frameOwned (s : State) :
    s.emitHandoff.frameOwned = s.frameOwned := rfl
@[simp] theorem State.emitHandoff_txStartR (s : State) :
    s.emitHandoff.txStartR = s.txStartR := rfl

/-! ## The edge of a FRAME -/

/-- The latched code 0x7 is FRAME with the latched operands (30_encoding.md R72). -/
theorem State.latchedInstr_frame {s : State} (h : s.curOp = 0x7#4) :
    s.latchedInstr = .frame s.curArg0 s.curArg1 s.curArg2 s.curArg3 := by
  simp [State.latchedInstr, State.latchedWord, h, decodeFields]

/-- FRAME while TXC does not own the buffer (44_framer.md R181). -/
theorem exec_frame_free {s : State} (h : s.frameOwned = false) (c1 c2 c3 c4 : Word32) :
    exec (.frame c1 c2 c3 c4) s =
      .next ((s.writeFrame c1 c2 c3 c4).handoff.emitHandoff.complete 0#32) := by
  simp [exec, execFrame, h]

/-- An operation in SINGLE or FRAMEWAIT does on its edge what its meaning does (10_state.md R30). -/
theorem State.opEdge_meaning {s : State} (h : s.fsm = .single ∨ s.fsm = .frameWait) (p : Pins) :
    s.opEdge p = nextOr s (exec s.latchedInstr s) := by
  rcases h with h | h <;> simp only [State.opEdge, h]

/-- The edge on which a FRAME stores and hands off. -/
theorem Clock.edge_frame_free {s : State} {p : Pins}
    (hfsm : s.fsm = .single ∨ s.fsm = .frameWait) (hop : s.curOp = 0x7#4)
    (hown : s.frameOwned = false) (hrst : p.rstN = true) :
    Clock.edge p s =
      ((s.clearPulses.writeFrame s.curArg0 s.curArg1 s.curArg2 s.curArg3).handoff.emitHandoff.complete
        0#32).syncEdge p.drdyN := by
  have hexec := exec_frame_free (s := s.clearPulses) hown s.curArg0 s.curArg1 s.curArg2 s.curArg3
  have hinstr := State.latchedInstr_frame (s := s.clearPulses) hop
  rw [Clock.edge_run hrst, State.opEdge_meaning (s := s.clearPulses) hfsm, hinstr]
  simp [hexec, hown, State.txDoneEdge]

/-! ## The edge out of IDLE -/

/-- IDLE with nothing presented: nothing is in progress. -/
theorem State.opEdge_idle_none {s : State} {p : Pins} (h : s.fsm = .idle) (hop : p.op = none) :
    s.opEdge p = s := by
  simp [State.opEdge, h, hop]

/-- IDLE with an operation presented: it is accepted. -/
theorem State.opEdge_idle_some {s : State} {p : Pins} {w : CmdWord} (h : s.fsm = .idle)
    (hop : p.op = some w) : s.opEdge p = s.accept w := by
  simp [State.opEdge, h, hop]

@[simp] theorem State.accept_txStartR (s : State) (w : CmdWord) :
    (s.accept w).txStartR = s.txStartR := by
  simp [s.accept_frame w]

/-- An edge out of IDLE ends the `tx_start` pulse, whether it accepts an operation or not (10_state.md R24). -/
theorem Clock.edge_idle_txStart {s : State} (h : s.fsm = .idle) (q : Pins) :
    (Clock.edge q s).txStart = false := by
  have hidle : s.clearPulses.fsm = .idle := h
  cases hrst : q.rstN with
  | false => simp [Clock.edge_reset hrst]
  | true =>
    rw [Clock.edge_run hrst]
    cases hop : q.op with
    | none => simp [State.opEdge_idle_none hidle hop]
    | some w => simp [State.opEdge_idle_some hidle hop]

/-! ## `tx_done` -/

/-- `tx_done` ends an ownership on every edge, and so does a reset. -/
theorem Clock.edge_txDone_ends_ownership {s : State} {p : Pins} (hown : s.frameOwned = true)
    (hdone : p.txDone = true) : (Clock.edge p s).frameOwned = false := by
  cases hrst : p.rstN with
  | false => simp [Clock.edge_reset hrst]
  | true => simp [Clock.edge_run hrst, hown, hdone]

/-- The operation in progress does not look at `tx_done`. -/
@[simp] theorem State.opEdge_with_txDone (s : State) (p : Pins) (d : Bool) :
    s.opEdge { p with txDone := d } = s.opEdge p := rfl

/-- With no ownership an edge is the same whatever `tx_done` is. -/
theorem Clock.edge_txDone_ignored {s : State} (hown : s.frameOwned = false) (p : Pins) (d : Bool) :
    Clock.edge { p with txDone := d } s = Clock.edge p s := by
  simp [Clock.edge, hown, State.txDoneEdge]

end Sys2Proof.Machine
end

section
/-! The statements about the frame memory and its ownership. -/

namespace Sys2Proof.Machine

/-- Settles O46. A hand-off leaves IDLE behind, so the next edge ends the pulse; `tx_done` reaches the state
only through `State.txDoneEdge`, which tests the ownership that stood before the edge. -/
theorem ownershipEdges : Obligations.OwnershipEdges := by
  refine ⟨fun s p q hfsm hop hown hp _ => ?_, fun s p => ⟨fun hown hdone => ?_, fun hown => ?_⟩⟩
  · have hedge := Clock.edge_frame_free hfsm hop hown hp
    exact ⟨by simp [hedge], by simp [hedge], Clock.edge_idle_txStart (by simp [hedge]) q⟩
  · exact Clock.edge_txDone_ends_ownership hown hdone
  · exact (Clock.edge_txDone_ignored hown p _).symm

end Sys2Proof.Machine
end

section
/-! SUPPORT. The ready synchronizer (41_select_ready.md R126): what is in progress leaves both flops alone,
so an edge moves them only through `State.syncEdge`. -/

namespace Sys2Proof.Machine

/-! ## The ends of an operation -/

@[simp] theorem State.finishXfer_drdyMeta (s : State) (tx : Byte) (r : Xfer) :
    (s.finishXfer tx r).drdyMeta = s.drdyMeta := by
  cases r <;> rfl
@[simp] theorem State.finishXfer_drdySync (s : State) (tx : Byte) (r : Xfer) :
    (s.finishXfer tx r).drdySync = s.drdySync := by
  cases r <;> rfl

@[simp] theorem State.exchange_drdyMeta (s : State) (tx : Byte) :
    (s.exchange tx).drdyMeta = s.drdyMeta := by
  simp [State.exchange]
@[simp] theorem State.exchange_drdySync (s : State) (tx : Byte) :
    (s.exchange tx).drdySync = s.drdySync := by
  simp [State.exchange]

@[simp] theorem State.finishDelay_drdyMeta (s : State) (n : BitVec 16) :
    (s.finishDelay n).drdyMeta = s.drdyMeta := rfl
@[simp] theorem State.finishDelay_drdySync (s : State) (n : BitVec 16) :
    (s.finishDelay n).drdySync = s.drdySync := rfl

@[simp] theorem State.assertSelect_drdyMeta (s : State) : s.assertSelect.drdyMeta = s.drdyMeta := by
  rw [s.assertSelect_eq]
@[simp] theorem State.assertSelect_drdySync (s : State) : s.assertSelect.drdySync = s.drdySync := by
  rw [s.assertSelect_eq]

@[simp] theorem State.releaseSelect_drdyMeta (s : State) :
    s.releaseSelect.drdyMeta = s.drdyMeta := by
  rw [s.releaseSelect_eq]
@[simp] theorem State.releaseSelect_drdySync (s : State) :
    s.releaseSelect.drdySync = s.drdySync := by
  rw [s.releaseSelect_eq]

@[simp] theorem State.emitHandoff_drdyMeta (s : State) : s.emitHandoff.drdyMeta = s.drdyMeta := rfl
@[simp] theorem State.emitHandoff_drdySync (s : State) : s.emitHandoff.drdySync = s.drdySync := rfl

@[simp] theorem State.reservedOp_drdyMeta (s : State) : s.reservedOp.drdyMeta = s.drdyMeta := rfl
@[simp] theorem State.reservedOp_drdySync (s : State) : s.reservedOp.drdySync = s.drdySync := rfl

/-! ## Operations -/

/-- No operation moves a flop of the synchronizer. -/
theorem exec_keeps_synchronizer {i : Instr} {s t : State} (h : exec i s = .next t) :
    t.drdyMeta = s.drdyMeta ∧ t.drdySync = s.drdySync := by
  rcases exec_cases h with ⟨-, tx, rfl⟩ | ⟨n, -, rfl⟩ | ⟨-, rfl⟩ | ⟨-, rfl⟩ | ⟨-, rfl⟩ |
    ⟨-, -, rfl⟩ | ⟨-, -, rfl⟩ | ⟨u, -, rfl⟩ | ⟨c1, c2, c3, c4, -, -, rfl⟩ |
    ⟨c1, c2, c3, c4, -, -, rfl⟩ | ⟨-, rfl⟩ | ⟨-, rfl⟩ <;> simp

/-- The same of the operation's next state by name: it always has one. -/
theorem nextOr_exec_keeps_synchronizer (i : Instr) (s : State) :
    (nextOr s (exec i s)).drdyMeta = s.drdyMeta ∧ (nextOr s (exec i s)).drdySync = s.drdySync := by
  obtain ⟨t, ht⟩ := exec_next i s
  rw [ht]
  exact exec_keeps_synchronizer ht

/-! ## Edges -/

/-- The shifter works on SCLK, MOSI and MISO only. -/
theorem State.transferEdge_keeps_synchronizer (s : State) (miso stall : Bool) :
    (s.transferEdge miso stall).drdyMeta = s.drdyMeta ∧
    (s.transferEdge miso stall).drdySync = s.drdySync := by
  cases stall with
  | true => exact ⟨rfl, rfl⟩
  | false =>
    rcases s.shifterEdge_cases miso with ⟨-, h⟩ | ⟨-, -, h⟩ | ⟨-, -, h⟩ <;>
      simp [State.transferEdge, h]

theorem State.xferEdge_keeps_synchronizer (s : State) (miso stall : Bool) :
    (s.xferEdge miso stall).drdyMeta = s.drdyMeta ∧
    (s.xferEdge miso stall).drdySync = s.drdySync := by
  have hshift := s.transferEdge_keeps_synchronizer miso stall
  rcases s.xferEdge_cases miso stall with ⟨-, -, h⟩ | ⟨-, -, h⟩ | ⟨-, -, h⟩ <;>
    simpa [h] using hshift

/-- A wait counts on, or ends as `done` says. -/
theorem State.countEdge_cases (s done : State) :
    (s.dcnt = s.dtarget ∧ s.countEdge done = done) ∨
    (s.dcnt ≠ s.dtarget ∧ s.countEdge done = { s with dcnt := s.dcnt + 1 }) := by
  by_cases h : s.dcnt = s.dtarget
  · exact .inl ⟨h, if_pos h⟩
  · exact .inr ⟨h, if_neg h⟩

theorem State.countEdge_keeps_synchronizer {s done : State}
    (h : done.drdyMeta = s.drdyMeta ∧ done.drdySync = s.drdySync) :
    (s.countEdge done).drdyMeta = s.drdyMeta ∧ (s.countEdge done).drdySync = s.drdySync := by
  rcases s.countEdge_cases done with ⟨-, hc⟩ | ⟨-, hc⟩
  · rwa [hc]
  · simp [hc]

/-- Whatever is in progress on an edge, it leaves the synchronizer alone. -/
theorem State.opEdge_keeps_synchronizer (s : State) (p : Pins) :
    (s.opEdge p).drdyMeta = s.drdyMeta ∧ (s.opEdge p).drdySync = s.drdySync := by
  cases hfsm : s.fsm with
  | idle =>
    cases hop : p.op with
    | none => simp [State.opEdge_idle_none hfsm hop]
    | some w => simp [State.opEdge_idle_some hfsm hop, s.accept_frame w]
  | xfer =>
    simpa only [State.opEdge, hfsm] using s.xferEdge_keeps_synchronizer p.miso p.stall
  | delay =>
    simpa only [State.opEdge, hfsm] using State.countEdge_keeps_synchronizer (by simp)
  | guard =>
    simpa only [State.opEdge, hfsm] using State.countEdge_keeps_synchronizer (by simp)
  | single | rdyWait | frameWait =>
    simpa only [State.opEdge, hfsm] using nextOr_exec_keeps_synchronizer s.latchedInstr s

/-- An edge with no reset shifts `drdy_n` through the two flops. -/
theorem Clock.edge_shifts_synchronizer {p : Pins} (h : p.rstN = true) (s : State) :
    (Clock.edge p s).drdyMeta = p.drdyN ∧ (Clock.edge p s).drdySync = s.drdyMeta := by
  obtain ⟨hmeta, -⟩ := s.clearPulses.opEdge_keeps_synchronizer p
  simp [Clock.edge_run h, hmeta]

/-! ## The sample -/

/-- Bit 19 of the status word is `ready` (10_state.md R31). -/
theorem State.statusWord_bit19 (s : State) : s.statusWord.getLsbD 19 = s.readySample := by
  simp only [State.statusWord, BitVec.getLsbD_append]
  simp

end Sys2Proof.Machine
end

section
/-! The statement about the ready sample. -/

namespace Sys2Proof.Machine

/-- Settles O45. The operation in progress leaves `drdy_meta` alone, so `drdy_sync` takes the level that stood
in it before the edge. -/
theorem readySampleIsTwoFlopSynchronizer : Obligations.ReadySampleIsTwoFlopSynchronizer := by
  intro s p hrst
  obtain ⟨hmeta, hsync⟩ := Clock.edge_shifts_synchronizer hrst s
  exact ⟨hmeta, hsync, rfl, s.statusWord_bit19⟩

end Sys2Proof.Machine
end

section
/-! SUPPORT. MUX writes of the client sequences (42_bus_commands.md R164). Each lemma speaks of a sequence
in front of any `rest`: none ends inside the first two bytes of a WREG, so the counts add up. -/

namespace Sys2Proof.Machine

@[simp] theorem Client.muxWrites_nil : Client.muxWrites [] = 0 := rfl

/-- Only the command byte `0x51` opens a MUX write. -/
theorem Client.muxWrites_cons_of_ne {i : Instr} (h : i ≠ .xchg 0x51#8) (rest : List Instr) :
    Client.muxWrites (i :: rest) = Client.muxWrites rest := by
  simp [Client.muxWrites, h]

/-- An exchange with anything but the spacing after it opens no MUX write, whatever its byte. -/
theorem Client.muxWrites_xchg_of_no_gap (b : Byte) {i : Instr} (h : i ≠ Client.gap)
    (rest : List Instr) :
    Client.muxWrites (.xchg b :: i :: rest) = Client.muxWrites (i :: rest) := by
  simp [Client.muxWrites, h]

/-- An exchange and its spacing before the end of a selection open no MUX write, whatever the byte. -/
theorem Client.muxWrites_lastByte (b : Byte) (rest : List Instr) :
    Client.muxWrites (.xchg b :: Client.gap :: .csel false :: rest) = Client.muxWrites rest := by
  simp [Client.muxWrites]

@[simp] theorem Client.muxWrites_csel (a : Bool) (rest : List Instr) :
    Client.muxWrites (.csel a :: rest) = Client.muxWrites rest :=
  Client.muxWrites_cons_of_ne (by simp) rest

@[simp] theorem Client.muxWrites_rdyw (rest : List Instr) :
    Client.muxWrites (.rdyw :: rest) = Client.muxWrites rest :=
  Client.muxWrites_cons_of_ne (by simp) rest

@[simp] theorem Client.muxWrites_delay (n : BitVec 16) (rest : List Instr) :
    Client.muxWrites (.delay n :: rest) = Client.muxWrites rest :=
  Client.muxWrites_cons_of_ne (by simp) rest

@[simp] theorem Client.muxWrites_sx24 (u : U24) (rest : List Instr) :
    Client.muxWrites (.sx24 u :: rest) = Client.muxWrites rest :=
  Client.muxWrites_cons_of_ne (by simp) rest

/-- A command byte, its spacing and the count byte (R142) are a MUX write where the command byte is `0x51`. -/
theorem Client.muxWrites_command (rest : List Instr) :
    Client.muxWrites (.xchg 0x51#8 :: Client.gap :: .xchg 0x00#8 :: rest) =
      1 + Client.muxWrites rest := by
  simp [Client.muxWrites]

/-! ## The sequences -/

/-- A register write to MUX is one MUX write, also where its value byte is itself `0x51`. -/
theorem Client.muxWrites_wreg_mux (v : Byte) (rest : List Instr) :
    Client.muxWrites (Client.wreg Client.muxAddr v ++ rest) = 1 + Client.muxWrites rest := by
  have hbyte : wregByte Client.muxAddr = 0x51#8 := by decide
  simp [Client.wreg, hbyte, Client.muxWrites_command, Client.muxWrites_lastByte]

theorem Client.muxWrites_syncWake (c : ClientParams) (rest : List Instr) :
    Client.muxWrites (Client.syncWake c ++ rest) = Client.muxWrites rest := by
  have hsync : Instr.xchg syncByte ≠ .xchg 0x51#8 := by decide
  have hwakeup : Instr.xchg wakeupByte ≠ .xchg 0x51#8 := by decide
  simp [Client.syncWake, Client.muxWrites_cons_of_ne hsync, Client.muxWrites_cons_of_ne hwakeup]

/-- The dummy byte is a parameter and may be `0x51`; no spacing follows it. -/
theorem Client.muxWrites_rdata (c : ClientParams) (b0 b1 b2 : Byte) (rest : List Instr) :
    Client.muxWrites (Client.rdata c b0 b1 b2 ++ rest) = Client.muxWrites rest := by
  have hrdata : Instr.xchg rdataByte ≠ .xchg 0x51#8 := by decide
  simp [Client.rdata, Client.rdataExchanges, Client.muxWrites_cons_of_ne hrdata,
    Client.muxWrites_xchg_of_no_gap]

/-- `readChannel` keeps the pair it was called with (R155). -/
theorem Client.readChannel_last (c : ClientParams) (last : Option Byte) (pos neg : BitVec 4)
    (b0 b1 b2 : Byte) :
    (Client.readChannel c last pos neg b0 b1 b2).2 = some (Client.pairByte pos neg) := rfl

theorem Client.muxWrites_readChannel (c : ClientParams) (last : Option Byte) (pos neg : BitVec 4)
    (b0 b1 b2 : Byte) :
    Client.muxWrites (Client.readChannel c last pos neg b0 b1 b2).1 =
      if last = some (Client.pairByte pos neg) then 0 else 1 := by
  by_cases hkept : last = some (Client.pairByte pos neg)
  · simp [Client.readChannel, hkept, Client.muxWrites_syncWake, Client.muxWrites_rdata]
  · simp [Client.readChannel, hkept, Client.muxWrites_wreg_mux, Client.muxWrites_syncWake,
      Client.muxWrites_rdata]

/-- A scan step always writes MUX (R156). -/
theorem Client.muxWrites_scanStep (c : ClientParams) (i : Fin 4) (b0 b1 b2 : Byte)
    (rest : List Instr) :
    Client.muxWrites (Client.scanStep c i b0 b1 b2 ++ rest) = 1 + Client.muxWrites rest := by
  simp [Client.scanStep, Client.muxWrites_wreg_mux, Client.muxWrites_syncWake,
    Client.muxWrites_rdata]

/-- Scan steps issue one MUX write each, whatever their channels and in whatever order. -/
theorem Client.muxWrites_scanSteps (c : ClientParams) (bytes : Fin 4 → Byte × Byte × Byte)
    (steps : List (Fin 4)) (rest : List Instr) :
    Client.muxWrites
      (steps.flatMap (fun i => Client.scanStep c i (bytes i).1 (bytes i).2.1 (bytes i).2.2) ++ rest) =
      steps.length + Client.muxWrites rest := by
  induction steps with
  | nil => simp
  | cons i steps ih =>
    rw [List.flatMap_cons, List.append_assoc, Client.muxWrites_scanStep, ih, List.length_cons]
    omega

theorem Client.muxWrites_scanCycle_append (c : ClientParams) (bytes : Fin 4 → Byte × Byte × Byte)
    (rest : List Instr) :
    Client.muxWrites (Client.scanCycle c bytes ++ rest) = 4 + Client.muxWrites rest := by
  rw [Client.scanCycle, Client.muxWrites_scanSteps, List.length_finRange]

theorem Client.muxWrites_scanCycle (c : ClientParams) (bytes : Fin 4 → Byte × Byte × Byte) :
    Client.muxWrites (Client.scanCycle c bytes) = 4 := by
  simpa using Client.muxWrites_scanCycle_append c bytes []

end Sys2Proof.Machine
end

section
/-! The statement about MUX writes. -/

namespace Sys2Proof.Machine

/-- Settles O59. The second call of `readChannel` finds the pair the first one kept; the counts of two scan
cycles add up because no cycle ends inside a MUX write. -/
theorem muxWriteCounts : Obligations.MuxWriteCounts := by
  refine ⟨fun c last pos neg b0 b1 b2 d0 d1 d2 => ⟨?_, ?_⟩, fun c bytes1 bytes2 => ⟨?_, ?_⟩⟩
  · exact Client.muxWrites_readChannel c last pos neg b0 b1 b2
  · rw [Client.readChannel_last, Client.muxWrites_readChannel, if_pos rfl]
  · exact Client.muxWrites_scanCycle c bytes1
  · rw [Client.muxWrites_scanCycle_append, Client.muxWrites_scanCycle]

end Sys2Proof.Machine
end

section
/-! SUPPORT. The sign-extender (43_sign_extend.md R171 to R175): the source's magnitude calculation as a
number, and the value of SX24 as the library's `signExtend`. -/

namespace Sys2Proof.Machine

/-! ## The magnitude -/

/-- The mask keeps the complement of the low 23 bits, whatever bit 23 is. -/
theorem maskedComplement_toNat (u : U24) :
    ((~~~ (u.zeroExtend 32)) &&& 0x7FFFFF#32).toNat = 0x7FFFFF - (u.extractLsb' 0 23).toNat := by
  have hmask : ∀ n : Nat, n &&& 0x7FFFFF = n % 2 ^ 23 := (Nat.and_two_pow_sub_one_eq_mod · 23)
  have hlt := u.isLt
  have hwide : (u.zeroExtend 32).toNat = u.toNat := BitVec.toNat_setWidth_of_le (by decide)
  rw [BitVec.toNat_and, BitVec.toNat_not, BitVec.toNat_ofNat, hwide, BitVec.extractLsb'_toNat,
    Nat.shiftRight_zero, Nat.mod_eq_of_lt (by decide), hmask]
  omega

/-- Adding 1 does not carry out of the word: the magnitude is at most `2^23`. -/
theorem sx24Magnitude_toNat (u : U24) :
    (sx24Magnitude u).toNat = 0x800000 - (u.extractLsb' 0 23).toNat := by
  have hlow := (u.extractLsb' 0 23).isLt
  rw [sx24Magnitude, BitVec.toNat_add, maskedComplement_toNat, BitVec.toNat_ofNat]
  omega

/-- Bit 23 weighs `2^23`, so `-(2^23 - t)` is `u - 2^24`. -/
theorem neg_sx24Magnitude_toNat {u : U24} (h : u.getLsbD 23 = true) :
    -((sx24Magnitude u).toNat : Int) = (u.toNat : Int) - 2 ^ 24 := by
  have hbit : 2 ^ 23 ≤ u.toNat := Nat.ge_two_pow_of_testBit h
  have hlt := u.isLt
  rw [sx24Magnitude_toNat, BitVec.extractLsb'_toNat, Nat.shiftRight_zero]
  omega

/-! ## The value -/

/-- The source's decode is `bits32(sext_32(u))`: a negated word holds the negated number (R172). -/
theorem sx24Value_eq_ofInt_sext32 (u : U24) : sx24Value u = BitVec.ofInt 32 (sext32 u) := by
  by_cases h : u.getLsbD 23 = true
  · calc sx24Value u = -sx24Magnitude u := by rw [sx24Value, if_pos h, BitVec.zero_sub]
      _ = BitVec.ofInt 32 (-((sx24Magnitude u).toNat : Int)) := by
        rw [BitVec.ofInt_neg, BitVec.ofInt_natCast, BitVec.ofNat_toNat, BitVec.setWidth_eq]
      _ = BitVec.ofInt 32 (sext32 u) := by rw [neg_sx24Magnitude_toNat h, sext32, if_pos h]
  · rw [sx24Value, sext32, if_neg h, if_neg h, BitVec.ofInt_natCast, BitVec.ofNat_toNat]

theorem sext32_eq_toInt (u : U24) : sext32 u = u.toInt := by
  rw [sext32, BitVec.toInt_eq_msb_cond, BitVec.msb_eq_getLsbD_last]
  rfl

theorem sx24Value_eq_signExtend (u : U24) : sx24Value u = u.signExtend 32 := by
  rw [sx24Value_eq_ofInt_sext32, sext32_eq_toInt, BitVec.signExtend]

theorem sx24Value_toInt (u : U24) : (sx24Value u).toInt = u.toInt := by
  rw [sx24Value_eq_signExtend, BitVec.toInt_signExtend_of_le (by decide)]

theorem sx24Value_upperBits (u : U24) {k : Nat} (hk : k < 8) :
    (sx24Value u).getLsbD (24 + k) = u.getLsbD 23 := by
  have hword : 24 + k < 32 := by omega
  have hsign : ¬ 24 + k < 24 := by omega
  rw [sx24Value_eq_signExtend, BitVec.getLsbD_signExtend, decide_eq_true hword, Bool.true_and,
    if_neg hsign, BitVec.msb_eq_getLsbD_last]

theorem sx24Value_low24 (u : U24) : (sx24Value u).extractLsb' 0 24 = u := by
  apply BitVec.eq_of_getLsbD_eq
  intro k hk
  have hword : k < 32 := by omega
  rw [sx24Value_eq_signExtend, BitVec.getLsbD_extractLsb', BitVec.getLsbD_signExtend, Nat.zero_add,
    decide_eq_true hk, decide_eq_true hword, if_pos hk, Bool.true_and, Bool.true_and]

/-- SX24 answers with its value, from any state (R170). -/
theorem exec_sx24_resData (s : State) (u : U24) :
    ∃ t, exec (.sx24 u) s = .next t ∧ t.resData = sx24Value u := ⟨_, rfl, rfl⟩

/-! ## The operand -/

/-- The three low bytes of a word, most significant first, put together again. -/
theorem Client.resultOperand_bytes (w : Word32) :
    Client.resultOperand (w.extractLsb' 16 8) (w.extractLsb' 8 8) (w.extractLsb' 0 8) =
      w.extractLsb' 0 24 := by
  have hhigh : w.extractLsb' 16 8 ++ w.extractLsb' 8 8 = w.extractLsb' 8 16 :=
    BitVec.extractLsb'_append_extractLsb'_eq_extractLsb' rfl
  rw [Client.resultOperand, hhigh]
  exact BitVec.extractLsb'_append_extractLsb'_eq_extractLsb' rfl

/-- 24 bits hold every value of the range. -/
theorem toInt_low24_ofInt {v : Int} (hlo : -2 ^ 23 ≤ v) (hhi : v ≤ 2 ^ 23 - 1) :
    ((BitVec.ofInt 32 v).extractLsb' 0 24).toInt = v := by
  have hword : (BitVec.ofInt 32 v).toInt = v :=
    BitVec.toInt_ofInt_eq_self (by decide) (by omega) (by omega)
  rw [← BitVec.setWidth_eq_extractLsb' (by decide),
    ← BitVec.signExtend_eq_setWidth_of_le _ (by decide),
    BitVec.toInt_signExtend_eq_toInt_bmod_of_le _ (by decide), hword]
  exact Int.bmod_eq_of_le (by omega) (by omega)

end Sys2Proof.Machine
end

section
/-! The statements about the sign-extender. -/

namespace Sys2Proof.Machine

/-- Settles O50. The masked complement of the low 23 bits plus 1 is their distance to `2^23`, which bit 23
makes the distance of `u` to `2^24`. -/
theorem magnitudeDecodeIsSignExtension : Obligations.MagnitudeDecodeIsSignExtension := by
  refine ⟨fun u h => ⟨maskedComplement_toNat u, sx24Magnitude_toNat u, neg_sx24Magnitude_toNat h⟩,
    fun s u => ?_⟩
  obtain ⟨t, hexec, hres⟩ := exec_sx24_resData s u
  exact ⟨t, hexec, hres.trans (sx24Value_eq_ofInt_sext32 u), hres.trans (sx24Value_eq_signExtend u)⟩

/-- Settles O51. The result is the operand as a signed number, so its range is that of 24 bits. -/
theorem sx24RangeAndForm : Obligations.Sx24RangeAndForm := by
  intro s u
  obtain ⟨t, hexec, hres⟩ := exec_sx24_resData s u
  refine ⟨t, hexec, ?_⟩
  rw [hres, sx24Value_toInt]
  exact ⟨u.le_toInt, Int.le_sub_one_of_lt u.toInt_lt, fun k => sx24Value_upperBits u,
    sx24Value_low24 u⟩

/-- Settles O52. The three bytes are the low 24 bits of the value, and the low 24 bits of a result are the
operand it came from. -/
theorem sx24RoundTrip : Obligations.Sx24RoundTrip := by
  refine ⟨fun s v hlo hhi => ?_, fun s t u h => ?_⟩
  · rw [Client.resultOperand_bytes]
    obtain ⟨t, hexec, hres⟩ := exec_sx24_resData s ((BitVec.ofInt 32 v).extractLsb' 0 24)
    exact ⟨t, hexec, by rw [hres, sx24Value_toInt, toInt_low24_ofInt hlo hhi]⟩
  · obtain ⟨t₁, hexec, hres⟩ := exec_sx24_resData s u
    obtain rfl : t₁ = t := Host.Outcome.next.inj (hexec.symm.trans h)
    rw [hres, sx24Value_low24]
    exact exec_sx24_resData t₁ u

end Sys2Proof.Machine
end

section
/-! SUPPORT. What a FRAME leaves in the buffer (44_framer.md R181, R182): it stores to no address twice, so
every store can be read back, the bytes that do not depend on a channel among them. -/

namespace Sys2Proof.Machine

/-! ## Reading a list of writes back -/

/-- Where no address is written twice, every written byte can be read back. -/
theorem Memory.read_writeAll_of_mem {m : Memory} {w : List (Nat × Byte)} {a : Nat} {b : Byte}
    (h : Memory.wf m = true) (hw : ∀ c ∈ w, c.1 < 24) (hnodup : (w.map Prod.fst).Nodup)
    (hab : (a, b) ∈ w) : Memory.read (Memory.writeAll m w) a = b := by
  induction w generalizing m with
  | nil => exact absurd hab List.not_mem_nil
  | cons c w ih =>
    obtain ⟨x, y⟩ := c
    have hwf : Memory.wf (Memory.write m x y) = true := Memory.wf_write h (hw (x, y) (by simp))
    have hw' : ∀ d ∈ w, d.1 < 24 := fun d hd => hw d (by simp [hd])
    obtain ⟨hx, hnodup'⟩ := List.nodup_cons.mp hnodup
    rw [Memory.writeAll_cons]
    rcases List.mem_cons.mp hab with heq | hmem
    · obtain ⟨rfl, rfl⟩ := Prod.mk.inj heq
      rw [Memory.read_writeAll_other hwf hw' hx, Memory.read_write h, if_pos rfl]
    · exact ih hwf hw' hnodup' hmem

/-! ## The bytes of the buffer -/

@[simp] theorem Memory.bytes_length (m : Memory) : (Memory.bytes m).length = 24 := by
  simp [Memory.bytes]

theorem Memory.bytes_getElem? (m : Memory) {a : Nat} (ha : a < 24) :
    (Memory.bytes m)[a]? = some (Memory.read m a) := by
  simp [Memory.bytes, ha]

theorem Memory.bytes_take_three (m : Memory) :
    (Memory.bytes m).take 3 = [Memory.read m 0, Memory.read m 1, Memory.read m 2] := rfl

theorem Memory.bytes_drop_22 (m : Memory) :
    (Memory.bytes m).drop 22 = [Memory.read m 22, Memory.read m 23] := rfl

/-! ## The stores of a FRAME -/

theorem frameStoreAddrs_nodup (defect : Bool) (c1 c2 c3 c4 : Word32) :
    (frameStoreAddrs defect c1 c2 c3 c4).Nodup := by
  rw [frameStoreAddrs_eq]
  cases defect <;> decide

/-- The header, the tags and the trailer at their offsets (R188). -/
def frameFixedBytes : List (Nat × Byte) :=
  [(0, 0xAA#8), (1, 0xBB#8), (2, 0x01#8), (7, 0x02#8), (12, 0x03#8), (17, 0x04#8), (22, 0xCC#8),
    (23, 0xDD#8)]

/-- A FRAME stores the header, the tags and the trailer in both modes, whatever its operands. -/
theorem frameFixedBytes_subset (defect : Bool) (c1 c2 c3 c4 : Word32) :
    frameFixedBytes ⊆ frameStores defect c1 c2 c3 c4 := by
  cases defect <;> simp [frameFixedBytes, frameStores, channelStores, tagOffset]

/-- Each store of a FRAME stands in the buffer after it. -/
theorem State.writeFrame_read_of_mem {s : State} {c1 c2 c3 c4 : Word32} {a : Nat} {b : Byte}
    (h : Memory.wf s.frame = true) (hab : (a, b) ∈ frameStores s.cfg.frameLsbDefect c1 c2 c3 c4) :
    Memory.read (s.writeFrame c1 c2 c3 c4).frame a = b :=
  Memory.read_writeAll_of_mem h (frameStores_inside _ c1 c2 c3 c4)
    (frameStoreAddrs_nodup _ c1 c2 c3 c4) hab

theorem State.writeFrame_read_fixed {s : State} (h : Memory.wf s.frame = true)
    (c1 c2 c3 c4 : Word32) {a : Nat} {b : Byte} (hab : (a, b) ∈ frameFixedBytes) :
    Memory.read (s.writeFrame c1 c2 c3 c4).frame a = b :=
  State.writeFrame_read_of_mem h (frameFixedBytes_subset _ c1 c2 c3 c4 hab)

/-! ## The hand-off -/

@[simp] theorem State.emitHandoff_frame (s : State) : s.emitHandoff.frame = s.frame := rfl
@[simp] theorem State.emitHandoff_trace (s : State) :
    s.emitHandoff.trace = s.trace ++ [.handoff (Memory.bytes s.frame)] := rfl

/-- A FRAME that is not held leaves the written buffer and hands off its bytes (R181, R185). -/
theorem exec_frame_free_handoff {s t : State} {c1 c2 c3 c4 : Word32} (hown : s.frameOwned = false)
    (h : exec (.frame c1 c2 c3 c4) s = .next t) :
    t.frame = (s.writeFrame c1 c2 c3 c4).frame ∧
    t.trace = s.trace ++ [.handoff (Memory.bytes t.frame)] := by
  obtain rfl := Host.Outcome.next.inj ((exec_frame_free hown c1 c2 c3 c4).symm.trans h)
  simp

end Sys2Proof.Machine
end

section
/-! The statement about the shape of a frame. -/

namespace Sys2Proof.Machine

/-- Settles O54. The event carries the bytes of the written buffer, and the header, the tags and the trailer
are stores of every FRAME, whose addresses are all different. -/
theorem frameShape : Obligations.FrameShape := by
  intro s t ch1 ch2 ch3 ch4 hwf hown hexec
  obtain ⟨hframe, htrace⟩ := exec_frame_free_handoff hown hexec
  have hfixed : ∀ c ∈ frameFixedBytes, Memory.read t.frame c.1 = c.2 := fun c hc => by
    rw [hframe, State.writeFrame_read_fixed hwf ch1 ch2 ch3 ch4 hc]
  simp only [frameFixedBytes, List.forall_mem_cons] at hfixed
  obtain ⟨h0, h1, h2, h7, h12, h17, h22, h23, -⟩ := hfixed
  refine ⟨_, htrace, rfl, Memory.bytes_length _, ?_, ?_, ?_, ?_, ?_⟩
  · rw [Memory.bytes_take_three, h0, h1, h2]
  · rw [Memory.bytes_getElem? _ (by decide), h7]
  · rw [Memory.bytes_getElem? _ (by decide), h12]
  · rw [Memory.bytes_getElem? _ (by decide), h17]
  · rw [Memory.bytes_drop_22, h22, h23]

end Sys2Proof.Machine
end

section
/-! SUPPORT. The status indications `bad_op` and `xfer_timeouts` (45_status.md R202): what every operation
and every edge besides it does with them. -/

namespace Sys2Proof.Machine

/-- From `s` to `t` neither indication was cleared (45_status.md R202). -/
def State.ClearsNoIndication (s t : State) : Prop :=
  (s.badOp = true → t.badOp = true) ∧ s.xferTimeouts.toNat ≤ t.xferTimeouts.toNat

theorem State.clearsNoIndication_of_eq {s t : State} (hbad : t.badOp = s.badOp)
    (hcount : t.xferTimeouts = s.xferTimeouts) : s.ClearsNoIndication t :=
  ⟨fun h => hbad.trans h, by rw [hcount]⟩

/-! ## The ends of an operation -/

@[simp] theorem State.finishDelay_badOp (s : State) (n : BitVec 16) :
    (s.finishDelay n).badOp = s.badOp := rfl
@[simp] theorem State.finishDelay_xferTimeouts (s : State) (n : BitVec 16) :
    (s.finishDelay n).xferTimeouts = s.xferTimeouts := rfl

@[simp] theorem State.assertSelect_badOp (s : State) : s.assertSelect.badOp = s.badOp := by
  rw [s.assertSelect_eq]
@[simp] theorem State.assertSelect_xferTimeouts (s : State) :
    s.assertSelect.xferTimeouts = s.xferTimeouts := by
  rw [s.assertSelect_eq]

@[simp] theorem State.releaseSelect_badOp (s : State) : s.releaseSelect.badOp = s.badOp := by
  rw [s.releaseSelect_eq]
@[simp] theorem State.releaseSelect_xferTimeouts (s : State) :
    s.releaseSelect.xferTimeouts = s.xferTimeouts := by
  rw [s.releaseSelect_eq]

@[simp] theorem State.emitHandoff_badOp (s : State) : s.emitHandoff.badOp = s.badOp := rfl
@[simp] theorem State.emitHandoff_xferTimeouts (s : State) :
    s.emitHandoff.xferTimeouts = s.xferTimeouts := rfl

@[simp] theorem State.reservedOp_badOp (s : State) : s.reservedOp.badOp = true := rfl
@[simp] theorem State.reservedOp_xferTimeouts (s : State) :
    s.reservedOp.xferTimeouts = s.xferTimeouts := rfl

/-! ## Exchanges -/

/-- The counter saturates, so one more timeout never wraps it (40_bus_primitive.md R101). -/
theorem State.le_countTimeout_xferTimeouts (s : State) :
    s.xferTimeouts.toNat ≤ s.countTimeout.xferTimeouts.toNat := by
  rw [State.countTimeout_xferTimeouts]
  by_cases hmax : s.xferTimeouts = 0xFFFF#16
  · rw [if_pos hmax, hmax]
  · rw [if_neg hmax]
    bv_omega

/-- A timed-out exchange counts one more timeout; one that received a byte leaves the counter alone. -/
theorem State.finishXfer_clearsNoIndication (s : State) (tx : Byte) (r : Xfer) :
    s.ClearsNoIndication (s.finishXfer tx r) := by
  cases r with
  | ok rx => exact State.clearsNoIndication_of_eq rfl rfl
  | timeout p => exact ⟨id, (s.abandonXfer p).le_countTimeout_xferTimeouts⟩

theorem State.exchange_clearsNoIndication (s : State) (tx : Byte) :
    s.ClearsNoIndication (s.exchange tx) := by
  simpa [State.ClearsNoIndication, State.exchange] using
    (s.elapseXfer s.busXfer).finishXfer_clearsNoIndication tx s.busXfer

/-! ## Operations -/

/-- No operation clears an indication: an exchange may count `xfer_timeouts` up, a reserved code sets
`bad_op`, and the others write neither. -/
theorem exec_clearsNoIndication {i : Instr} {s t : State} (h : exec i s = .next t) :
    s.ClearsNoIndication t := by
  rcases exec_cases h with ⟨-, tx, rfl⟩ | ⟨n, -, rfl⟩ | ⟨-, rfl⟩ | ⟨-, rfl⟩ | ⟨-, rfl⟩ |
    ⟨-, -, rfl⟩ | ⟨-, -, rfl⟩ | ⟨u, -, rfl⟩ | ⟨c1, c2, c3, c4, -, -, rfl⟩ |
    ⟨c1, c2, c3, c4, -, -, rfl⟩ | ⟨-, rfl⟩ | ⟨-, rfl⟩
  case inl => exact s.exchange_clearsNoIndication tx
  all_goals simp [State.ClearsNoIndication]

/-! ## Steps -/

@[simp] theorem State.acceptEdge_badOp (s : State) (p : Presented) :
    (s.acceptEdge p).badOp = s.badOp := by
  simp [State.acceptEdge, s.clearPulses.accept_frame p.word]
@[simp] theorem State.acceptEdge_xferTimeouts (s : State) (p : Presented) :
    (s.acceptEdge p).xferTimeouts = s.xferTimeouts := by
  simp [State.acceptEdge, s.clearPulses.accept_frame p.word]

@[simp] theorem State.waitEdge_badOp (s : State) : s.waitEdge.badOp = s.badOp := by
  simp [State.waitEdge]
@[simp] theorem State.waitEdge_xferTimeouts (s : State) :
    s.waitEdge.xferTimeouts = s.xferTimeouts := by
  simp [State.waitEdge]

@[simp] theorem State.finishEdge_badOp (s : State) : s.finishEdge.badOp = s.badOp := rfl
@[simp] theorem State.finishEdge_xferTimeouts (s : State) :
    s.finishEdge.xferTimeouts = s.xferTimeouts := rfl

/-- A step without reset clears no more than the operation it runs, if it runs one. -/
theorem runStep_clearsNoIndication {next : Inputs} {s t : State} (hrst : s.inp.rstN = true)
    (h : runStep next s = .next t) : s.ClearsNoIndication t := by
  rcases runStep_cases h with ⟨hreset, -⟩ | ⟨-, -, -, rfl⟩ | ⟨-, -, p, u, -, hexec, rfl⟩ |
    ⟨-, -, u, hexec, rfl⟩
  · simp [hrst] at hreset
  · exact State.clearsNoIndication_of_eq (by simp) (by simp)
  · simpa [State.ClearsNoIndication] using exec_clearsNoIndication hexec
  · simpa [State.ClearsNoIndication] using exec_clearsNoIndication hexec

/-- A step with `rst_n = 0` is the reset edge (60_exceptions.md R226). -/
theorem runStep_reset {next : Inputs} {s : State} (hrst : s.inp.rstN = false) :
    runStep next s = .next (s.resetEdge.advance next) := by
  simp [runStep, hrst]

end Sys2Proof.Machine
end

section
/-! The statement about the status indications. -/

namespace Sys2Proof.Machine

/-- Settles O28. Without reset a step writes the indications only through the operation it runs, and none
clears one: the timeout counter saturates instead of wrapping. -/
theorem onlyResetClearsIndications : Obligations.OnlyResetClearsIndications := by
  refine fun s t hstep => ⟨fun hrst => runStep_clearsNoIndication hrst hstep, fun hrst => ?_⟩
  obtain rfl := Host.Outcome.next.inj ((runStep_reset hrst).symm.trans hstep)
  simp

end Sys2Proof.Machine
end

section
/-! SUPPORT. The edges on which two events fall together (60_exceptions.md R226): a held FRAME with `tx_done`,
and the eighth sample with the watchdog limit. -/

namespace Sys2Proof.Machine

/-! ## A held FRAME -/

/-- FRAME while TXC owns the buffer (44_framer.md R184). -/
theorem exec_frame_owned {s : State} (h : s.frameOwned = true) (c1 c2 c3 c4 : Word32) :
    exec (.frame c1 c2 c3 c4) s = .next (s.hold .frameWait) := by
  simp [exec, execFrame, h]

/-- The edge on which a held FRAME finds the buffer owned before the edge: it holds on, and `tx_done` is taken
besides. -/
theorem Clock.edge_frame_held {s : State} {p : Pins} (hfsm : s.fsm = .frameWait)
    (hop : s.curOp = 0x7#4) (hown : s.frameOwned = true) (hrst : p.rstN = true) :
    Clock.edge p s =
      ((s.clearPulses.hold .frameWait).txDoneEdge true p.txDone).syncEdge p.drdyN := by
  have hexec := exec_frame_owned (s := s.clearPulses) hown s.curArg0 s.curArg1 s.curArg2 s.curArg3
  have hinstr := State.latchedInstr_frame (s := s.clearPulses) hop
  rw [Clock.edge_run hrst, State.opEdge_meaning (s := s.clearPulses) (.inr hfsm), hinstr]
  simp [hexec, hown]

/-! ## The eighth sample at the watchdog limit -/

/-- An operation in XFER does on an edge what the transfer does (10_state.md R30). -/
theorem State.opEdge_xfer {s : State} (h : s.fsm = .xfer) (p : Pins) :
    s.opEdge p = s.xferEdge p.miso p.stall := by
  simp only [State.opEdge, h]

/-- An edge that counts a sample has shifted it in. -/
theorem State.transferEdge_shreg_of_sample {s : State} {miso stall : Bool}
    (h : (s.transferEdge miso stall).bitcnt = s.bitcnt + 1) :
    (s.transferEdge miso stall).shreg = shiftIn s.shreg miso := by
  rcases s.transferEdge_sample miso stall with ⟨hkept, -⟩ | ⟨-, -, hshift⟩
  · omega
  · exact hshift

/-- The edge that takes the eighth sample at the watchdog limit completes the transfer with the byte
received. -/
theorem Clock.edge_eighth_sample_at_limit {s : State} {p : Pins} (hfsm : s.fsm = .xfer)
    (hrst : p.rstN = true) (h7 : s.bitcnt = 7) (h8 : (s.transferEdge p.miso p.stall).bitcnt = 8)
    (hlimit : s.cfg.xferTimeoutCycles ≤ s.wdog + 1) :
    Clock.edge p s =
      (((s.transferEdge p.miso p.stall).clearPulses.finishXfer (operandByte s.curArg0)
        (.ok (shiftIn s.shreg p.miso))).txDoneEdge s.frameOwned p.txDone).syncEdge p.drdyN := by
  have hclear := s.transferEdge_clearPulses p.miso p.stall
  have hshift := State.transferEdge_shreg_of_sample (h8.trans (congrArg (· + 1) h7.symm))
  obtain ⟨-, -, -, -, -, -, -, -, -, hwdog⟩ := s.transferEdge_frame p.miso p.stall
  have hwins := State.xferEdge_sample_wins (s := s.clearPulses) (miso := p.miso) (stall := p.stall)
    (by simpa [hclear] using h8) (by simpa [hclear, hwdog] using hlimit)
  rw [Clock.edge_run hrst, State.opEdge_xfer (s := s.clearPulses) hfsm, hwins, hclear]
  simp [hshift]

end Sys2Proof.Machine
end

section
/-! The statement about events that fall on one clock edge. -/

namespace Sys2Proof.Machine

/-- Settles O47. A held FRAME tests the ownership that stood before the edge, so the edge of `tx_done` holds it
once more and the next one hands off; at the watchdog limit the eighth sample decides before the watchdog. -/
theorem simultaneousEvents : Obligations.SimultaneousEvents := by
  refine ⟨fun s p hrst => Clock.edge_reset hrst s, fun s p q hfsm hop hown hp hdone hq => ?_,
    fun s p hfsm hrst h7 h8 hlimit => ?_, fun s p hown => ?_⟩
  · have hheld := Clock.edge_frame_held hfsm hop hown hp
    have hfree := Clock.edge_frame_free (s := Clock.edge p s) (p := q) (.inr (by simp [hheld]))
      (by simp [hheld, hop]) (by simp [hheld, hdone]) hq
    refine ⟨by simp [hheld], by simp [hheld, hdone], by simp [hheld], by simp [hfree],
      by simp [hfree], ?_⟩
    rw [hfree]
    simp [hheld, Spec.frameAfter]
  · have hedge := Clock.edge_eighth_sample_at_limit hfsm hrst h7 h8 hlimit
    obtain ⟨-, -, -, -, hcs, -, -, htimeouts, htrace, -⟩ := s.transferEdge_frame p.miso p.stall
    rw [hedge, State.finishXfer_ok]
    exact ⟨by simp, by simp [htimeouts], by simp [zextByte], by simp [htrace, hcs]⟩
  · exact (Clock.edge_txDone_ignored hown p true).trans (Clock.edge_txDone_ignored hown p false).symm

end Sys2Proof.Machine
end

section
/-! SUPPORT. The ports that reset fixes, and an edge out of IDLE (70_reset_and_hazards.md R251, R252). -/

namespace Sys2Proof.Machine

/-! ## Ports -/

@[simp] theorem State.csN_eq (s : State) : s.csN = !s.csActive := rfl
@[simp] theorem State.done_eq (s : State) : s.done = s.doneR := rfl

/-- The buffer as reset leaves it reads zero at every address. -/
@[simp] theorem Memory.readPort_nil (addr : BitVec 5) : Memory.readPort [] addr = 0x00#8 := by
  simp [Memory.readPort, Memory.read]

/-- `op_ready = 0` while `rst_n = 0` (10_state.md R21). -/
theorem State.opReady_of_reset {u : State} (h : u.inp.rstN = false) : u.opReady = false := by
  simp [State.opReady, h]

/-- Acceptance needs `op_ready` (10_state.md R21). -/
theorem State.accepts_of_not_opReady {u : State} (h : u.opReady = false) : u.accepts = false := by
  simp [State.accepts, h]

/-- `op_ready = 1` in IDLE while `rst_n = 1` (10_state.md R21). -/
theorem State.opReady_of_idle {u : State} (hrst : u.inp.rstN = true) (hfsm : u.fsm = .idle) :
    u.opReady = true := by
  simp [State.opReady, hrst, hfsm]

/-! ## The edge out of IDLE -/

@[simp] theorem State.syncEdge_latchedWord (s : State) (d : Bool) :
    (s.syncEdge d).latchedWord = s.latchedWord := rfl

@[simp] theorem State.txDoneEdge_latchedWord (s : State) (o d : Bool) :
    (s.txDoneEdge o d).latchedWord = s.latchedWord := by
  simp [State.latchedWord]

/-- IDLE with an operation presented: the edge latches its word and starts it. -/
theorem Clock.edge_idle_some {s : State} {p : Pins} {w : CmdWord} (hfsm : s.fsm = .idle)
    (hrst : p.rstN = true) (hop : p.op = some w) :
    (Clock.edge p s).fsm = acceptFsm (fieldOpCode w) (fieldArg0 w) s.frameOwned ∧
    (Clock.edge p s).latchedWord = w := by
  rw [Clock.edge_run hrst, State.opEdge_idle_some (s := s.clearPulses) hfsm hop]
  simp

/-- IDLE with nothing presented: the edge stays in IDLE. -/
theorem Clock.edge_idle_none {s : State} {p : Pins} (hfsm : s.fsm = .idle) (hrst : p.rstN = true)
    (hop : p.op = none) : (Clock.edge p s).fsm = .idle := by
  rw [Clock.edge_run hrst, State.opEdge_idle_none (s := s.clearPulses) hfsm hop]
  simp [hfsm]

end Sys2Proof.Machine
end

section
/-! The statements about the ports in reset and the first edges after it. -/

namespace Sys2Proof.Machine

/-- Settles O48. An edge with `rst_n = 0` is the reset edge, which looks at no other pin. -/
theorem resetPorts : Obligations.ResetPorts := by
  intro s p hrst
  have hedge := Clock.edge_reset hrst s
  have hnoOp := Clock.edge_reset (p := { p with op := none }) hrst s
  refine ⟨by simp [hedge], by simp [hedge], by simp [hedge], by simp [hedge], by simp [hedge],
    by simp [hedge], by simp [hedge], fun u hu => ?_, hedge.trans hnoOp.symm⟩
  have hnotReady := State.opReady_of_reset hu
  exact ⟨hnotReady, State.accepts_of_not_opReady hnotReady⟩

/-- Settles O49. Reset leaves IDLE with the buffer free and both flops of the synchronizer at 1, so the next
edge accepts, and it moves the second flop only to the level that reset put into the first. -/
theorem firstEdgesAfterReset : Obligations.FirstEdgesAfterReset := by
  intro s p q hp hq
  rw [Clock.edge_reset hp s]
  have hidle : s.resetEdge.fsm = .idle := s.resetEdge_fsm
  obtain ⟨-, hsync⟩ := Clock.edge_shifts_synchronizer hq s.resetEdge
  exact ⟨hidle, fun u hrst hfsm => State.opReady_of_idle hrst (hfsm.trans hidle),
    fun w hop => Clock.edge_idle_some hidle hq hop, fun hop => Clock.edge_idle_none hidle hq hop,
    rfl, by simp [State.readySample, hsync]⟩

end Sys2Proof.Machine
end

section
/-! SUPPORT. What the encoder writes is what the decoder reads (30_encoding.md R71 to R75): the operand slices of
what the encoder widens, the command bytes, and the sixteen operation codes. -/

namespace Sys2Proof

open Machine

/-! ## Operand slices -/

@[simp] theorem operandByte_setWidth (b : Byte) : operandByte (b.setWidth 32) = b := by
  simp [operandByte, ← BitVec.setWidth_eq_extractLsb', BitVec.setWidth_setWidth_of_le]

@[simp] theorem operandCount_setWidth (n : BitVec 16) : operandCount (n.setWidth 32) = n := by
  simp [operandCount, ← BitVec.setWidth_eq_extractLsb', BitVec.setWidth_setWidth_of_le]

@[simp] theorem operandU24_setWidth (u : U24) : operandU24 (u.setWidth 32) = u := by
  simp [operandU24, ← BitVec.setWidth_eq_extractLsb', BitVec.setWidth_setWidth_of_le]

@[simp] theorem operandFlag_ite (a : Bool) : operandFlag (if a then 1#32 else 0#32) = a := by
  cases a <;> rfl

/-! ## Command bytes (42_bus_commands.md R142, R143) -/

@[simp] theorem decodeBus_wregByte (a : BitVec 4) :
    decodeBus (wregByte (a.setWidth 8)) = .ok (.wreg a) := by
  decide +revert

@[simp] theorem decodeBus_rregByte (a : BitVec 4) : decodeBus (rregByte a) = .ok (.rreg a) := by
  decide +revert

/-! ## Decoding what was encoded -/

/-- The encoder's word, or client byte, of an instruction decodes to the instruction. -/
@[simp] theorem decodePresented_encode (i : Instr) : decodePresented (encode i) = i := by
  cases i with
  | xchg tx => simp [encode, decodePresented, xchgWord, decodeFields]
  | delay n => simp [encode, decodePresented, decodeFields]
  | csel a => simp [encode, decodePresented, decodeFields]
  | sx24 u => simp [encode, decodePresented, decodeFields]
  | wreg a => simp [encode, decodePresented]
  | rreg a => simp [encode, decodePresented]
  | rdata | sync | wakeup | reset => rfl
  | _ => simp [encode, decodePresented, decodeFields]

end Sys2Proof
end

section
/-! The statement about decoding what was encoded. -/

namespace Sys2Proof

/-- Settles O2. Each operand slice undoes the widening of its operand, and the command bytes are told apart by
their upper halves. -/
theorem decodeOfEncode : Obligations.DecodeOfEncode := decodePresented_encode

end Sys2Proof
end

section
/-! SUPPORT. The bits an operation names (30_encoding.md R74): masking a command word masks each of its fields,
and an operand slice that is widened again is a masked operand. -/

namespace Sys2Proof

/-! ## Masks -/

/-- Masking a word with a word is masking field by field. -/
theorem packWord_and_packWord (c d : OpCode) (a0 a1 a2 a3 b0 b1 b2 b3 : Word32) :
    packWord c a0 a1 a2 a3 &&& packWord d b0 b1 b2 b3 =
      packWord (c &&& d) (a0 &&& b0) (a1 &&& b1) (a2 &&& b2) (a3 &&& b3) := by
  rw [packWord, packWord, packWord, BitVec.and_append, BitVec.and_append, BitVec.and_append,
    BitVec.and_append]

/-- A mask that keeps the code and masks operand 0 alone clears the other operands. -/
theorem packWord_and_operand0 (c : OpCode) (a0 a1 a2 a3 m : Word32) :
    packWord c a0 a1 a2 a3 &&& packWord 0xF#4 m 0#32 0#32 0#32 =
      packWord c (a0 &&& m) 0#32 0#32 0#32 := by
  have hcode : c &&& 0xF#4 = c := BitVec.and_allOnes
  rw [packWord_and_packWord, hcode]
  simp only [BitVec.and_zero]

/-- The low `n` bits of a word, widened again, are the word under the mask of `n` ones. -/
theorem setWidth_extractLsb'_eq_and (a : Word32) (n : Nat) :
    (a.extractLsb' 0 n).setWidth 32 = a &&& BitVec.ofNat 32 (2 ^ n - 1) := by
  apply BitVec.eq_of_getLsbD_eq
  intro i hi
  rw [BitVec.getLsbD_setWidth, BitVec.getLsbD_extractLsb', BitVec.getLsbD_and, BitVec.getLsbD_ofNat,
    Nat.testBit_two_pow_sub_one, Nat.zero_add]
  simp [hi, Bool.and_comm]

theorem setWidth_operandByte (a : Word32) : (operandByte a).setWidth 32 = a &&& 0xFF#32 :=
  setWidth_extractLsb'_eq_and a 8

theorem setWidth_operandCount (a : Word32) : (operandCount a).setWidth 32 = a &&& 0xFFFF#32 :=
  setWidth_extractLsb'_eq_and a 16

theorem setWidth_operandU24 (a : Word32) : (operandU24 a).setWidth 32 = a &&& 0xFFFFFF#32 :=
  setWidth_extractLsb'_eq_and a 24

theorem ite_operandFlag (a : Word32) :
    (if operandFlag a then 1#32 else 0#32) = a &&& 1#32 := by
  rw [operandFlag, BitVec.and_one_eq_setWidth_ofBool_getLsbD]
  cases a.getLsbD 0 <;> rfl

/-! ## Codes -/

/-- The sixteen operation codes. -/
theorem opCode_mem (c : OpCode) :
    c ∈ [0x0#4, 0x1#4, 0x2#4, 0x3#4, 0x4#4, 0x5#4, 0x6#4, 0x7#4, 0x8#4, 0x9#4, 0xA#4, 0xB#4, 0xC#4,
      0xD#4, 0xE#4, 0xF#4] := by
  decide +revert

/-- An operation with one operand, encoded, is its word masked to the code and the operand's bits. -/
theorem op_packWord_eq_and {a0 b m : Word32} (h : b = a0 &&& m) (c : OpCode) (a1 a2 a3 : Word32) :
    Presented.op (packWord c b 0#32 0#32 0#32) =
      .op (packWord c a0 a1 a2 a3 &&& packWord 0xF#4 m 0#32 0#32 0#32) := by
  rw [packWord_and_operand0, h]

/-- Encoding the operation a code and its operands decode to keeps the bits the code names. -/
theorem encode_decodeFields (c : OpCode) (a0 a1 a2 a3 : Word32) :
    encode (decodeFields c a0 a1 a2 a3) = .op (packWord c a0 a1 a2 a3 &&& Spec.namedBits c) := by
  have hcode := op_packWord_eq_and (BitVec.and_zero (x := a0)).symm (a1 := a1) (a2 := a2) (a3 := a3)
  have hmem := opCode_mem c
  simp only [List.mem_cons, List.not_mem_nil, or_false] at hmem
  rcases hmem with rfl | rfl | rfl | rfl | rfl | rfl | rfl | rfl | rfl | rfl | rfl | rfl | rfl |
    rfl | rfl | rfl
  · exact hcode _
  · exact op_packWord_eq_and (setWidth_operandByte a0) _ _ _ _
  · exact op_packWord_eq_and (setWidth_operandCount a0) _ _ _ _
  · exact op_packWord_eq_and (ite_operandFlag a0) _ _ _ _
  · exact hcode _
  · exact hcode _
  · exact op_packWord_eq_and (setWidth_operandU24 a0) _ _ _ _
  · exact congrArg Presented.op BitVec.and_allOnes.symm
  all_goals exact hcode _

end Sys2Proof
end

section
/-! SUPPORT. The rows of the opcode table (30_encoding.md R74): two rows of one format share no word, so a word
that matches a row matches no other. -/

namespace Sys2Proof

/-! ## Disjoint rows -/

/-- No word belongs to two rows: rows whose patterns agree under both masks are the same row. -/
abbrev OpRow.Disjoint (rows : List OpRow) : Prop :=
  ∀ r ∈ rows, ∀ r' ∈ rows, r.pattern &&& r'.mask = r'.pattern &&& r.mask → r = r'

theorem opcodeRowsH_disjoint : OpRow.Disjoint opcodeRowsH := by decide

theorem opcodeRowsBus_disjoint : OpRow.Disjoint opcodeRowsBus := by decide

theorem OpRow.matches_iff (r : OpRow) (b : Byte) : r.matches b = true ↔ b &&& r.mask = r.pattern :=
  beq_iff_eq

/-- The byte a row and another row both match fixes their patterns under both masks. -/
theorem OpRow.pattern_and_mask_of_matches {r r' : OpRow} {b : Byte} (h : r.matches b = true)
    (h' : r'.matches b = true) : r.pattern &&& r'.mask = r'.pattern &&& r.mask := by
  rw [OpRow.matches_iff] at h h'
  rw [← h, ← h', BitVec.and_assoc, BitVec.and_assoc, BitVec.and_comm r.mask]

/-- Among disjoint rows the row a byte matches is the one row it matches. -/
theorem OpRow.matches_iff_eq {rows : List OpRow} (hdisj : OpRow.Disjoint rows) {r : OpRow}
    (hr : r ∈ rows) {b : Byte} (h : r.matches b = true) :
    ∀ r' ∈ rows, r'.matches b = true ↔ r' = r := fun r' hr' =>
  ⟨fun h' => hdisj r' hr' r hr (OpRow.pattern_and_mask_of_matches h' h), fun e => e ▸ h⟩

/-! ## The row of what is decoded -/

/-- The row of the operation a code decodes to: the code itself, under a mask of four ones. -/
theorem decodeFields_row (c : OpCode) (a0 a1 a2 a3 : Word32) :
    (decodeFields c a0 a1 a2 a3).row = ⟨.H, c.setWidth 8, 0xF#8⟩ := by
  have hmem := opCode_mem c
  simp only [List.mem_cons, List.not_mem_nil, or_false] at hmem
  rcases hmem with rfl | rfl | rfl | rfl | rfl | rfl | rfl | rfl | rfl | rfl | rfl | rfl | rfl |
    rfl | rfl | rfl <;> rfl

theorem codeRow_mem_opcodeRowsH (c : OpCode) :
    (⟨.H, c.setWidth 8, 0xF#8⟩ : OpRow) ∈ opcodeRowsH := by
  decide +revert

/-- The low byte of a command word under a mask of four ones is its code. -/
theorem lowByte_and_codeMask (w : CmdWord) :
    w.extractLsb' 0 8 &&& 0xF#8 = (fieldOpCode w).setWidth 8 := by
  apply BitVec.eq_of_getLsbD_eq
  intro i hi
  have hmask : (0xF#8).getLsbD i = decide (i < 4) := by decide +revert
  rw [BitVec.getLsbD_and, BitVec.getLsbD_extractLsb', hmask, fieldOpCode, BitVec.getLsbD_setWidth,
    BitVec.getLsbD_extractLsb', Nat.zero_add]
  simp [hi, Bool.and_comm]

theorem decodeWord_row_matches (w : CmdWord) :
    (decodeWord w).row.matches (w.extractLsb' 0 8) = true := by
  rw [decodeWord, decodeFields_row, OpRow.matches_iff]
  exact lowByte_and_codeMask w

/-- A byte that is decoded as a command matches the command's row of format BUS. -/
theorem decodeBus_ok {b : Byte} {i : Instr} (h : decodeBus b = .ok i) :
    i.row ∈ opcodeRowsBus ∧ i.row.matches b = true := by
  unfold decodeBus at h
  split at h
  case isTrue hb => cases h; exact ⟨by simp [Instr.row, opcodeRowsBus], beq_iff_eq.mpr hb⟩
  split at h
  case isTrue hb => cases h; exact ⟨by simp [Instr.row, opcodeRowsBus], beq_iff_eq.mpr hb⟩
  split at h
  case isTrue hb => subst hb; cases h; decide
  split at h
  case isTrue hb => subst hb; cases h; decide
  split at h
  case isTrue hb => subst hb; cases h; decide
  split at h
  case isTrue hb => subst hb; cases h; decide
  cases h

/-- A byte that is rejected matches no row of format BUS. -/
theorem decodeBus_error {b : Byte} {r : DecodeRefusal} (h : decodeBus b = .error r) :
    ∀ r ∈ opcodeRowsBus, r.matches b = false := by
  have hmask : b &&& 0xFF#8 = b := BitVec.and_allOnes
  unfold decodeBus at h
  split_ifs at h with hw hr hd hs hu ht
  simp [opcodeRowsBus, OpRow.matches, hmask, hw, hr, hd, hs, hu, ht]

end Sys2Proof
end

section
/-! The statements about words and their rows. -/

namespace Sys2Proof

/-- Settles O1. The decoder evaluates on each word. -/
theorem decodesWordsOfSpec : Obligations.DecodesWordsOfSpec := by
  unfold Obligations.DecodesWordsOfSpec
  decide

/-- Settles O3. A word is its fields, and encoding the operation of a code and its operands keeps the bits the
code names. -/
theorem encodeOfDecodeKeepsNamedBits : Obligations.EncodeOfDecodeKeepsNamedBits := by
  intro w
  calc encode (decodeWord w)
      = .op (packWord (fieldOpCode w) (fieldArg0 w) (fieldArg1 w) (fieldArg2 w) (fieldArg3 w) &&&
          Spec.namedBits (fieldOpCode w)) := encode_decodeFields _ _ _ _ _
    _ = .op (w &&& Spec.namedBits (fieldOpCode w)) := by rw [Machine.packWord_fields]

/-- Settles O4. What is decoded matches its own row, and the rows of a format are disjoint. -/
theorem oneRowPerWord : Obligations.OneRowPerWord := by
  refine ⟨fun w => ?_, fun b => ?_⟩
  · have hmem : (decodeWord w).row ∈ opcodeRowsH := by
      rw [decodeWord, decodeFields_row]
      exact codeRow_mem_opcodeRowsH _
    exact ⟨hmem, OpRow.matches_iff_eq opcodeRowsH_disjoint hmem (decodeWord_row_matches w)⟩
  · cases h : decodeBus b with
    | ok i =>
      obtain ⟨hmem, hmatch⟩ := decodeBus_ok h
      exact ⟨hmem, OpRow.matches_iff_eq opcodeRowsBus_disjoint hmem hmatch⟩
    | error r => exact decodeBus_error h

end Sys2Proof
end

section
/-! SUPPORT. The next state of each operation as a record of what it changes (40_bus_primitive.md to
45_status.md), and the outcomes of all operations in these terms. -/

namespace Sys2Proof.Machine

open Sys2Proof

/-! ## Exchanges -/

theorem State.exchange_received {s : State} (h : s.inp.xferStall = false) (tx : Byte) :
    s.exchange tx = Spec.afterExchange tx s.inp.misoByte s := by
  simp only [State.exchange, State.busXfer, h]
  rfl

theorem State.exchange_stalled {s : State} (h : s.inp.xferStall = true) (tx : Byte) :
    s.exchange tx = Spec.afterTimeout tx (Config.stalled s.tick) s := by
  simp only [State.exchange, State.busXfer, h]
  rfl

theorem State.exchange_eq_afterXchg (s : State) (tx : Byte) :
    s.exchange tx = Spec.afterXchg tx s := by
  cases h : s.inp.xferStall with
  | false => simp [Spec.afterXchg, h, State.exchange_received h]
  | true => simp [Spec.afterXchg, h, State.exchange_stalled h]

/-- The byte of WREG is its code over its address (42_bus_commands.md R142). -/
theorem wregByte_eq_append (a : BitVec 4) : wregByte (a.zeroExtend 8) = 0x5#4 ++ a := by
  decide +revert

/-- The byte of RREG is its code over its start address (42_bus_commands.md R143). -/
theorem rregByte_eq_append (a : BitVec 4) : rregByte a = 0x1#4 ++ a := by
  decide +revert

/-! ## Waits, chip select and results -/

theorem State.finishDelay_waitUs (s : State) (n : BitVec 16) :
    (s.waitUs n.toNat).finishDelay n =
      Spec.afterResult 0#32 [.delay n.toNat] (Spec.waited n.toNat s) := rfl

theorem State.complete_assertSelect (s : State) :
    s.assertSelect.complete 0#32 =
      Spec.afterResult 0#32 (if s.csActive then [] else [.csAssert]) { s with csActive := true } := by
  rw [s.assertSelect_eq]
  rfl

theorem State.complete_releaseSelect (s : State) :
    (s.waitUs Config.guardUs).releaseSelect.complete 0#32 =
      Spec.afterResult 0#32 (if s.csActive then [.guard 2, .csRelease] else [.guard 2])
        { Spec.waited 2 s with csActive := false } := by
  rw [(s.waitUs Config.guardUs).releaseSelect_eq]
  rfl

theorem State.complete_emit (s : State) (e : Event) (res : Word32) :
    (s.emit e).complete res = Spec.afterResult res [e] s := rfl

theorem State.complete_eq_afterResult (s : State) (res : Word32) :
    s.complete res = Spec.afterResult res [] s := by
  rw [Spec.afterResult, List.append_nil]
  rfl

theorem State.reservedOp_eq (s : State) :
    s.reservedOp = Spec.afterResult 0#32 [] { s with badOp := true } :=
  s.setBadOp.complete_eq_afterResult 0#32

theorem State.complete_handoff (s : State) (c1 c2 c3 c4 : Word32) :
    (s.writeFrame c1 c2 c3 c4).handoff.emitHandoff.complete 0#32 =
      Spec.afterFrame c1 c2 c3 c4 s := by
  simp only [Spec.afterFrame, Spec.frameAfter, State.complete, State.emitHandoff, State.emit,
    State.handoff, State.writeFrame]

/-- The result of RDYT is the sample, one bit wide. -/
theorem State.zextBool_readySample (s : State) :
    zextBool s.readySample = if s.drdySync then 0#32 else 1#32 := by
  cases h : s.drdySync <;> simp [zextBool, State.readySample, h]

/-! ## The fields of the status word (10_state.md R31) -/

theorem State.statusWord_low16 (s : State) : s.statusWord.extractLsb' 0 16 = s.xferTimeouts := by
  rw [← BitVec.setWidth_eq_extractLsb' (by decide), State.statusWord, BitVec.setWidth_append_eq_right]

theorem State.statusWord_bit16 (s : State) : s.statusWord.getLsbD 16 = s.badOp := by
  simp only [State.statusWord, BitVec.getLsbD_append]
  simp

theorem State.statusWord_bit17 (s : State) : s.statusWord.getLsbD 17 = s.frameOwned := by
  simp only [State.statusWord, BitVec.getLsbD_append]
  simp

theorem State.statusWord_bit18 (s : State) : s.statusWord.getLsbD 18 = s.csActive := by
  simp only [State.statusWord, BitVec.getLsbD_append]
  simp

theorem State.statusWord_bit20 (s : State) : s.statusWord.getLsbD 20 = s.cfg.frameLsbDefect := by
  simp only [State.statusWord, BitVec.getLsbD_append]
  simp

theorem State.statusWord_high11 (s : State) : s.statusWord.extractLsb' 21 11 = 0#11 := by
  apply BitVec.eq_of_getLsbD_eq
  intro i hi
  have h16 : ¬ 21 + i < 16 := by omega
  have h17 : ¬ 21 + i - 16 < 1 := by omega
  have h18 : ¬ 21 + i - 16 - 1 < 1 := by omega
  have h19 : ¬ 21 + i - 16 - 1 - 1 < 1 := by omega
  have h20 : ¬ 21 + i - 16 - 1 - 1 - 1 < 1 := by omega
  have h21 : ¬ 21 + i - 16 - 1 - 1 - 1 - 1 < 1 := by omega
  simp only [State.statusWord, BitVec.getLsbD_extractLsb', BitVec.getLsbD_append, h16, h17, h18, h19,
    h20, h21, if_false, BitVec.getLsbD_zero, Bool.and_false]

/-! ## Every operation -/

/-- What an operation that answers `t` has changed, by what the operation is: the two ends of an exchange, the
waits, chip select, a result with its events, the hand-off, a hold, a reserved code. -/
theorem exec_record_cases {i : Instr} {s t : State} (h : exec i s = .next t) :
    (i.opCode = 0x1#4 ∧ s.inp.xferStall = false ∧
      ∃ tx, t = Spec.afterExchange tx s.inp.misoByte s) ∨
    (i.opCode = 0x1#4 ∧ s.inp.xferStall = true ∧
      ∃ tx, t = Spec.afterTimeout tx (Config.stalled s.tick) s) ∨
    (∃ n, i = .delay n ∧ t = Spec.afterResult 0#32 [.delay n.toNat] (Spec.waited n.toNat s)) ∨
    (i = .csel true ∧ t = Spec.afterResult 0#32 (if s.csActive then [] else [.csAssert])
      { s with csActive := true }) ∨
    (i = .csel false ∧ t = Spec.afterResult 0#32
      (if s.csActive then [.guard 2, .csRelease] else [.guard 2])
      { Spec.waited 2 s with csActive := false }) ∨
    (∃ res events, i.isReserved = false ∧ t = Spec.afterResult res events s) ∨
    (∃ c1 c2 c3 c4, i = .frame c1 c2 c3 c4 ∧ s.frameOwned = false ∧
      t = Spec.afterFrame c1 c2 c3 c4 s) ∨
    (i = .rdyw ∧ s.readySample = false ∧ t = s.hold .rdyWait) ∨
    (∃ c1 c2 c3 c4, i = .frame c1 c2 c3 c4 ∧ s.frameOwned = true ∧ t = s.hold .frameWait) ∨
    (i.isReserved = true ∧ t = Spec.afterResult 0#32 [] { s with badOp := true }) := by
  rcases exec_cases h with ⟨hi, tx, rfl⟩ | ⟨n, hi, rfl⟩ | ⟨hi, rfl⟩ | ⟨hi, rfl⟩ | ⟨rfl, rfl⟩ |
    ⟨rfl, -, rfl⟩ | ⟨hi, hr, rfl⟩ | ⟨u, rfl, rfl⟩ | ⟨c1, c2, c3, c4, hi, ho, rfl⟩ |
    ⟨c1, c2, c3, c4, hi, ho, rfl⟩ | ⟨rfl, rfl⟩ | ⟨hi, rfl⟩
  · cases hs : s.inp.xferStall with
    | false => exact .inl ⟨hi, rfl, tx, State.exchange_received hs tx⟩
    | true => exact .inr (.inl ⟨hi, rfl, tx, State.exchange_stalled hs tx⟩)
  · exact .inr (.inr (.inl ⟨n, hi, s.finishDelay_waitUs n⟩))
  · exact .inr (.inr (.inr (.inl ⟨hi, s.complete_assertSelect⟩)))
  · exact .inr (.inr (.inr (.inr (.inl ⟨hi, s.complete_releaseSelect⟩))))
  · exact .inr (.inr (.inr (.inr (.inr (.inl ⟨_, _, rfl, s.complete_emit _ _⟩)))))
  · exact .inr (.inr (.inr (.inr (.inr (.inl ⟨_, _, rfl, s.complete_emit _ _⟩)))))
  · exact .inr (.inr (.inr (.inr (.inr (.inr (.inr (.inl ⟨hi, hr, rfl⟩)))))))
  · exact .inr (.inr (.inr (.inr (.inr (.inl ⟨_, _, rfl, s.complete_eq_afterResult _⟩)))))
  · exact .inr (.inr (.inr (.inr (.inr (.inr (.inl
      ⟨c1, c2, c3, c4, hi, ho, s.complete_handoff c1 c2 c3 c4⟩))))))
  · exact .inr (.inr (.inr (.inr (.inr (.inr (.inr (.inr (.inl
      ⟨c1, c2, c3, c4, hi, ho, rfl⟩))))))))
  · exact .inr (.inr (.inr (.inr (.inr (.inl ⟨_, _, rfl, s.complete_eq_afterResult _⟩)))))
  · exact .inr (.inr (.inr (.inr (.inr (.inr (.inr (.inr (.inr ⟨hi, s.reservedOp_eq⟩))))))))

end Sys2Proof.Machine
end

section
/-! The statements about the results of the operations. -/

namespace Sys2Proof.Machine

/-- Settles O12. An XCHG whose shifter works ends with the byte on MISO. -/
theorem xchgReturnsReceivedByte : Obligations.XchgReturnsReceivedByte := fun _ tx h =>
  congrArg Host.Outcome.next (State.exchange_received h tx)

/-- Settles O13. An XCHG whose shifter fails ends where the failed transfer stopped. -/
theorem xchgTimeoutCountsAndReturnsAnyByte : Obligations.XchgTimeoutCountsAndReturnsAnyByte :=
  fun _ tx h => congrArg Host.Outcome.next (State.exchange_stalled h tx)

/-- Settles O14. Each command's meaning is the exchange of its byte, and an address stands in the low half of
that byte. -/
theorem clientBytesAreExchanges : Obligations.ClientBytesAreExchanges := by
  intro s a
  rw [← wregByte_eq_append, ← rregByte_eq_append]
  have hexchange (tx : Byte) : Host.Outcome.next (φ := Fault) (ρ := Refusal) (s.exchange tx) =
      .next (Spec.afterXchg tx s) := congrArg _ (s.exchange_eq_afterXchg tx)
  exact ⟨hexchange _, hexchange _, hexchange _, hexchange _, hexchange _, hexchange _⟩

/-- Settles O15. The wait leaves the counter at its target, and the completion records the event. -/
theorem delayEmitsAndReturnsZero : Obligations.DelayEmitsAndReturnsZero := fun s n =>
  congrArg Host.Outcome.next (s.finishDelay_waitUs n)

/-- Settles O16. Both levels of chip select and the event of a change come from `State.assertSelect_eq` and
`State.releaseSelect_eq`. -/
theorem cselSetsChipSelect : Obligations.CselSetsChipSelect := fun s =>
  ⟨congrArg Host.Outcome.next s.complete_assertSelect,
    congrArg Host.Outcome.next s.complete_releaseSelect⟩

/-- Settles O17. The event and the result carry the one sample. -/
theorem rdytReturnsSample : Obligations.RdytReturnsSample := by
  intro s
  rw [← s.zextBool_readySample]
  exact congrArg Host.Outcome.next (s.complete_emit (.readySample s.readySample) _)

/-- Settles O18. RDYW tests the sample alone. -/
theorem rdywCompletesOrHolds : Obligations.RdywCompletesOrHolds := by
  refine fun s => ⟨fun h => ?_, fun h => ?_⟩
  · have hready : s.readySample = true := by simp [State.readySample, h]
    exact if_pos hready
  · have hnot : ¬ s.readySample = true := by simp [State.readySample, h]
    exact if_neg hnot

/-- Settles O19. The source's decode is the sign extension (R172). -/
theorem sx24ReturnsSignExtension : Obligations.Sx24ReturnsSignExtension := by
  intro s u
  rw [← sx24Value_eq_ofInt_sext32]
  exact congrArg Host.Outcome.next (s.complete_eq_afterResult (sx24Value u))

/-- Settles O20. The stores, the hand-off, the event and the result are four updates in a row. -/
theorem frameStoresAndHandsOff : Obligations.FrameStoresAndHandsOff := by
  intro s ch1 ch2 ch3 ch4 h
  rw [exec_frame_free h, s.complete_handoff]

/-- Settles O21. A held FRAME moves the control machine alone. -/
theorem frameHoldsWhileOwned : Obligations.FrameHoldsWhileOwned :=
  fun _ ch1 ch2 ch3 ch4 h => exec_frame_owned h ch1 ch2 ch3 ch4

/-- Settles O22. The result is the status word, whose fields are read off one by one. -/
theorem statReturnsStatusWord : Obligations.StatReturnsStatusWord := fun s =>
  ⟨s.statusWord, congrArg Host.Outcome.next (s.complete_eq_afterResult s.statusWord),
    s.statusWord_low16, s.statusWord_bit16, s.statusWord_bit17, s.statusWord_bit18,
    s.statusWord_bit19, s.statusWord_bit20, s.statusWord_high11⟩

/-- Settles O23. The eight reserved codes have one meaning. -/
theorem reservedCodesSetBadOp : Obligations.ReservedCodesSetBadOp := by
  intro s i hi
  have hnext : exec i s = .next s.reservedOp := by
    simp only [List.mem_cons, List.not_mem_nil, or_false] at hi
    rcases hi with rfl | rfl | rfl | rfl | rfl | rfl | rfl | rfl <;> rfl
  rw [hnext, s.reservedOp_eq]

end Sys2Proof.Machine
end

section
/-! SUPPORT. The frame of the operations (10_state.md R25, R28, R29): what each leaves alone, read off the
records of `exec_record_cases`. -/

namespace Sys2Proof.Machine

open Sys2Proof

/-! ## What every operation leaves alone -/

/-- From `s` to `t` the parameters, the outside, the latched operation and the synchronizer are as they were. -/
def State.SameContext (s t : State) : Prop :=
  t.cfg = s.cfg ∧ t.inp = s.inp ∧ t.tick = s.tick ∧ t.curOp = s.curOp ∧ t.curArg0 = s.curArg0 ∧
  t.curArg1 = s.curArg1 ∧ t.curArg2 = s.curArg2 ∧ t.curArg3 = s.curArg3 ∧
  t.drdyMeta = s.drdyMeta ∧ t.drdySync = s.drdySync

theorem exec_sameContext {i : Instr} {s t : State} (h : exec i s = .next t) : s.SameContext t := by
  rcases exec_record_cases h with ⟨-, -, tx, rfl⟩ | ⟨-, -, tx, rfl⟩ | ⟨n, -, rfl⟩ | ⟨-, rfl⟩ |
    ⟨-, rfl⟩ | ⟨res, es, -, rfl⟩ | ⟨c1, c2, c3, c4, -, -, rfl⟩ | ⟨-, -, rfl⟩ |
    ⟨c1, c2, c3, c4, -, -, rfl⟩ | ⟨-, rfl⟩ <;> exact ⟨rfl, rfl, rfl, rfl, rfl, rfl, rfl, rfl, rfl, rfl⟩

/-! ## What one operation alone changes -/

theorem exec_keeps_transfer {i : Instr} {s t : State} (h : exec i s = .next t)
    (hi : i.opCode ≠ 0x1#4) :
    t.shreg = s.shreg ∧ t.bitcnt = s.bitcnt ∧ t.sclkCnt = s.sclkCnt ∧ t.wdog = s.wdog ∧
    t.sclk = s.sclk ∧ t.mosi = s.mosi := by
  rcases exec_record_cases h with ⟨hx, -, -⟩ | ⟨hx, -, -⟩ | ⟨n, -, rfl⟩ | ⟨-, rfl⟩ |
    ⟨-, rfl⟩ | ⟨res, es, -, rfl⟩ | ⟨c1, c2, c3, c4, -, -, rfl⟩ | ⟨-, -, rfl⟩ |
    ⟨c1, c2, c3, c4, -, -, rfl⟩ | ⟨-, rfl⟩
  · exact absurd hx hi
  · exact absurd hx hi
  all_goals exact ⟨rfl, rfl, rfl, rfl, rfl, rfl⟩

theorem exec_keeps_wait {i : Instr} {s t : State} (h : exec i s = .next t)
    (hdelay : ∀ n, i ≠ .delay n) (hcsel : i ≠ .csel false) :
    t.dcnt = s.dcnt ∧ t.dtarget = s.dtarget := by
  rcases exec_record_cases h with ⟨-, -, tx, rfl⟩ | ⟨-, -, tx, rfl⟩ | ⟨n, hi, -⟩ | ⟨-, rfl⟩ |
    ⟨hi, -⟩ | ⟨res, es, -, rfl⟩ | ⟨c1, c2, c3, c4, -, -, rfl⟩ | ⟨-, -, rfl⟩ |
    ⟨c1, c2, c3, c4, -, -, rfl⟩ | ⟨-, rfl⟩
  · exact ⟨rfl, rfl⟩
  · exact ⟨rfl, rfl⟩
  · exact absurd hi (hdelay n)
  · exact ⟨rfl, rfl⟩
  · exact absurd hi hcsel
  all_goals exact ⟨rfl, rfl⟩

theorem exec_badOp {i : Instr} {s t : State} (h : exec i s = .next t) (hi : i.isReserved = false) :
    t.badOp = s.badOp := by
  rcases exec_record_cases h with ⟨-, -, tx, rfl⟩ | ⟨-, -, tx, rfl⟩ | ⟨n, -, rfl⟩ | ⟨-, rfl⟩ |
    ⟨-, rfl⟩ | ⟨res, es, -, rfl⟩ | ⟨c1, c2, c3, c4, -, -, rfl⟩ | ⟨-, -, rfl⟩ |
    ⟨c1, c2, c3, c4, -, -, rfl⟩ | ⟨hr, -⟩
  rotate_right
  · simp [hi] at hr
  all_goals rfl

/-- Only a FRAME that is not held writes the buffer, takes the ownership and pulses `tx_start`. -/
theorem exec_frame_cases {i : Instr} {s t : State} (h : exec i s = .next t) :
    (t.frame = s.frame ∧ t.frameOwned = s.frameOwned ∧ t.txStartR = s.txStartR) ∨
    (∃ c1 c2 c3 c4, i = .frame c1 c2 c3 c4 ∧ s.frameOwned = false ∧
      t.frame = (s.writeFrame c1 c2 c3 c4).frame ∧ t.frameOwned = true ∧ t.txStartR = true) := by
  rcases exec_record_cases h with ⟨-, -, tx, rfl⟩ | ⟨-, -, tx, rfl⟩ | ⟨n, -, rfl⟩ | ⟨-, rfl⟩ |
    ⟨-, rfl⟩ | ⟨res, es, -, rfl⟩ | ⟨c1, c2, c3, c4, hi, ho, rfl⟩ | ⟨-, -, rfl⟩ |
    ⟨c1, c2, c3, c4, -, -, rfl⟩ | ⟨-, rfl⟩
  pick_goal 7
  · exact .inr ⟨c1, c2, c3, c4, hi, ho, rfl, rfl, rfl⟩
  all_goals exact .inl ⟨rfl, rfl, rfl⟩

theorem exec_keeps_frame {i : Instr} {s t : State} (h : exec i s = .next t)
    (hi : ∀ c1 c2 c3 c4, i ≠ .frame c1 c2 c3 c4) :
    t.frame = s.frame ∧ t.frameOwned = s.frameOwned ∧ t.txStartR = s.txStartR := by
  rcases exec_frame_cases h with hkept | ⟨c1, c2, c3, c4, hframe, -⟩
  · exact hkept
  · exact absurd hframe (hi c1 c2 c3 c4)

/-- While TXC owns the buffer no operation changes it or the ownership (44_framer.md R184). -/
theorem exec_keeps_owned_frame {i : Instr} {s t : State} (h : exec i s = .next t)
    (hown : s.frameOwned = true) : t.frame = s.frame ∧ t.frameOwned = true := by
  rcases exec_frame_cases h with ⟨hframe, howned, -⟩ | ⟨c1, c2, c3, c4, -, hfree, -⟩
  · exact ⟨hframe, howned.trans hown⟩
  · simp [hown] at hfree

theorem exec_xferTimeouts {i : Instr} {s t : State} (h : exec i s = .next t)
    (hi : i.opCode ≠ 0x1#4 ∨ s.inp.xferStall = false) : t.xferTimeouts = s.xferTimeouts := by
  rcases exec_record_cases h with ⟨-, -, tx, rfl⟩ | ⟨hx, hs, -⟩ | ⟨n, -, rfl⟩ | ⟨-, rfl⟩ |
    ⟨-, rfl⟩ | ⟨res, es, -, rfl⟩ | ⟨c1, c2, c3, c4, -, -, rfl⟩ | ⟨-, -, rfl⟩ |
    ⟨c1, c2, c3, c4, -, -, rfl⟩ | ⟨-, rfl⟩
  · rfl
  · simp [hx, hs] at hi
  all_goals rfl

theorem exec_csActive {i : Instr} {s t : State} (h : exec i s = .next t) (hi : ∀ a, i ≠ .csel a) :
    t.csActive = s.csActive := by
  rcases exec_record_cases h with ⟨-, -, tx, rfl⟩ | ⟨-, -, tx, rfl⟩ | ⟨n, -, rfl⟩ | ⟨hc, -⟩ |
    ⟨hc, -⟩ | ⟨res, es, -, rfl⟩ | ⟨c1, c2, c3, c4, -, -, rfl⟩ | ⟨-, -, rfl⟩ |
    ⟨c1, c2, c3, c4, -, -, rfl⟩ | ⟨-, rfl⟩
  · rfl
  · rfl
  · rfl
  · exact absurd hc (hi true)
  · exact absurd hc (hi false)
  all_goals rfl

/-! ## The observation -/

/-- From `s` to `t` the trace and the host results were only appended to (00_scope.md R12). -/
def State.ObservesMore (s t : State) : Prop :=
  (∃ es, t.trace = s.trace ++ es) ∧ (∃ rs, t.results = s.results ++ rs)

theorem State.observesMore_of_eq {s t : State} (htrace : t.trace = s.trace)
    (hresults : t.results = s.results) : s.ObservesMore t :=
  ⟨⟨[], by rw [htrace, List.append_nil]⟩, [], by rw [hresults, List.append_nil]⟩

theorem exec_observesMore {i : Instr} {s t : State} (h : exec i s = .next t) : s.ObservesMore t := by
  rcases exec_record_cases h with ⟨-, -, tx, rfl⟩ | ⟨-, -, tx, rfl⟩ | ⟨n, -, rfl⟩ | ⟨-, rfl⟩ |
    ⟨-, rfl⟩ | ⟨res, es, -, rfl⟩ | ⟨c1, c2, c3, c4, -, -, rfl⟩ | ⟨-, -, rfl⟩ |
    ⟨c1, c2, c3, c4, -, -, rfl⟩ | ⟨-, rfl⟩
  pick_goal 8
  · exact State.observesMore_of_eq rfl rfl
  pick_goal 8
  · exact State.observesMore_of_eq rfl rfl
  all_goals exact ⟨⟨_, rfl⟩, _, rfl⟩

/-! ## Completing and holding -/

/-- What holds an operation (00_scope.md R9): RDYW while not ready, FRAME while TXC owns the buffer. -/
def State.Holds (s : State) (i : Instr) : Prop :=
  (i = .rdyw ∧ s.readySample = false) ∨ ∃ c1 c2 c3 c4, i = .frame c1 c2 c3 c4 ∧ s.frameOwned = true

/-- An operation completes, or something holds it and only the waiting state changes. -/
theorem exec_completes_or_holds {i : Instr} {s t : State} (h : exec i s = .next t) :
    (¬ s.Holds i ∧ t.fsm = .idle ∧ t.doneR = true) ∨
    (s.Holds i ∧ i.isReserved = false ∧ (t = s.hold .rdyWait ∧ i.opCode = 0x5#4 ∨
      t = s.hold .frameWait ∧ i.opCode = 0x7#4)) := by
  rcases exec_cases h with ⟨hi, tx, rfl⟩ | ⟨n, rfl, rfl⟩ | ⟨rfl, rfl⟩ | ⟨rfl, rfl⟩ | ⟨rfl, rfl⟩ |
    ⟨rfl, hr, rfl⟩ | ⟨rfl, hr, rfl⟩ | ⟨u, rfl, rfl⟩ | ⟨c1, c2, c3, c4, rfl, ho, rfl⟩ |
    ⟨c1, c2, c3, c4, rfl, ho, rfl⟩ | ⟨rfl, rfl⟩ | ⟨hi, rfl⟩
  · refine .inl ⟨?_, ?_⟩
    · rintro (⟨rfl, -⟩ | ⟨c1, c2, c3, c4, rfl, -⟩) <;> simp [Instr.opCode] at hi
    · cases hs : s.inp.xferStall with
      | false => rw [State.exchange_received hs]; exact ⟨rfl, rfl⟩
      | true => rw [State.exchange_stalled hs]; exact ⟨rfl, rfl⟩
  pick_goal 6
  · exact .inr ⟨.inl ⟨rfl, hr⟩, rfl, .inl ⟨rfl, rfl⟩⟩
  pick_goal 8
  · exact .inr ⟨.inr ⟨c1, c2, c3, c4, rfl, ho⟩, rfl, .inr ⟨rfl, rfl⟩⟩
  rotate_right
  · refine .inl ⟨?_, rfl, rfl⟩
    rintro (⟨rfl, -⟩ | ⟨c1, c2, c3, c4, rfl, -⟩) <;> simp [Instr.isReserved] at hi
  all_goals exact .inl ⟨by simp_all [State.Holds], rfl, rfl⟩

end Sys2Proof.Machine
end

section
/-! The statements about what an operation leaves alone, and how it ends. -/

namespace Sys2Proof.Machine

/-- Settles O24. Of the records of the operations each indication stands in one alone. -/
theorem indicationsWrittenOnlyByTheirOperation : Obligations.IndicationsWrittenOnlyByTheirOperation :=
  fun _ _ _ h => ⟨exec_badOp h, fun hi => (exec_keeps_frame h hi).2, exec_xferTimeouts h,
    exec_csActive h⟩

/-- Settles O25. Only FRAME's record names the buffer. -/
theorem onlyFrameStores : Obligations.OnlyFrameStores := by
  intro i s t h hi a
  rw [(exec_keeps_frame h hi).1]

/-- Settles O26. A held FRAME leaves the buffer, and the stores of another one name every address they write. -/
theorem frameStoresOnlyItsBytes : Obligations.FrameStoresOnlyItsBytes := by
  intro s t ch1 ch2 ch3 ch4 hwf h a ha
  cases ho : s.frameOwned with
  | true => rw [(exec_keeps_owned_frame h ho).1]
  | false =>
    have hother : a ∉ frameStoreAddrs s.cfg.frameLsbDefect ch1 ch2 ch3 ch4 := by simpa [ho] using ha
    rw [(exec_frame_free_handoff ho h).1]
    exact Memory.read_writeAll_other hwf (frameStores_inside _ ch1 ch2 ch3 ch4) hother

/-- Settles O27. Only an exchange's records name the transfer registers, only those of DELAY and CSEL 0 the wait
counter, and none names the rest. -/
theorem hiddenRegistersKept : Obligations.HiddenRegistersKept :=
  fun _ _ _ h => ⟨exec_sameContext h, exec_keeps_transfer h, exec_keeps_wait h⟩

/-- Settles O32. A completed operation is in IDLE and a held one is not, so `blockOutcome` tells the two apart. -/
theorem holdsAreOnlyReadyWaitAndOwnedFrame : Obligations.HoldsAreOnlyReadyWaitAndOwnedFrame := by
  intro i s
  obtain ⟨t, ht⟩ := exec_next i s
  cases hres : i.isReserved with
  | true =>
    have hnot : ¬ s.Holds i := by
      rcases exec_completes_or_holds ht with ⟨hnot, -⟩ | ⟨-, hfree, -⟩
      · exact hnot
      · simp [hres] at hfree
    simpa [blockOutcome, hres, State.Holds] using hnot
  | false =>
    rcases exec_completes_or_holds ht with ⟨hnot, hidle, -⟩ | ⟨hholds, -, ⟨rfl, -⟩ | ⟨rfl, -⟩⟩
    · have hout : blockOutcome i s = .complete t.resData := by simp [blockOutcome, hres, ht, hidle]
      rw [hout]
      exact ⟨iff_of_false (by simp) hnot, by simp, fun res h => ⟨t, ht, hidle, by simpa using h⟩,
        by simp⟩
    · have hout : blockOutcome i s = .hold := by simp [blockOutcome, hres, ht]
      rw [hout]
      exact ⟨iff_of_true rfl hholds, fun _ => ⟨_, ht⟩, by simp, by simp⟩
    · have hout : blockOutcome i s = .hold := by simp [blockOutcome, hres, ht]
      rw [hout]
      exact ⟨iff_of_true rfl hholds, fun _ => ⟨_, ht⟩, by simp, by simp⟩

end Sys2Proof.Machine
end

section
/-! SUPPORT. The four things one step can be (00_scope.md R9, 10_state.md R21): a reset, an idle cycle, the
operation HOST presents, the operation that is held. -/

namespace Sys2Proof.Machine

open Sys2Proof

/-! ## The edges of a step -/

/-- `tx_done` takes the ownership that stood before the edge (20_memory.md R56). -/
theorem State.txDoneEdge_eq (s : State) (owned txDone : Bool) :
    s.txDoneEdge owned txDone = { s with frameOwned := s.frameOwned && !(owned && txDone) } := by
  cases hown : owned && txDone <;> simp [State.txDoneEdge, hown]

/-- A waiting edge ends the pulses, takes `tx_done` and samples. -/
theorem State.waitEdge_eq (s : State) :
    s.waitEdge =
      { s with
        doneR := false, txStartR := false
        drdyMeta := s.inp.drdyN, drdySync := s.drdyMeta
        frameOwned := s.frameOwned && !s.inp.txDone } := by
  rw [State.waitEdge, State.txDoneEdge_eq]
  cases h : s.frameOwned <;> simp [State.clearPulses, State.syncEdge, h]

@[simp] theorem State.acceptEdge_latchedWord (s : State) (p : Presented) :
    (s.acceptEdge p).latchedWord = p.word := by
  simp [State.acceptEdge]

/-! ## One step -/

theorem runStep_idle {next : Inputs} {s : State} (hrst : s.inp.rstN = true) (hfsm : s.fsm = .idle)
    (hhost : s.inp.host = none) : runStep next s = .next (s.waitEdge.advance next) := by
  simp only [runStep, hrst, hfsm, hhost, if_true]

theorem runStep_presented {next : Inputs} {s : State} {p : Presented} (hrst : s.inp.rstN = true)
    (hfsm : s.fsm = .idle) (hhost : s.inp.host = some p) :
    runStep next s = mapNext (fun t => t.finishEdge.advance next)
      (exec (decodePresented p) (s.acceptEdge p)) := by
  simp only [runStep, hrst, hfsm, hhost, if_true]

theorem runStep_inProgress {next : Inputs} {s : State} (hrst : s.inp.rstN = true)
    (hfsm : s.fsm ≠ .idle) :
    runStep next s = mapNext (fun t => t.finishEdge.advance (heldOver s.inp next))
      (exec s.latchedInstr s.waitEdge) := by
  cases h : s.fsm with
  | idle => exact absurd h hfsm
  | _ => simp only [runStep, hrst, h, if_true]

/-- An operation never stops, so neither does what a step makes of it. -/
theorem mapNext_exec_next (f : State → State) (i : Instr) (s : State) :
    ∃ t, mapNext f (exec i s) = .next t := by
  obtain ⟨t, ht⟩ := exec_next i s
  exact ⟨f t, by rw [ht, mapNext_next]⟩

/-- Each of the four kinds of step has a next state. -/
theorem runStep_next (next : Inputs) (s : State) : ∃ t, runStep next s = .next t := by
  cases hrst : s.inp.rstN with
  | false => exact ⟨_, runStep_reset hrst⟩
  | true =>
    by_cases hfsm : s.fsm = .idle
    · cases hhost : s.inp.host with
      | none => exact ⟨_, runStep_idle hrst hfsm hhost⟩
      | some p => rw [runStep_presented hrst hfsm hhost]; exact mapNext_exec_next _ _ _
    · rw [runStep_inProgress hrst hfsm]
      exact mapNext_exec_next _ _ _

/-! ## What an operation does not look at -/

/-- The state with another first flop of the synchronizer and other levels outside. -/
def State.withOutside (s : State) (m : Bool) (x : Inputs) : State :=
  { s with drdyMeta := m, inp := x }

/-- An exchange looks at the shifter's failure and at the byte on MISO, and at nothing else outside. -/
theorem State.exchange_withOutside {s : State} {x : Inputs} (hstall : x.xferStall = s.inp.xferStall)
    (hmiso : x.misoByte = s.inp.misoByte) (m : Bool) (tx : Byte) :
    (s.withOutside m x).exchange tx = (s.exchange tx).withOutside m x := by
  cases hs : s.inp.xferStall with
  | false =>
    rw [State.exchange_received hs, State.exchange_received (hstall.trans hs)]
    simp [State.withOutside, Spec.afterExchange, hmiso]
  | true =>
    rw [State.exchange_stalled hs, State.exchange_stalled (hstall.trans hs)]
    rfl

theorem exec_csel_true (s : State) :
    exec (.csel true) s = .next (Spec.afterResult 0#32 (if s.csActive then [] else [.csAssert])
      { s with csActive := true }) :=
  congrArg Host.Outcome.next s.complete_assertSelect

theorem exec_csel_false (s : State) :
    exec (.csel false) s = .next (Spec.afterResult 0#32
      (if s.csActive then [.guard 2, .csRelease] else [.guard 2])
      { Spec.waited 2 s with csActive := false }) :=
  congrArg Host.Outcome.next s.complete_releaseSelect

theorem exec_rdyw_ready {s : State} (h : s.drdySync = false) :
    exec .rdyw s = .next (Spec.afterResult 0#32 [.readySample true] s) := by
  have hready : s.readySample = true := by simp [State.readySample, h]
  exact if_pos hready

theorem exec_rdyw_notReady {s : State} (h : s.drdySync = true) :
    exec .rdyw s = .next (s.hold .rdyWait) := by
  have hnot : ¬ s.readySample = true := by simp [State.readySample, h]
  exact if_neg hnot

/-- An operation looks at the second flop alone, and outside at what an exchange looks at. -/
theorem exec_withOutside {s : State} {x : Inputs} (hstall : x.xferStall = s.inp.xferStall)
    (hmiso : x.misoByte = s.inp.misoByte) (m : Bool) (i : Instr) :
    exec i (s.withOutside m x) = mapNext (·.withOutside m x) (exec i s) := by
  have hexchange (tx : Byte) : Host.Outcome.next (φ := Fault) (ρ := Refusal)
      ((s.withOutside m x).exchange tx) = mapNext (·.withOutside m x) (.next (s.exchange tx)) :=
    congrArg _ (State.exchange_withOutside hstall hmiso m tx)
  cases i with
  | xchg tx => exact hexchange tx
  | wreg a => exact hexchange _
  | rreg a => exact hexchange _
  | rdata | sync | wakeup | reset => exact hexchange _
  | csel a =>
    cases a with
    | true => rw [exec_csel_true, exec_csel_true]; rfl
    | false => rw [exec_csel_false, exec_csel_false]; rfl
  | rdyw =>
    cases hr : s.drdySync with
    | false => rw [exec_rdyw_ready hr, exec_rdyw_ready (s := s.withOutside m x) hr]; rfl
    | true => rw [exec_rdyw_notReady hr, exec_rdyw_notReady (s := s.withOutside m x) hr]; rfl
  | frame c1 c2 c3 c4 =>
    cases ho : s.frameOwned with
    | false =>
      rw [exec_frame_free ho, exec_frame_free (s := s.withOutside m x) ho, State.complete_handoff,
        State.complete_handoff]
      rfl
    | true => rw [exec_frame_owned ho, exec_frame_owned (s := s.withOutside m x) ho]; rfl
  | _ => rfl

@[simp] theorem State.withOutside_frameOwned (s : State) (m : Bool) (x : Inputs) :
    (s.withOutside m x).frameOwned = s.frameOwned := rfl

/-- Accepting looks at nothing outside but HOST's word. -/
theorem State.accept_withOutside (s : State) (m : Bool) (x : Inputs) (w : CmdWord) :
    (s.withOutside m x).accept w = (s.accept w).withOutside m x := by
  have hstart : (s.withOutside m x).startOp w = (s.startOp w).withOutside m x := by
    cases h : acceptFsm (fieldOpCode w) (fieldArg0 w) s.frameOwned <;>
      simp only [State.startOp, State.withOutside_frameOwned, h] <;> rfl
  rw [State.accept, hstart]
  rfl

theorem State.txDoneEdge_withOutside (s : State) (m : Bool) (x : Inputs) (o d : Bool) :
    (s.withOutside m x).txDoneEdge o d = (s.txDoneEdge o d).withOutside m x := by
  rw [State.txDoneEdge_eq, State.txDoneEdge_eq]
  rfl

/-- An edge moves the first flop on, and leaves the level on the pin in it. -/
theorem State.syncEdge_withOutside (s : State) (m d : Bool) (x : Inputs) :
    (s.withOutside m x).syncEdge d =
      { s.syncEdge d with drdySync := m, inp := x } := rfl

/-! ## The address TXC reads (20_memory.md R51, R57) -/

/-- The state with another address on TXC's read port. -/
def State.reading (s : State) (addr : BitVec 5) : State :=
  s.withOutside s.drdyMeta { s.inp with txRdAddr := addr }

theorem State.acceptEdge_reading (s : State) (addr : BitVec 5) (p : Presented) :
    (s.reading addr).acceptEdge p = (s.acceptEdge p).reading addr := by
  have haccept : (s.reading addr).clearPulses.accept p.word =
      (s.clearPulses.accept p.word).withOutside s.drdyMeta { s.inp with txRdAddr := addr } :=
    s.clearPulses.accept_withOutside s.drdyMeta { s.inp with txRdAddr := addr } p.word
  obtain ⟨-, -, -, -, -, -, -, hmeta, -, -, -, -, hinp, -⟩ := s.clearPulses.accept_frame p.word
  rw [State.acceptEdge, haccept, State.txDoneEdge_withOutside, State.syncEdge_withOutside]
  simp [State.reading, State.withOutside, State.acceptEdge, State.syncEdge, hmeta, hinp]

theorem State.waitEdge_reading (s : State) (addr : BitVec 5) :
    (s.reading addr).waitEdge = s.waitEdge.reading addr := by
  rw [State.waitEdge_eq, State.waitEdge_eq]
  rfl

/-- The last edge of a step replaces the levels outside. -/
theorem mapNext_finish_reading (u : State) (addr : BitVec 5) (i : Instr) (next : Inputs) :
    mapNext (fun t => t.finishEdge.advance next) (exec i (u.reading addr)) =
      mapNext (fun t => t.finishEdge.advance next) (exec i u) := by
  obtain ⟨t, ht⟩ := exec_next i u
  obtain ⟨-, hinp, -, -, -, -, -, -, hmeta, -⟩ := exec_sameContext ht
  have hexec : exec i (u.reading addr) = .next (t.reading addr) := by
    calc exec i (u.reading addr)
        = mapNext (·.withOutside u.drdyMeta { u.inp with txRdAddr := addr }) (exec i u) :=
          exec_withOutside (s := u) (x := { u.inp with txRdAddr := addr }) rfl rfl _ i
      _ = .next (t.reading addr) := by rw [ht, State.reading, hinp, hmeta, mapNext_next]
  rw [hexec, ht]
  rfl

/-- A step goes on to the outside's next levels, so the address TXC reads is gone after it. -/
theorem runStep_reading (next : Inputs) (s : State) (addr : BitVec 5) :
    runStep next (s.reading addr) = runStep next s := by
  cases hrst : s.inp.rstN with
  | false => rw [runStep_reset hrst, runStep_reset (s := s.reading addr) hrst]; rfl
  | true =>
    by_cases hfsm : s.fsm = .idle
    · cases hhost : s.inp.host with
      | none =>
        rw [runStep_idle hrst hfsm hhost, runStep_idle (s := s.reading addr) hrst hfsm hhost,
          State.waitEdge_reading]
        rfl
      | some p =>
        rw [runStep_presented hrst hfsm hhost,
          runStep_presented (s := s.reading addr) hrst hfsm hhost, State.acceptEdge_reading]
        exact mapNext_finish_reading _ addr _ next
    · rw [runStep_inProgress hrst hfsm, runStep_inProgress (s := s.reading addr) hrst hfsm,
        State.waitEdge_reading]
      exact mapNext_finish_reading _ addr _ _

/-! ## The faulting reading (60_exceptions.md R222) -/

theorem strictStep_of_reserved {s : State} {i : Instr} (hnext : s.nextInstr = some i)
    (hi : i.isReserved = true) : strictStep s = .fault .badOp := by
  simp [strictStep, hnext, hi]

theorem strictStep_of_notReserved {s : State}
    (h : ∀ i, s.nextInstr = some i → i.isReserved = false) : strictStep s = step s := by
  unfold strictStep
  split
  · rfl
  · rename_i i hi
    simp [h i hi]

end Sys2Proof.Machine
end

section
/-! The statements about one step. -/

namespace Sys2Proof.Machine

/-- Settles O5. The word passes the accepting edge unchanged, and a client byte has the word of its XCHG. -/
theorem acceptanceLatchesTheWord : Obligations.AcceptanceLatchesTheWord :=
  fun s p => ⟨s.acceptEdge_latchedWord p, fun _ => rfl⟩

/-- Settles O6. -/
theorem stepRunsPresentedOperation : Obligations.StepRunsPresentedOperation :=
  fun _ _ => runStep_presented

/-- Settles O7. RDYWAIT and FRAMEWAIT are states with an operation in progress. -/
theorem stepRetriesHeldOperation : Obligations.StepRetriesHeldOperation := by
  intro s hrst hfsm
  have hbusy : s.fsm ≠ .idle := by rcases hfsm with h | h <;> simp [h]
  exact runStep_inProgress hrst hbusy

/-- Settles O8. An idle cycle is a waiting edge. -/
theorem stepIdles : Obligations.StepIdles := by
  intro s hrst hfsm hhost
  have hstep : step s = .next (s.waitEdge.advance (Config.outside s.tick)) :=
    runStep_idle hrst hfsm hhost
  rw [hstep, State.waitEdge_eq]
  rfl

/-- Settles O9. -/
theorem stepResets : Obligations.StepResets := fun _ hrst => runStep_reset hrst

/-- Settles O10. Each field of the reset state, and the buffer with nothing listed. -/
theorem resetValues : Obligations.ResetValues :=
  ⟨rfl, rfl, rfl, rfl, fun _ => rfl, rfl, rfl, rfl, rfl, rfl, rfl, rfl, rfl, rfl, rfl, rfl, rfl, rfl,
    rfl, rfl, rfl, rfl⟩

/-- Settles O11. Each kind of step goes on, since every operation does. -/
theorem stepAlwaysAnswersNext : Obligations.StepAlwaysAnswersNext := fun _ => runStep_next _ _

/-- Settles O33. `step` itself never faults, so a fault of `strictStep` is that of a reserved code. -/
theorem strictStepFaultsOnReservedOnly : Obligations.StrictStepFaultsOnReservedOnly := by
  refine fun s => ⟨⟨fun hfault => ?_, fun ⟨i, hnext, hi⟩ => strictStep_of_reserved hnext hi⟩,
    strictStep_of_notReserved⟩
  by_contra hnone
  have hfree : ∀ i, s.nextInstr = some i → i.isReserved = false := by
    simpa using fun i hi hr => hnone ⟨i, hi, hr⟩
  obtain ⟨t, ht⟩ : ∃ t, step s = .next t := runStep_next _ s
  rw [strictStep_of_notReserved hfree, ht] at hfault
  cases hfault

/-- Settles O56. The read port is combinational, and no edge and no operation looks at its address. -/
theorem txReadPort : Obligations.TxReadPort := by
  refine fun s => ⟨fun h => if_pos h, fun h => if_neg (Nat.not_lt.mpr h), fun addr => ?_⟩
  exact runStep_reading (Config.outside s.tick) s addr

end Sys2Proof.Machine
end

section
/-! SUPPORT. The fields after the accepting and the waiting edge of a step, and what a step keeps: the observation
and a frame that TXC owns. -/

namespace Sys2Proof.Machine

open Sys2Proof

/-! ## Fields -/

@[simp] theorem State.finishEdge_eq (s : State) : s.finishEdge = s.syncEdge s.inp.drdyN := rfl

@[simp] theorem State.acceptEdge_frame (s : State) (p : Presented) :
    (s.acceptEdge p).frame = s.frame := by
  simp [State.acceptEdge, s.clearPulses.accept_frame p.word]
@[simp] theorem State.acceptEdge_frameOwned (s : State) (p : Presented) :
    (s.acceptEdge p).frameOwned = (s.frameOwned && !s.inp.txDone) := by
  cases h : s.frameOwned <;> simp [State.acceptEdge, s.clearPulses.accept_frame p.word, h]
@[simp] theorem State.acceptEdge_trace (s : State) (p : Presented) :
    (s.acceptEdge p).trace = s.trace := by
  simp [State.acceptEdge, s.clearPulses.accept_frame p.word]
@[simp] theorem State.acceptEdge_results (s : State) (p : Presented) :
    (s.acceptEdge p).results = s.results := by
  simp [State.acceptEdge, s.clearPulses.accept_frame p.word]
@[simp] theorem State.acceptEdge_cfg (s : State) (p : Presented) : (s.acceptEdge p).cfg = s.cfg := by
  simp [State.acceptEdge, s.clearPulses.accept_frame p.word]
@[simp] theorem State.acceptEdge_csActive (s : State) (p : Presented) :
    (s.acceptEdge p).csActive = s.csActive := by
  simp [State.acceptEdge, s.clearPulses.accept_frame p.word]
@[simp] theorem State.acceptEdge_inp (s : State) (p : Presented) : (s.acceptEdge p).inp = s.inp := by
  simp [State.acceptEdge, s.clearPulses.accept_frame p.word]
@[simp] theorem State.acceptEdge_tick (s : State) (p : Presented) :
    (s.acceptEdge p).tick = s.tick := by
  simp [State.acceptEdge, s.clearPulses.accept_frame p.word]
@[simp] theorem State.acceptEdge_sclk (s : State) (p : Presented) :
    (s.acceptEdge p).sclk = s.sclk := by
  simp [State.acceptEdge, s.clearPulses.accept_frame p.word]
@[simp] theorem State.acceptEdge_doneR (s : State) (p : Presented) :
    (s.acceptEdge p).doneR = false := by
  simp [State.acceptEdge, s.clearPulses.accept_frame p.word]
@[simp] theorem State.acceptEdge_txStartR (s : State) (p : Presented) :
    (s.acceptEdge p).txStartR = false := by
  simp [State.acceptEdge]
@[simp] theorem State.acceptEdge_drdyMeta (s : State) (p : Presented) :
    (s.acceptEdge p).drdyMeta = s.inp.drdyN := rfl
@[simp] theorem State.acceptEdge_drdySync (s : State) (p : Presented) :
    (s.acceptEdge p).drdySync = s.drdyMeta := by
  simp [State.acceptEdge, s.clearPulses.accept_frame p.word]
@[simp] theorem State.acceptEdge_curOp (s : State) (p : Presented) :
    (s.acceptEdge p).curOp = fieldOpCode p.word := by
  simp [State.acceptEdge]

@[simp] theorem State.waitEdge_frame (s : State) : s.waitEdge.frame = s.frame := by
  simp [State.waitEdge]
@[simp] theorem State.waitEdge_frameOwned (s : State) :
    s.waitEdge.frameOwned = (s.frameOwned && !s.inp.txDone) := by
  rw [State.waitEdge_eq]
@[simp] theorem State.waitEdge_trace (s : State) : s.waitEdge.trace = s.trace := by
  simp [State.waitEdge]
@[simp] theorem State.waitEdge_results (s : State) : s.waitEdge.results = s.results := by
  simp [State.waitEdge]

/-! ## The observation -/

/-- Every kind of step appends to the trace and to the results what the operation it runs appends. -/
theorem runStep_observesMore {next : Inputs} {s t : State} (h : runStep next s = .next t) :
    s.ObservesMore t := by
  rcases runStep_cases h with ⟨-, rfl⟩ | ⟨-, -, -, rfl⟩ | ⟨-, -, p, u, -, hexec, rfl⟩ |
    ⟨-, -, u, hexec, rfl⟩
  · exact State.observesMore_of_eq (by simp) (by simp)
  · exact State.observesMore_of_eq (by simp) (by simp)
  · simpa [State.ObservesMore] using exec_observesMore hexec
  · simpa [State.ObservesMore] using exec_observesMore hexec

/-! ## A frame that TXC owns -/

/-- With no reset and no `tx_done` a step keeps an owned frame and its ownership, whatever it runs. -/
theorem runStep_keeps_owned_frame {next : Inputs} {s t : State} (h : runStep next s = .next t)
    (hrst : s.inp.rstN = true) (hown : s.frameOwned = true) (hdone : s.inp.txDone = false) :
    t.frame = s.frame ∧ t.frameOwned = true := by
  rcases runStep_cases h with ⟨hreset, -⟩ | ⟨-, -, -, rfl⟩ | ⟨-, -, p, u, -, hexec, rfl⟩ |
    ⟨-, -, u, hexec, rfl⟩
  · simp [hrst] at hreset
  · simp [hown, hdone]
  · simpa using exec_keeps_owned_frame hexec (by simp [hown, hdone])
  · simpa using exec_keeps_owned_frame hexec (by simp [hown, hdone])

end Sys2Proof.Machine
end

section
/-! The statements about what a step keeps of the observation and of an owned frame. -/

namespace Sys2Proof.Machine

/-- Settles O29. The ownership stands on every edge of the step, and no operation writes an owned frame. -/
theorem ownedFrameIsStable : Obligations.OwnedFrameIsStable :=
  fun _ _ => runStep_keeps_owned_frame

/-- Settles O31. Operations append, and the edges around them leave the observation alone. -/
theorem traceAndResultsOnlyGrow : Obligations.TraceAndResultsOnlyGrow := fun _ _ => runStep_observesMore

end Sys2Proof.Machine
end

section
/-! SUPPORT. The invariant between operations (10_state.md R30, 44_framer.md R182): an operation that runs from a
state in which it has been accepted, or retried, leaves a state between operations. -/

namespace Sys2Proof.Machine

open Sys2Proof

/-! ## Accepting -/

/-- A client byte that is decoded is an exchange on the command port (30_encoding.md R74). -/
theorem decodeBus_opCode {b : Byte} {i : Instr} (h : decodeBus b = .ok i) : i.opCode = 0x1#4 := by
  unfold decodeBus at h
  split_ifs at h <;> cases h <;> rfl

/-- The operation HOST presents has the code of the word it presents. -/
theorem decodePresented_opCode (p : Presented) : (decodePresented p).opCode = fieldOpCode p.word := by
  cases p with
  | op w => exact decodeWord_opCode w
  | busByte b =>
    have hword : fieldOpCode (Presented.busByte b).word = 0x1#4 := fieldOpCode_packWord _ _ _ _ _
    rw [hword, decodePresented]
    cases h : decodeBus b with
    | ok i => exact decodeBus_opCode h
    | error r => rfl

@[simp] theorem State.latchedInstr_opCode (s : State) : s.latchedInstr.opCode = s.curOp := by
  simp [State.latchedInstr, State.latchedWord, decodeFields_opCode]

/-- Only the code 0x1 starts a transfer (10_state.md R30). -/
theorem acceptFsm_eq_xfer_iff (c : OpCode) (a0 : Word32) (o : Bool) :
    acceptFsm c a0 o = .xfer ↔ c = 0x1#4 := by
  unfold acceptFsm
  split
  case h_3 => split <;> simp
  case h_5 => split <;> simp
  all_goals simp_all

/-- Accepting anything but an exchange leaves the transfer alone. -/
theorem State.accept_keeps_transfer {s : State} {w : CmdWord} (h : fieldOpCode w ≠ 0x1#4) :
    (s.accept w).mosi = s.mosi ∧ (s.accept w).bitcnt = s.bitcnt := by
  have hfsm := mt (acceptFsm_eq_xfer_iff (fieldOpCode w) (fieldArg0 w) s.frameOwned).mp h
  have hstart : (s.startOp w).mosi = s.mosi ∧ (s.startOp w).bitcnt = s.bitcnt := by
    unfold State.startOp
    split
    case h_1 => exact absurd ‹_› hfsm
    all_goals exact ⟨rfl, rfl⟩
  exact hstart

theorem State.accept_bitcnt_le {s : State} (h : s.bitcnt ≤ 8) (w : CmdWord) :
    (s.accept w).bitcnt ≤ 8 := by
  have hstart : (s.accept w).bitcnt = (s.startOp w).bitcnt := rfl
  rcases s.startOp_cases w with hs | hs | ⟨n, hs⟩ <;> simp [hstart, hs, h]

/-! ## Running -/

/-- A state at which the operation `i` has been accepted or is retried. -/
structure State.ReadyToRun (s : State) (i : Instr) : Prop where
  legal : s.cfg.Legal
  frameWf : Memory.wf s.frame = true
  defectBytes : s.DefectBytesZero
  op : s.curOp = i.opCode
  sclk : s.sclk = s.cfg.spiCpol
  mosi : i.opCode ≠ 0x1#4 → s.mosi = false
  bits : s.bitcnt ≤ 8
  start : s.txStartR = false
  done : s.doneR = false

/-- Defect mode stores to none of the four bytes of R182. -/
theorem defectByte_not_stored (c1 c2 c3 c4 : Word32) :
    ∀ a ∈ [6, 11, 16, 21], a ∉ frameStoreAddrs true c1 c2 c3 c4 := by
  rw [frameStoreAddrs_eq]
  decide

/-- A FRAME in defect mode keeps each of the four bytes. -/
theorem State.writeFrame_read_kept {s : State} (hwf : Memory.wf s.frame = true)
    (hmode : s.cfg.frameLsbDefect = true) (c1 c2 c3 c4 : Word32) {a : Nat}
    (ha : a ∈ [6, 11, 16, 21]) :
    Memory.read (s.writeFrame c1 c2 c3 c4).frame a = Memory.read s.frame a :=
  Memory.read_writeAll_other hwf (frameStores_inside _ c1 c2 c3 c4)
    (by rw [hmode]; exact defectByte_not_stored c1 c2 c3 c4 a ha)

/-- A FRAME keeps the canonical form and the defect-mode bytes. -/
theorem State.writeFrame_keeps_memory {s : State} (hwf : Memory.wf s.frame = true)
    (hdefect : s.DefectBytesZero) (c1 c2 c3 c4 : Word32) :
    Memory.wf (s.writeFrame c1 c2 c3 c4).frame = true ∧
    (s.writeFrame c1 c2 c3 c4).DefectBytesZero := by
  refine ⟨Memory.wf_writeAll hwf (frameStores_inside _ c1 c2 c3 c4), fun hmode a ha => ?_⟩
  exact (State.writeFrame_read_kept hwf hmode c1 c2 c3 c4 ha).trans (hdefect hmode a ha)

/-- An operation keeps the canonical form and the defect-mode bytes. -/
theorem exec_keeps_memory {i : Instr} {s t : State} (h : exec i s = .next t)
    (hwf : Memory.wf s.frame = true) (hdefect : s.DefectBytesZero) :
    Memory.wf t.frame = true ∧ t.DefectBytesZero := by
  obtain ⟨hcfg, -⟩ := exec_sameContext h
  unfold State.DefectBytesZero
  rw [hcfg]
  rcases exec_frame_cases h with ⟨hframe, -⟩ | ⟨c1, c2, c3, c4, -, -, hframe, -⟩
  · rw [hframe]
    exact ⟨hwf, hdefect⟩
  · rw [hframe]
    exact State.writeFrame_keeps_memory hwf hdefect c1 c2 c3 c4

/-- The operations with the code 0x1 are exchanges. -/
theorem exec_of_opCode_xchg {i : Instr} (hi : i.opCode = 0x1#4) (s : State) :
    ∃ tx, exec i s = .next (s.exchange tx) := by
  cases i with
  | xchg _ | wreg _ | rreg _ | rdata | sync | wakeup | reset => exact ⟨_, rfl⟩
  | _ => exact absurd hi (by simp [Instr.opCode])

/-- Either end of an exchange leaves the wires at rest and `bitcnt` in range. -/
theorem State.exchange_wires (s : State) (tx : Byte) :
    (s.exchange tx).WiresIdle ∧ (s.exchange tx).bitcnt ≤ 8 := by
  cases hs : s.inp.xferStall with
  | false =>
    rw [State.exchange_received hs]
    exact ⟨⟨rfl, rfl⟩, Nat.le_refl 8⟩
  | true =>
    rw [State.exchange_stalled hs]
    exact ⟨⟨rfl, rfl⟩, Nat.le_of_lt (Config.stalled s.tick).bits.isLt⟩

theorem exec_wires {i : Instr} {s t : State} (hrun : s.ReadyToRun i) (h : exec i s = .next t) :
    t.WiresIdle ∧ t.bitcnt ≤ 8 := by
  by_cases hi : i.opCode = 0x1#4
  · obtain ⟨tx, htx⟩ := exec_of_opCode_xchg hi s
    obtain rfl := Host.Outcome.next.inj (htx.symm.trans h)
    exact s.exchange_wires tx
  · obtain ⟨-, hbits, -, -, hsclk, hmosi⟩ := exec_keeps_transfer h hi
    obtain ⟨hcfg, -⟩ := exec_sameContext h
    exact ⟨⟨by rw [hsclk, hcfg, hrun.sclk], hmosi.trans (hrun.mosi hi)⟩, hbits ▸ hrun.bits⟩

/-- Where an operation leaves the control machine (10_state.md R30): idle, or held with the operation latched that
its wait is for; `done` is a pulse of a completion. -/
theorem exec_boundary {i : Instr} {s t : State} (hrun : s.ReadyToRun i) (h : exec i s = .next t) :
    (t.fsm = .idle ∨ t.fsm = .rdyWait ∨ t.fsm = .frameWait) ∧ t.HeldOpMatches ∧
    (t.doneR = true → t.fsm = .idle) := by
  rcases exec_completes_or_holds h with ⟨-, hidle, -⟩ | ⟨-, -, ⟨rfl, hi⟩ | ⟨rfl, hi⟩⟩
  · exact ⟨.inl hidle, by simp [State.HeldOpMatches, hidle], fun _ => hidle⟩
  · simp [State.HeldOpMatches, hrun.op, hi, hrun.done]
  · simp [State.HeldOpMatches, hrun.op, hi, hrun.done]

/-- `tx_start` is a pulse of a hand-off (44_framer.md R185). -/
theorem exec_txStart {i : Instr} {s t : State} (hrun : s.ReadyToRun i) (h : exec i s = .next t) :
    t.txStartR = true → t.frameOwned = true := by
  rcases exec_frame_cases h with ⟨-, -, hstart⟩ | ⟨c1, c2, c3, c4, -, -, -, hown, -⟩
  · simp [hstart, hrun.start]
  · exact fun _ => hown

/-- Running an operation leaves a state between operations. -/
theorem exec_between {i : Instr} {s t : State} (hrun : s.ReadyToRun i) (h : exec i s = .next t) :
    t.Between := by
  obtain ⟨hcfg, -⟩ := exec_sameContext h
  obtain ⟨hwf, hdefect⟩ := exec_keeps_memory h hrun.frameWf hrun.defectBytes
  obtain ⟨hwires, hbits⟩ := exec_wires hrun h
  obtain ⟨hboundary, hheld, hdone⟩ := exec_boundary hrun h
  exact {
    legal := hcfg ▸ hrun.legal, frameWf := hwf, defectBytes := hdefect, boundary := hboundary
    held := hheld, wires := hwires, bits := hbits, start := exec_txStart hrun h, done := hdone }

/-! ## The edges of a step -/

/-- The invariant says nothing of the outside. -/
theorem State.Between.advance {s : State} (h : s.Between) (next : Inputs) :
    (s.advance next).Between :=
  { legal := h.legal, frameWf := h.frameWf, defectBytes := h.defectBytes, boundary := h.boundary
    held := h.held, wires := h.wires, bits := h.bits, start := h.start, done := h.done }

/-- It says nothing of the synchronizer either. -/
theorem State.Between.finishEdge {s : State} (h : s.Between) : s.finishEdge.Between :=
  { legal := h.legal, frameWf := h.frameWf, defectBytes := h.defectBytes, boundary := h.boundary
    held := h.held, wires := h.wires, bits := h.bits, start := h.start, done := h.done }

/-- A reset leads to a state between operations from any state whose parameters are legal. -/
theorem State.resetEdge_between {s : State} (h : s.cfg.Legal) : s.resetEdge.Between where
  legal := h
  frameWf := rfl
  defectBytes := fun _ _ _ => rfl
  boundary := .inl rfl
  held := by simp [State.HeldOpMatches]
  wires := ⟨rfl, rfl⟩
  bits := Nat.zero_le 8
  start := by simp
  done := by simp

/-- An idle cycle keeps the invariant. -/
theorem State.Between.waitEdge {s : State} (h : s.Between) : s.waitEdge.Between := by
  rw [State.waitEdge_eq]
  exact {
    legal := h.legal, frameWf := h.frameWf, defectBytes := h.defectBytes, boundary := h.boundary
    held := h.held, wires := h.wires, bits := h.bits, start := by simp, done := by simp }

/-- The accepting edge makes an idle block ready to run the operation HOST presents. -/
theorem State.Between.readyToRun_presented {s : State} (h : s.Between) (p : Presented) :
    (s.acceptEdge p).ReadyToRun (decodePresented p) where
  legal := by simpa using h.legal
  frameWf := by simpa using h.frameWf
  defectBytes := by simpa [State.DefectBytesZero] using h.defectBytes
  op := by rw [State.acceptEdge_curOp, decodePresented_opCode]
  sclk := by simpa using h.wires.1
  mosi := fun hi => by
    rw [decodePresented_opCode] at hi
    simp [State.acceptEdge, State.accept_keeps_transfer hi, h.wires.2]
  bits := by simpa [State.acceptEdge] using State.accept_bitcnt_le (s := s.clearPulses) h.bits p.word
  start := s.acceptEdge_txStartR p
  done := s.acceptEdge_doneR p

/-- A waiting edge leaves a held operation ready to run again. -/
theorem State.Between.readyToRun_held {s : State} (h : s.Between) :
    s.waitEdge.ReadyToRun s.latchedInstr := by
  rw [State.waitEdge_eq]
  exact {
    legal := h.legal, frameWf := h.frameWf, defectBytes := h.defectBytes
    op := s.latchedInstr_opCode.symm, sclk := h.wires.1, mosi := fun _ => h.wires.2, bits := h.bits
    start := rfl, done := rfl }

/-- Every kind of step keeps the invariant. -/
theorem runStep_between {next : Inputs} {s t : State} (hs : s.Between) (h : runStep next s = .next t) :
    t.Between := by
  rcases runStep_cases h with ⟨-, rfl⟩ | ⟨-, -, -, rfl⟩ | ⟨-, -, p, u, -, hexec, rfl⟩ |
    ⟨-, -, u, hexec, rfl⟩
  · exact (State.resetEdge_between hs.legal).advance next
  · exact hs.waitEdge.advance next
  · exact (exec_between (hs.readyToRun_presented p) hexec).finishEdge.advance next
  · exact (exec_between hs.readyToRun_held hexec).finishEdge.advance _

end Sys2Proof.Machine
end

section
/-! The statement about the invariant between operations. -/

namespace Sys2Proof.Machine

/-- Settles O35. The accepting edge, or the waiting edge of a held operation, makes the block ready to run it,
and running it leaves a state between operations. -/
theorem stepKeepsBetweenOperations : Obligations.StepKeepsBetweenOperations :=
  fun _ _ => runStep_between

end Sys2Proof.Machine
end

section
/-! SUPPORT. The invariant between clock edges (10_state.md R30, 40_bus_primitive.md R102, R103, R106): what is in
progress on an edge keeps it, and `tx_done` and the synchronizer keep it besides. -/

namespace Sys2Proof.Machine

open Sys2Proof

/-! ## States between operations -/

/-- A state between operations is a state between edges: idle or held, it has no transfer and no wait. -/
theorem State.Between.betweenEdges {s : State} (h : s.Between) : s.BetweenEdges := by
  have hfsm : s.fsm ≠ .xfer ∧ s.fsm ≠ .delay ∧ s.fsm ≠ .guard := by
    rcases h.boundary with hf | hf | hf <;> simp [hf]
  have hop : s.OpInProgress := by
    unfold State.OpInProgress
    rcases h.boundary with hf | hf | hf
    · simp [hf]
    · simpa [hf] using h.held.1 hf
    · simpa [hf] using h.held.2 hf
  exact {
    legal := h.legal, frameWf := h.frameWf, defectBytes := h.defectBytes, op := hop
    wires := fun _ => h.wires, xferBits := fun hx => absurd hx hfsm.1
    xferBudget := fun hx => absurd hx hfsm.1
    count := fun hw => (hw.elim hfsm.2.1 hfsm.2.2).elim, bits := h.bits, start := h.start
    done := h.done }

/-! ## A transfer -/

/-- The state with other transfer registers and wires, one clk cycle of the transfer later. -/
def State.inTransfer (s : State) (cnt : Nat) (level out : Bool) (reg : Byte) (bits : Nat) : State :=
  { s with
    sclkCnt := cnt, sclk := level, mosi := out, shreg := reg, bitcnt := bits, wdog := s.wdog + 1 }

/-- An edge of a transfer changes the transfer registers and the wires alone. -/
theorem State.transferEdge_record (s : State) (miso stall : Bool) :
    ∃ cnt level out reg bits, s.transferEdge miso stall = s.inTransfer cnt level out reg bits := by
  cases stall with
  | true => exact ⟨_, _, _, _, _, rfl⟩
  | false =>
    have hwork : s.transferEdge miso false = { s.shifterEdge miso with wdog := s.wdog + 1 } := rfl
    rw [hwork]
    rcases s.shifterEdge_cases miso with ⟨-, h⟩ | ⟨-, -, h⟩ | ⟨-, -, h⟩ <;> rw [h] <;>
      exact ⟨_, _, _, _, _, rfl⟩

/-- What `State.BetweenEdges` says of the samples of a transfer in progress (log 10). -/
def State.SamplesLeft (s : State) : Prop :=
  (s.bitcnt < 8 ∨ s.bitcnt = 8 ∧ s.cfg.spiCpha = false ∧ s.sclk = !s.cfg.spiCpol) ∧
    s.sclkCnt < s.cfg.sclkDiv / 2

/-- The eighth sample is the last one: with it in, SCLK is off its idle level, where no sample is taken. -/
theorem State.SamplesLeft.transferEdge {s : State} (h : s.SamplesLeft) (hdiv : 2 ≤ s.cfg.sclkDiv)
    (miso stall : Bool) :
    (s.transferEdge miso stall).bitcnt ≤ 8 ∧
    (((s.transferEdge miso stall).bitcnt = 8 → (s.transferEdge miso stall).sclk ≠ s.cfg.spiCpol) →
      (s.transferEdge miso stall).SamplesLeft) := by
  obtain ⟨hbits, hcnt⟩ := h
  have hhalf : 0 < s.cfg.sclkDiv / 2 := by omega
  cases stall with
  | true => exact ⟨by simp [State.transferEdge]; omega, fun _ => ⟨hbits, hcnt⟩⟩
  | false =>
    rcases s.shifterEdge_cases miso with ⟨hlt, hs⟩ | ⟨-, hlevel, hs⟩ | ⟨-, hlevel, hs⟩
    · exact ⟨by simp [State.transferEdge, hs]; omega,
        fun _ => by simpa [State.SamplesLeft, State.transferEdge, hs, hlt] using hbits⟩
    · have hleft : s.bitcnt < 8 := by
        rcases hbits with hlt | ⟨-, -, hoff⟩
        · exact hlt
        · simp [hlevel] at hoff
      cases hpha : s.cfg.spiCpha <;>
        simp [State.SamplesLeft, State.transferEdge, hs, State.leadingEdge, hpha, hhalf] <;> omega
    · cases hpha : s.cfg.spiCpha with
      | false =>
        simp [State.SamplesLeft, State.transferEdge, hs, State.trailingEdge, hpha, hhalf]
        omega
      | true =>
        simp [hpha] at hbits
        simp [State.SamplesLeft, State.transferEdge, hs, State.trailingEdge, hpha, hhalf]
        omega

/-- Either end of a transfer leaves a state between operations. -/
theorem State.finishXfer_between {s : State} (hlegal : s.cfg.Legal) (hwf : Memory.wf s.frame = true)
    (hdefect : s.DefectBytesZero) (hstart : s.txStartR = false) (tx : Byte) (r : Xfer) :
    (s.finishXfer tx r).Between := by
  have hmemory : (s.finishXfer tx r).frame = s.frame ∧ (s.finishXfer tx r).cfg = s.cfg ∧
      (s.finishXfer tx r).fsm = .idle ∧ (s.finishXfer tx r).txStartR = s.txStartR ∧
      (s.finishXfer tx r).WiresIdle ∧ (s.finishXfer tx r).bitcnt ≤ 8 := by
    cases r with
    | ok rx => exact ⟨rfl, rfl, rfl, rfl, ⟨rfl, rfl⟩, Nat.le_refl 8⟩
    | timeout p => exact ⟨rfl, rfl, rfl, rfl, ⟨rfl, rfl⟩, Nat.le_of_lt p.bits.isLt⟩
  obtain ⟨hframe, hcfg, hidle, htx, hwires, hbits⟩ := hmemory
  exact {
    legal := hcfg ▸ hlegal, frameWf := hframe ▸ hwf
    defectBytes := by simpa only [State.DefectBytesZero, hframe, hcfg] using hdefect
    boundary := .inl hidle, held := by simp [State.HeldOpMatches, hidle], wires := hwires
    bits := hbits, start := by simp [htx, hstart], done := fun _ => hidle }

/-- A transfer in progress, its pulses over, goes on within its budget or ends. -/
theorem State.BetweenEdges.xferEdge {s : State} (h : s.BetweenEdges) (hfsm : s.fsm = .xfer)
    (hstart : s.txStartR = false) (hdone : s.doneR = false) (miso stall : Bool) :
    (s.xferEdge miso stall).BetweenEdges ∧ (s.xferEdge miso stall).txStartR = false := by
  have hleft : s.SamplesLeft := h.xferBits hfsm
  obtain ⟨hle, hnext⟩ := hleft.transferEdge h.legal.2.1 miso stall
  have hcases := s.xferEdge_cases miso stall
  obtain ⟨cnt, level, out, reg, bits, ht⟩ := s.transferEdge_record miso stall
  have hend := (s.inTransfer cnt level out reg bits).finishXfer_between h.legal h.frameWf
    h.defectBytes hstart
  rw [ht] at hle hnext hcases
  rcases hcases with ⟨-, -, he⟩ | ⟨-, -, he⟩ | ⟨hlimit, hoff, he⟩
  · rw [he]
    exact ⟨(hend _ _).betweenEdges, hstart⟩
  · rw [he]
    exact ⟨(hend _ _).betweenEdges, hstart⟩
  · rw [he]
    exact ⟨{
      legal := h.legal, frameWf := h.frameWf, defectBytes := h.defectBytes, op := h.op
      wires := fun hx => absurd hfsm hx, xferBits := fun _ => hnext hoff
      xferBudget := fun _ => by simpa [State.wdogExpired] using hlimit
      count := h.count, bits := hle, start := h.start, done := by rw [State.inTransfer, hdone]; simp }, hstart⟩

/-! ## A wait -/

theorem State.opEdge_delay {s : State} (h : s.fsm = .delay) (p : Pins) :
    s.opEdge p = s.countEdge (s.finishDelay (operandCount s.curArg0)) := by
  simp only [State.opEdge, h]

theorem State.opEdge_guard {s : State} (h : s.fsm = .guard) (p : Pins) :
    s.opEdge p = s.countEdge (s.releaseSelect.complete 0#32) := by
  simp only [State.opEdge, h]

/-- A wait, its pulses over, counts on or ends in a completion that hands nothing off. -/
theorem State.BetweenEdges.countEdge {s done : State} (h : s.BetweenEdges)
    (hfsm : s.fsm = .delay ∨ s.fsm = .guard) (hstart : s.txStartR = false) (hdone : s.doneR = false)
    (hend : done.Between) (hnone : done.txStartR = false) :
    (s.countEdge done).BetweenEdges ∧ (s.countEdge done).txStartR = false := by
  rcases s.countEdge_cases done with ⟨-, he⟩ | ⟨hne, he⟩
  · rw [he]
    exact ⟨hend.betweenEdges, hnone⟩
  · rw [he]
    exact ⟨{
      legal := h.legal, frameWf := h.frameWf, defectBytes := h.defectBytes, op := h.op
      wires := h.wires, xferBits := h.xferBits, xferBudget := h.xferBudget
      count := fun _ => Nat.lt_of_le_of_ne (h.count hfsm) hne
      bits := h.bits, start := h.start, done := by simp [hdone] }, hstart⟩

/-- A completion that changes chip select, the observation and the result at most. -/
theorem State.BetweenEdges.complete {s t : State} (h : s.BetweenEdges) (hfsm : s.fsm ≠ .xfer)
    (res : Word32) (ht : ∃ cs tr, t = { s with csActive := cs, trace := tr }) :
    (t.complete res).Between := by
  obtain ⟨cs, tr, rfl⟩ := ht
  exact {
    legal := h.legal, frameWf := h.frameWf, defectBytes := h.defectBytes, boundary := .inl rfl
    held := by simp [State.HeldOpMatches], wires := h.wires hfsm, bits := h.bits, start := h.start
    done := fun _ => rfl }

/-! ## Accepting -/

/-- The state an accepted operation goes to is the one its code asks for (10_state.md R30). -/
theorem State.accept_opInProgress (s : State) (w : CmdWord) : (s.accept w).OpInProgress := by
  have howned : (s.accept w).frameOwned = s.frameOwned := by simp [s.accept_frame w]
  simp only [State.OpInProgress, State.accept_fsm, State.accept_curOp, State.accept_curArg0, howned]
  have hmem := opCode_mem (fieldOpCode w)
  simp only [List.mem_cons, List.not_mem_nil, or_false] at hmem
  cases hflag : operandFlag (fieldArg0 w) <;> cases ho : s.frameOwned <;>
    rcases hmem with hc | hc | hc | hc | hc | hc | hc | hc | hc | hc | hc | hc | hc | hc | hc | hc <;>
    simp [acceptFsm, hc, hflag]

/-- An accepted exchange starts a transfer with no sample taken. -/
theorem State.accept_xchg {s : State} {w : CmdWord} (h : fieldOpCode w = 0x1#4) :
    s.accept w = { (s.startXfer (operandByte (fieldArg0 w))).latch w with fsm := .xfer } := by
  simp [State.accept, State.startOp, acceptFsm, h]

/-- An accepted wait starts from 0. -/
theorem State.accept_dcnt {s : State} {w : CmdWord}
    (h : (s.accept w).fsm = .delay ∨ (s.accept w).fsm = .guard) : (s.accept w).dcnt = 0 := by
  have hstart : (s.startOp w).dcnt = 0 := by
    simp only [State.accept_fsm] at h
    unfold State.startOp
    rcases h with h | h <;> simp [h]
  exact hstart

theorem State.BetweenEdges.accept {s : State} (h : s.BetweenEdges) (hfsm : s.fsm = .idle)
    (hstart : s.txStartR = false) (hdone : s.doneR = false) (w : CmdWord) :
    (s.accept w).BetweenEdges := by
  obtain ⟨hcfg, -, -, -, -, hframe, -, -, -, hdone', -, hsclk, -⟩ := s.accept_frame w
  have hxfer : (s.accept w).fsm = .xfer → fieldOpCode w = 0x1#4 := (acceptFsm_eq_xfer_iff _ _ _).mp
  obtain ⟨hsclkIdle, hmosiIdle⟩ := h.wires (by simp [hfsm])
  obtain ⟨hclk, hdiv, heven, hlimit⟩ := h.legal
  refine {
    legal := hcfg ▸ h.legal, frameWf := hframe ▸ h.frameWf
    defectBytes := by simpa only [State.DefectBytesZero, hframe, hcfg] using h.defectBytes
    op := s.accept_opInProgress w, wires := fun hx => ?_, xferBits := fun hx => ?_
    xferBudget := fun hx => ?_
    count := fun hw => by simp [State.accept_dcnt hw]
    bits := State.accept_bitcnt_le h.bits w, start := by simp [hstart]
    done := by simp [hdone', hdone] }
  · have hcode : fieldOpCode w ≠ 0x1#4 := fun hc => hx ((acceptFsm_eq_xfer_iff _ _ _).mpr hc)
    exact ⟨by rw [hsclk, hcfg, hsclkIdle], (State.accept_keeps_transfer hcode).1.trans hmosiIdle⟩
  · rw [State.accept_xchg (hxfer hx)]
    exact ⟨.inl (by simp), by simp; omega⟩
  · rw [State.accept_xchg (hxfer hx)]
    simp
    omega

/-! ## One edge -/

/-- The pulses end at the start of an edge. -/
theorem State.BetweenEdges.clearPulses {s : State} (h : s.BetweenEdges) : s.clearPulses.BetweenEdges :=
  { legal := h.legal, frameWf := h.frameWf, defectBytes := h.defectBytes, op := h.op
    wires := h.wires, xferBits := h.xferBits, xferBudget := h.xferBudget, count := h.count
    bits := h.bits, start := by simp, done := by simp }

/-- A latched operation whose meaning an edge runs is ready to run. -/
theorem State.BetweenEdges.readyToRun {s : State} (h : s.BetweenEdges) (hfsm : s.fsm ≠ .xfer)
    (hstart : s.txStartR = false) (hdone : s.doneR = false) : s.ReadyToRun s.latchedInstr where
  legal := h.legal
  frameWf := h.frameWf
  defectBytes := h.defectBytes
  op := s.latchedInstr_opCode.symm
  sclk := (h.wires hfsm).1
  mosi := fun _ => (h.wires hfsm).2
  bits := h.bits
  start := hstart
  done := hdone

/-- What an edge makes of a latched operation whose meaning it runs. -/
theorem State.ReadyToRun.nextOr_exec {s : State} {i : Instr} (h : s.ReadyToRun i) :
    (nextOr s (exec i s)).BetweenEdges ∧
    ((nextOr s (exec i s)).txStartR = true → s.frameOwned = false) := by
  obtain ⟨t, ht⟩ := exec_next i s
  rw [ht, nextOr_next]
  refine ⟨(exec_between h ht).betweenEdges, fun hstart => ?_⟩
  rcases exec_frame_cases ht with ⟨-, -, hkept⟩ | ⟨c1, c2, c3, c4, -, hfree, -⟩
  · rw [hkept, h.start] at hstart
    cases hstart
  · exact hfree

/-- Whatever is in progress, an edge keeps the invariant, and a hand-off comes only where there was no
ownership. -/
theorem State.BetweenEdges.opEdge {s : State} (h : s.BetweenEdges) (hstart : s.txStartR = false)
    (hdone : s.doneR = false) (p : Pins) :
    (s.opEdge p).BetweenEdges ∧ ((s.opEdge p).txStartR = true → s.frameOwned = false) := by
  cases hfsm : s.fsm with
  | idle =>
    cases hop : p.op with
    | none =>
      rw [State.opEdge_idle_none hfsm hop]
      exact ⟨h, by simp [hstart]⟩
    | some w =>
      rw [State.opEdge_idle_some hfsm hop]
      exact ⟨h.accept hfsm hstart hdone w, by simp [hstart]⟩
  | xfer =>
    rw [State.opEdge_xfer hfsm]
    obtain ⟨hnext, hnone⟩ := h.xferEdge hfsm hstart hdone p.miso p.stall
    exact ⟨hnext, by simp [hnone]⟩
  | delay =>
    have hend : (s.finishDelay (operandCount s.curArg0)).Between :=
      h.complete (t := s.emit (.delay (operandCount s.curArg0).toNat)) (by simp [hfsm]) 0#32
        ⟨_, _, rfl⟩
    rw [State.opEdge_delay hfsm]
    obtain ⟨hnext, hnone⟩ := h.countEdge (.inl hfsm) hstart hdone hend hstart
    exact ⟨hnext, by simp [hnone]⟩
  | guard =>
    have hend : (s.releaseSelect.complete 0#32).Between :=
      h.complete (by simp [hfsm]) 0#32 ⟨_, _, s.releaseSelect_eq⟩
    rw [State.opEdge_guard hfsm]
    obtain ⟨hnext, hnone⟩ :=
      h.countEdge (.inr hfsm) hstart hdone hend (by simp [s.releaseSelect_eq, hstart])
    exact ⟨hnext, by simp [hnone]⟩
  | single | rdyWait | frameWait =>
    simpa only [State.opEdge, hfsm] using (h.readyToRun (by simp [hfsm]) hstart hdone).nextOr_exec

/-- A `tx_done` ends the ownership but not the pulse of a hand-off, which comes only where there was none. -/
theorem State.BetweenEdges.txDoneEdge {s : State} (h : s.BetweenEdges) {owned : Bool}
    (hstart : s.txStartR = true → owned = false) (d : Bool) : (s.txDoneEdge owned d).BetweenEdges := by
  rw [State.txDoneEdge_eq]
  have hop : ({ s with frameOwned := s.frameOwned && !(owned && d) } : State).OpInProgress := by
    have hop := h.op
    unfold State.OpInProgress at hop ⊢
    cases hfsm : s.fsm <;> simp_all
  exact {
    legal := h.legal, frameWf := h.frameWf, defectBytes := h.defectBytes, op := hop
    wires := h.wires, xferBits := h.xferBits, xferBudget := h.xferBudget, count := h.count
    bits := h.bits, start := fun hs => by simp [h.start hs, hstart hs], done := h.done }

/-- The synchronizer is no part of the invariant. -/
theorem State.BetweenEdges.syncEdge {s : State} (h : s.BetweenEdges) (d : Bool) :
    (s.syncEdge d).BetweenEdges :=
  { legal := h.legal, frameWf := h.frameWf, defectBytes := h.defectBytes, op := h.op
    wires := h.wires, xferBits := h.xferBits, xferBudget := h.xferBudget, count := h.count
    bits := h.bits, start := h.start, done := h.done }

/-- Every edge keeps the invariant, whatever the pins are. -/
theorem Clock.edge_betweenEdges {s : State} (h : s.BetweenEdges) (p : Pins) :
    (Clock.edge p s).BetweenEdges := by
  cases hrst : p.rstN with
  | false =>
    rw [Clock.edge_reset hrst]
    exact (State.resetEdge_between h.legal).betweenEdges
  | true =>
    obtain ⟨hnext, hstart⟩ := h.clearPulses.opEdge s.clearPulses_txStartR s.clearPulses_doneR p
    rw [Clock.edge_run hrst]
    exact (hnext.txDoneEdge hstart p.txDone).syncEdge p.drdyN

end Sys2Proof.Machine
end

section
/-! The statements about the invariant between clock edges. -/

namespace Sys2Proof.Machine

/-- Settles O34. The reset state is what a reset edge makes of it, and its parameters are legal. -/
theorem resetSatisfiesInvariants : Obligations.ResetSatisfiesInvariants := by
  have hbetween : State.reset.Between := State.resetEdge_between (s := State.reset) (by decide)
  exact ⟨hbetween, hbetween.betweenEdges⟩

/-- Settles O36. The operation in progress keeps the invariant in each state of the control machine, and hands
off only where `tx_done` has nothing to take. -/
theorem edgeKeepsBetweenEdges : Obligations.EdgeKeepsBetweenEdges :=
  fun p _ h => Clock.edge_betweenEdges h p

end Sys2Proof.Machine
end

section
/-! SUPPORT. Single edges: an owned frame, a held RDYW, and the edge of a transfer with the pulses and `tx_done`
around it. -/

namespace Sys2Proof.Machine

open Sys2Proof

/-! ## An owned frame -/

/-- Either end of a transfer leaves the buffer and its ownership. -/
theorem State.finishXfer_keeps_frame (s : State) (tx : Byte) (r : Xfer) :
    (s.finishXfer tx r).frame = s.frame ∧ (s.finishXfer tx r).frameOwned = s.frameOwned := by
  cases r <;> exact ⟨rfl, rfl⟩

theorem State.xferEdge_keeps_frame (s : State) (miso stall : Bool) :
    (s.xferEdge miso stall).frame = s.frame ∧
    (s.xferEdge miso stall).frameOwned = s.frameOwned := by
  have hcases := s.xferEdge_cases miso stall
  obtain ⟨cnt, level, out, reg, bits, ht⟩ := s.transferEdge_record miso stall
  rw [ht] at hcases
  rcases hcases with ⟨-, -, he⟩ | ⟨-, -, he⟩ | ⟨-, -, he⟩
  · rw [he]
    exact State.finishXfer_keeps_frame _ _ _
  · rw [he]
    exact State.finishXfer_keeps_frame _ _ _
  · rw [he]
    exact ⟨rfl, rfl⟩

/-- A wait leaves the buffer and its ownership where its end does. -/
theorem State.countEdge_keeps_frame {s done : State}
    (h : done.frame = s.frame ∧ done.frameOwned = s.frameOwned) :
    (s.countEdge done).frame = s.frame ∧ (s.countEdge done).frameOwned = s.frameOwned := by
  rcases s.countEdge_cases done with ⟨-, he⟩ | ⟨-, he⟩
  · rwa [he]
  · rw [he]
    exact ⟨rfl, rfl⟩

/-- Outside the states in which an edge runs a meaning, an edge leaves the buffer and its ownership. -/
theorem State.opEdge_keeps_frame {s : State}
    (h : s.fsm = .idle ∨ s.fsm = .xfer ∨ s.fsm = .delay ∨ s.fsm = .guard) (p : Pins) :
    (s.opEdge p).frame = s.frame ∧ (s.opEdge p).frameOwned = s.frameOwned := by
  rcases h with hfsm | hfsm | hfsm | hfsm
  · cases hop : p.op with
    | none => simp [State.opEdge_idle_none hfsm hop]
    | some w => simp [State.opEdge_idle_some hfsm hop, s.accept_frame w]
  · rw [State.opEdge_xfer hfsm]
    exact s.xferEdge_keeps_frame p.miso p.stall
  · rw [State.opEdge_delay hfsm]
    exact State.countEdge_keeps_frame ⟨rfl, rfl⟩
  · rw [State.opEdge_guard hfsm]
    exact State.countEdge_keeps_frame (by simp [s.releaseSelect_eq])

/-- An operation in SINGLE, RDYWAIT or FRAMEWAIT does on its edge what its meaning does. -/
theorem State.opEdge_runs {s : State} (h : s.fsm = .single ∨ s.fsm = .rdyWait ∨ s.fsm = .frameWait)
    (p : Pins) : ∃ t, exec s.latchedInstr s = .next t ∧ s.opEdge p = t := by
  obtain ⟨t, ht⟩ := exec_next s.latchedInstr s
  refine ⟨t, ht, ?_⟩
  rcases h with h | h | h <;> simp only [State.opEdge, h, ht, nextOr_next]

/-- Nothing in progress writes a frame that TXC owns, or ends the ownership. -/
theorem State.opEdge_keeps_owned_frame {s : State} (hown : s.frameOwned = true) (p : Pins) :
    (s.opEdge p).frame = s.frame ∧ (s.opEdge p).frameOwned = true := by
  by_cases h : s.fsm = .idle ∨ s.fsm = .xfer ∨ s.fsm = .delay ∨ s.fsm = .guard
  · simpa [hown] using State.opEdge_keeps_frame h p
  · have hrun : s.fsm = .single ∨ s.fsm = .rdyWait ∨ s.fsm = .frameWait := by
      cases hfsm : s.fsm <;> simp_all
    obtain ⟨t, ht, hedge⟩ := State.opEdge_runs hrun p
    rw [hedge]
    exact exec_keeps_owned_frame ht hown

theorem Clock.edge_keeps_owned_frame {s : State} {p : Pins} (hrst : p.rstN = true)
    (hown : s.frameOwned = true) (hdone : p.txDone = false) :
    (Clock.edge p s).frameOwned = true ∧ (Clock.edge p s).frame = s.frame := by
  obtain ⟨hframe, howned⟩ := State.opEdge_keeps_owned_frame (s := s.clearPulses) hown p
  rw [Clock.edge_run hrst]
  simp [hframe, howned, hdone]

/-! ## A held RDYW -/

/-- The latched code 0x5 is RDYW (30_encoding.md R72). -/
theorem State.latchedInstr_rdyw {s : State} (h : s.curOp = 0x5#4) : s.latchedInstr = .rdyw := by
  simp [State.latchedInstr, State.latchedWord, h, decodeFields]

theorem Clock.edge_rdyWait_notReady {s : State} {p : Pins} (hfsm : s.fsm = .rdyWait)
    (hop : s.curOp = 0x5#4) (hrst : p.rstN = true) (hready : s.readySample = false) :
    Clock.edge p s =
      ((s.clearPulses.hold .rdyWait).txDoneEdge s.frameOwned p.txDone).syncEdge p.drdyN := by
  obtain ⟨t, ht, hedge⟩ := State.opEdge_runs (s := s.clearPulses) (.inr (.inl hfsm)) p
  rw [State.latchedInstr_rdyw (s := s.clearPulses) hop,
    exec_rdyw_notReady (s := s.clearPulses) (by simpa [State.readySample] using hready)] at ht
  rw [Clock.edge_run hrst, hedge, ← Host.Outcome.next.inj ht]

theorem Clock.edge_rdyWait_ready {s : State} {p : Pins} (hfsm : s.fsm = .rdyWait)
    (hop : s.curOp = 0x5#4) (hrst : p.rstN = true) (hready : s.readySample = true) :
    Clock.edge p s =
      ((Spec.afterResult 0#32 [.readySample true] s.clearPulses).txDoneEdge s.frameOwned
        p.txDone).syncEdge p.drdyN := by
  obtain ⟨t, ht, hedge⟩ := State.opEdge_runs (s := s.clearPulses) (.inr (.inl hfsm)) p
  rw [State.latchedInstr_rdyw (s := s.clearPulses) hop,
    exec_rdyw_ready (s := s.clearPulses) (by simpa [State.readySample] using hready)] at ht
  rw [Clock.edge_run hrst, hedge, ← Host.Outcome.next.inj ht]

/-- A held RDYW at `s` has completed at `t`, and nothing else was observed. -/
def State.ReadyWaitDone (s t : State) : Prop :=
  t.fsm = .idle ∧ t.trace = s.trace ++ [.readySample true] ∧ t.results = s.results ++ [0#32]

/-- A held RDYW at `s` is held at `t`, and nothing was observed. -/
def State.ReadyWaitGoesOn (s t : State) : Prop :=
  t.fsm = .rdyWait ∧ t.curOp = 0x5#4 ∧ t.trace = s.trace ∧ t.results = s.results

theorem Clock.edge_readyWaitDone {s t : State} {p : Pins} (h : s.ReadyWaitGoesOn t)
    (hrst : p.rstN = true) (hsync : t.drdySync = false) : s.ReadyWaitDone (Clock.edge p t) := by
  obtain ⟨hfsm, hop, htrace, hresults⟩ := h
  rw [Clock.edge_rdyWait_ready hfsm hop hrst (by simp [State.readySample, hsync])]
  simp [State.ReadyWaitDone, Spec.afterResult, htrace, hresults]

theorem Clock.edge_readyWaitGoesOn {s t : State} {p : Pins} (h : s.ReadyWaitGoesOn t)
    (hrst : p.rstN = true) (hsync : t.drdySync = true) : s.ReadyWaitGoesOn (Clock.edge p t) := by
  obtain ⟨hfsm, hop, htrace, hresults⟩ := h
  rw [Clock.edge_rdyWait_notReady hfsm hop hrst (by simp [State.readySample, hsync])]
  simp [State.ReadyWaitGoesOn, htrace, hresults, hop]

/-- With nothing presented a completed RDYW stays completed. -/
theorem Clock.edge_idle_readyWaitDone {s t : State} {p : Pins} (h : s.ReadyWaitDone t)
    (hrst : p.rstN = true) (hop : p.op = none) : s.ReadyWaitDone (Clock.edge p t) := by
  obtain ⟨hfsm, htrace, hresults⟩ := h
  rw [Clock.edge_run hrst, State.opEdge_idle_none (s := t.clearPulses) hfsm hop]
  simp [State.ReadyWaitDone, hfsm, htrace, hresults]

/-- One edge with the level `ready` in the second flop: completed, or held with the first flop moved on. -/
theorem Clock.edge_readyWait_cases {s t : State} {p : Pins} (h : s.ReadyWaitDone t ∨ s.ReadyWaitGoesOn t)
    (hrst : p.rstN = true) (hop : p.op = none) :
    s.ReadyWaitDone (Clock.edge p t) ∨ t.drdySync = true ∧ s.ReadyWaitGoesOn (Clock.edge p t) := by
  rcases h with hdone | hheld
  · exact .inl (Clock.edge_idle_readyWaitDone hdone hrst hop)
  · cases hsync : t.drdySync with
    | false => exact .inl (Clock.edge_readyWaitDone hheld hrst hsync)
    | true => exact .inr ⟨rfl, Clock.edge_readyWaitGoesOn hheld hrst hsync⟩

/-! ## A transfer -/

/-- What an edge with `rst_n = 1` does after the operation in progress. -/
def State.endEdge (s : State) (owned : Bool) (p : Pins) : State :=
  (s.txDoneEdge owned p.txDone).syncEdge p.drdyN

@[simp] theorem State.endEdge_eq (s : State) (owned : Bool) (p : Pins) :
    s.endEdge owned p = (s.txDoneEdge owned p.txDone).syncEdge p.drdyN := rfl

/-- Everything an edge of a transfer can do, the pulses and `tx_done` around it included. -/
theorem Clock.edge_xfer_cases {s : State} {p : Pins} (hfsm : s.fsm = .xfer) (hrst : p.rstN = true) :
    let t := s.transferEdge p.miso p.stall
    (t.bitcnt = 8 ∧ (t.sclk = t.cfg.spiCpol ∨ t.wdogExpired = true) ∧ Clock.edge p s =
      (t.clearPulses.finishXfer (operandByte t.curArg0) (.ok t.shreg)).endEdge s.frameOwned p) ∨
    (t.bitcnt ≠ 8 ∧ t.wdogExpired = true ∧ Clock.edge p s =
      (t.clearPulses.finishXfer (operandByte t.curArg0)
        (.timeout ⟨t.shreg, Fin.ofNat 8 t.bitcnt, t.sclkCnt⟩)).endEdge s.frameOwned p) ∨
    (t.wdogExpired = false ∧ (t.bitcnt = 8 → t.sclk ≠ t.cfg.spiCpol) ∧
      Clock.edge p s = t.clearPulses.endEdge s.frameOwned p) := by
  intro t
  have hedge : Clock.edge p s =
      (s.clearPulses.xferEdge p.miso p.stall).endEdge s.frameOwned p := by
    rw [Clock.edge_run hrst, State.opEdge_xfer (s := s.clearPulses) hfsm, State.endEdge]
  have hcases := s.clearPulses.xferEdge_cases p.miso p.stall
  rw [s.transferEdge_clearPulses] at hcases
  rcases hcases with ⟨h8, hend, he⟩ | ⟨h8, hlimit, he⟩ | ⟨hlimit, hoff, he⟩
  · exact .inl ⟨h8, hend, by rw [hedge, he]; rfl⟩
  · exact .inr (.inl ⟨h8, hlimit, by rw [hedge, he]; rfl⟩)
  · exact .inr (.inr ⟨hlimit, hoff, by rw [hedge, he]⟩)

/-- A transfer within its budget ends on the next edge or goes on with one cycle more counted. -/
theorem Clock.edge_xfer_ends_or_counts {s : State} {p : Pins} (hfsm : s.fsm = .xfer)
    (hrst : p.rstN = true) :
    (Clock.edge p s).fsm = .idle ∨
    (Clock.edge p s).fsm = .xfer ∧ (Clock.edge p s).wdog = s.wdog + 1 ∧
      (Clock.edge p s).cfg = s.cfg := by
  obtain ⟨hcfg, hkept, -, -, -, -, -, -, -, hwdog⟩ := s.transferEdge_frame p.miso p.stall
  rcases Clock.edge_xfer_cases hfsm hrst with ⟨-, -, he⟩ | ⟨-, -, he⟩ | ⟨-, -, he⟩
  · rw [he, State.finishXfer_ok]
    simp
  · rw [he, State.finishXfer_timeout]
    simp
  · rw [he]
    simp [hcfg, hkept, hwdog, hfsm]

/-- After `k` edges a transfer has ended, or it is in progress with `k` cycles more counted. -/
theorem Clock.run_xfer_ends_or_counts {s : State} {p : Nat → Pins} (h : s.BetweenEdges)
    (hfsm : s.fsm = .xfer) (hrst : ∀ k, (p k).rstN = true) (k : Nat) :
    (∃ j ≤ k, (Clock.run p j s).fsm = .idle) ∨
    ((Clock.run p k s).BetweenEdges ∧ (Clock.run p k s).fsm = .xfer ∧
      (Clock.run p k s).wdog = s.wdog + k ∧ (Clock.run p k s).cfg = s.cfg) := by
  induction k with
  | zero => exact .inr ⟨h, hfsm, rfl, rfl⟩
  | succ k ih =>
    rcases ih with ⟨j, hj, hidle⟩ | ⟨hbetween, hxfer, hwdog, hcfg⟩
    · exact .inl ⟨j, Nat.le_succ_of_le hj, hidle⟩
    · rcases Clock.edge_xfer_ends_or_counts hxfer (hrst k) with hidle | ⟨hnext, hcount, hkept⟩
      · exact .inl ⟨k + 1, Nat.le_refl _, hidle⟩
      · exact .inr ⟨Clock.edge_betweenEdges hbetween (p k), hnext,
          hcount.trans (by rw [hwdog, Nat.add_assoc]), hkept.trans hcfg⟩

/-- With the eighth sample in, no edge takes another one. -/
theorem State.BetweenEdges.transferEdge_of_eighth {s : State} (h : s.BetweenEdges)
    (hfsm : s.fsm = .xfer) (h8 : s.bitcnt = 8) (miso stall : Bool) :
    (s.transferEdge miso stall).bitcnt = 8 ∧ (s.transferEdge miso stall).shreg = s.shreg := by
  have hleft : s.SamplesLeft := h.xferBits hfsm
  obtain ⟨hle, -⟩ := hleft.transferEdge h.legal.2.1 miso stall
  rcases s.transferEdge_sample miso stall with ⟨hbits, hreg⟩ | ⟨-, hbits, -⟩
  · exact ⟨hbits.trans h8, hreg⟩
  · omega

/-! ## A shifter that stands still -/

/-- A transfer of `tx` at `s` has made no progress in `n` clk cycles. -/
def State.StalledFor (s : State) (tx : Byte) (n : Nat) (t : State) : Prop :=
  t.fsm = .xfer ∧ t.wdog = n ∧ t.bitcnt = 0 ∧ t.shreg = tx ∧ operandByte t.curArg0 = tx ∧
  t.cfg = s.cfg ∧ t.csActive = s.csActive ∧ t.trace = s.trace ∧ t.xferTimeouts = s.xferTimeouts

theorem State.transferEdge_stall (s : State) (miso : Bool) :
    s.transferEdge miso true = { s with wdog := s.wdog + 1 } := rfl

/-- Below the limit a stalled transfer stands still for one more cycle. -/
theorem Clock.edge_stalledFor {s t : State} {tx : Byte} {n : Nat} {p : Pins} (h : s.StalledFor tx n t)
    (hrst : p.rstN = true) (hstall : p.stall = true) (hn : n + 1 < s.cfg.xferTimeoutCycles) :
    s.StalledFor tx (n + 1) (Clock.edge p t) := by
  obtain ⟨hfsm, hwdog, hbits, hreg, harg, hcfg, hcs, htrace, htimeouts⟩ := h
  have hcases := Clock.edge_xfer_cases hfsm hrst
  rw [hstall, State.transferEdge_stall] at hcases
  rcases hcases with ⟨h8, -⟩ | ⟨-, hlimit, -⟩ | ⟨-, -, he⟩
  · simp [hbits] at h8
  · simp [State.wdogExpired, hcfg, hwdog] at hlimit
    omega
  · rw [he]
    simp [State.StalledFor, hfsm, hwdog, hbits, hreg, harg, hcfg, hcs, htrace, htimeouts]

/-- At the limit it is abandoned, with the byte it stands at as the result. -/
theorem Clock.edge_stalledFor_limit {s t : State} {tx : Byte} {n : Nat} {p : Pins}
    (h : s.StalledFor tx n t) (hrst : p.rstN = true) (hstall : p.stall = true)
    (hn : s.cfg.xferTimeoutCycles = n + 1) :
    (Clock.edge p t).fsm = .idle ∧ (Clock.edge p t).doneR = true ∧
    (Clock.edge p t).sclk = s.cfg.spiCpol ∧ (Clock.edge p t).mosi = false ∧
    (Clock.edge p t).trace = s.trace ++ [.byteTimeout tx s.csActive] ∧
    (Clock.edge p t).resData = tx.zeroExtend 32 ∧
    (Clock.edge p t).xferTimeouts =
      (if s.xferTimeouts = 0xFFFF#16 then 0xFFFF#16 else s.xferTimeouts + 1#16) := by
  obtain ⟨hfsm, hwdog, hbits, hreg, harg, hcfg, hcs, htrace, htimeouts⟩ := h
  have hcases := Clock.edge_xfer_cases hfsm hrst
  rw [hstall, State.transferEdge_stall] at hcases
  rcases hcases with ⟨h8, -⟩ | ⟨-, -, he⟩ | ⟨hlimit, -⟩
  · simp [hbits] at h8
  · have hcount : (Clock.edge p t).xferTimeouts = t.countTimeout.xferTimeouts := by
      rw [he, State.finishXfer_timeout]
      simp only [State.endEdge_eq, State.syncEdge_xferTimeouts, State.txDoneEdge_xferTimeouts,
        State.complete_xferTimeouts, State.emit_xferTimeouts]
      rfl
    rw [hcount, State.countTimeout_xferTimeouts, htimeouts, he, State.finishXfer_timeout]
    simp [hreg, harg, hcfg, hcs, htrace, zextByte]
  · simp [State.wdogExpired, hcfg, hwdog] at hlimit
    omega

end Sys2Proof.Machine
end

section
/-! The statements about single edges, a held RDYW and the end of a transfer. -/

namespace Sys2Proof.Machine

/-- Settles O30. No operation in progress writes an owned frame, and only `tx_done` ends the ownership. -/
theorem ownedFrameIsStableOnEveryEdge : Obligations.OwnedFrameIsStableOnEveryEdge := by
  intro s p hrst hown hdone
  obtain ⟨howned, hframe⟩ := Clock.edge_keeps_owned_frame hrst hown hdone
  exact ⟨howned, fun addr => by rw [hframe]⟩

/-- Settles O41. The edge runs RDYW, which tests the sample alone. -/
theorem readyWaitEdge : Obligations.ReadyWaitEdge := by
  refine fun s p hfsm hop hrst => ⟨fun hready => ?_, fun hready => ?_⟩
  · rw [Clock.edge_rdyWait_notReady hfsm hop hrst hready]
    simp
  · rw [Clock.edge_rdyWait_ready hfsm hop hrst hready]
    simp [Spec.afterResult]

/-- Settles O42. Were RDYW held on all three edges, the second flop would be 1 before the third one; but the level
of the first edge has passed both flops by then. -/
theorem readyWaitEndsWhenConverterReady : Obligations.ReadyWaitEndsWhenConverterReady := by
  intro s p hfsm hop hpins
  obtain ⟨hrst₀, hlow₀, hop₀⟩ := hpins 0
  obtain ⟨hrst₁, -, hop₁⟩ := hpins 1
  obtain ⟨hrst₂, -, hop₂⟩ := hpins 2
  have hstart : s.ReadyWaitGoesOn s := ⟨hfsm, hop, rfl, rfl⟩
  have h₁ := Clock.edge_readyWait_cases (.inr hstart) hrst₀ hop₀
  have h₂ := Clock.edge_readyWait_cases (h₁.imp_right And.right) hrst₁ hop₁
  have h₃ := Clock.edge_readyWait_cases (h₂.imp_right And.right) hrst₂ hop₂
  rcases h₃ with hdone | ⟨hsync, -⟩
  · exact hdone
  · obtain ⟨hmeta, -⟩ := Clock.edge_shifts_synchronizer hrst₀ s
    obtain ⟨-, hsync₁⟩ := Clock.edge_shifts_synchronizer hrst₁ (Clock.edge (p 0) s)
    rw [hsync₁, hmeta, hlow₀] at hsync
    cases hsync

/-- Settles O43. Each edge of a transfer in progress counts one cycle, and the invariant keeps the count below the
limit; with the eighth sample in, neither end of a transfer but the completion is left. -/
theorem xchgEndsWithinBudget : Obligations.XchgEndsWithinBudget := by
  refine ⟨fun s p h hfsm hrst => ?_, fun s p h hfsm h8 hrst => ?_⟩
  · rcases Clock.run_xfer_ends_or_counts h hfsm hrst (s.cfg.xferTimeoutCycles - s.wdog) with
      hidle | ⟨hbetween, hxfer, hwdog, hcfg⟩
    · exact hidle
    · have hbudget := hbetween.xferBudget hxfer
      rw [hwdog, hcfg] at hbudget
      omega
  · obtain ⟨hbits, hreg⟩ := h.transferEdge_of_eighth hfsm h8 p.miso p.stall
    obtain ⟨-, hkept, -, harg, hcs, -, -, htimeouts, htrace, -⟩ := s.transferEdge_frame p.miso p.stall
    rcases Clock.edge_xfer_cases hfsm hrst with ⟨-, -, he⟩ | ⟨hne, -⟩ | ⟨-, -, he⟩
    · rw [he, State.finishXfer_ok]
      refine ⟨by simp [htimeouts], by simp [hreg], .inr ⟨by simp, ?_, ?_⟩⟩
      · simp [hreg, zextByte]
      · simp [htrace, harg, hcs, hreg]
    · exact absurd hbits hne
    · rw [he]
      exact ⟨by simp [htimeouts], by simp [hreg], .inl ⟨by simp [hkept, hfsm], by simp [htrace]⟩⟩

/-- Settles O44. The stalled transfer stands still below the limit, one cycle counted on each edge. -/
theorem deadShifterTimesOut : Obligations.DeadShifterTimesOut := by
  intro s w p hlegal hfsm _ hop hcode hpins
  obtain ⟨-, -, -, hlimit⟩ := hlegal
  have hstart : s.StalledFor (operandByte (fieldArg0 w)) 0 (Clock.edge (p 0) s) := by
    rw [Clock.edge_run (hpins 0).1, State.opEdge_idle_some (s := s.clearPulses) hfsm hop]
    simp [State.StalledFor, State.accept_xchg hcode]
  have hstalled (n : Nat) (hn : n < s.cfg.xferTimeoutCycles) :
      s.StalledFor (operandByte (fieldArg0 w)) n (Clock.run p (n + 1) s) := by
    induction n with
    | zero => exact hstart
    | succ n ih =>
      exact Clock.edge_stalledFor (ih (by omega)) (hpins (n + 1)).1 (hpins (n + 1)).2 hn
  refine ⟨fun k hk hle => ?_, ?_⟩
  · obtain ⟨n, rfl⟩ : ∃ n, k = n + 1 := ⟨k - 1, by omega⟩
    exact (hstalled n hle).1
  · obtain ⟨n, hn⟩ : ∃ n, s.cfg.xferTimeoutCycles = n + 1 :=
      ⟨s.cfg.xferTimeoutCycles - 1, by omega⟩
    rw [hn]
    exact Clock.edge_stalledFor_limit (hstalled n (by omega)) (hpins (n + 1)).1 (hpins (n + 1)).2 hn

end Sys2Proof.Machine
end

section
/-! SUPPORT. Operations of many edges: what the outside moves meanwhile, the synchronizer and the ownership, is set
aside, and the rest of the state runs by itself. -/

namespace Sys2Proof.Machine

open Sys2Proof

/-! ## The state without what the outside moves -/

/-- The state with the synchronizer and the ownership at fixed values. -/
def State.inside (s : State) : State :=
  { s with drdyMeta := false, drdySync := false, frameOwned := false }

@[simp] theorem State.inside_fsm (s : State) : s.inside.fsm = s.fsm := rfl
@[simp] theorem State.inside_csActive (s : State) : s.inside.csActive = s.csActive := rfl
@[simp] theorem State.inside_dcnt (s : State) : s.inside.dcnt = s.dcnt := rfl
@[simp] theorem State.inside_dtarget (s : State) : s.inside.dtarget = s.dtarget := rfl
@[simp] theorem State.inside_cfg (s : State) : s.inside.cfg = s.cfg := rfl
@[simp] theorem State.inside_bitcnt (s : State) : s.inside.bitcnt = s.bitcnt := rfl
@[simp] theorem State.inside_wdog (s : State) : s.inside.wdog = s.wdog := rfl
@[simp] theorem State.inside_shreg (s : State) : s.inside.shreg = s.shreg := rfl
@[simp] theorem State.inside_curArg0 (s : State) : s.inside.curArg0 = s.curArg0 := rfl
@[simp] theorem State.inside_sclk (s : State) : s.inside.sclk = s.sclk := rfl
@[simp] theorem State.inside_mosi (s : State) : s.inside.mosi = s.mosi := rfl

@[simp] theorem State.inside_txDoneEdge (s : State) (o d : Bool) :
    (s.txDoneEdge o d).inside = s.inside := by
  rw [State.txDoneEdge_eq]
  rfl

@[simp] theorem State.inside_syncEdge (s : State) (d : Bool) : (s.syncEdge d).inside = s.inside := rfl

/-- Two states whose insides are equal are the same but for what the outside moves. -/
theorem sameButOutside_of_inside {t u : State} (h : t.inside = u.inside) :
    Spec.sameButOutside t u := by
  calc ({ t with drdyMeta := u.drdyMeta, drdySync := u.drdySync, frameOwned := u.frameOwned } : State)
      = { t.inside with
          drdyMeta := u.drdyMeta, drdySync := u.drdySync, frameOwned := u.frameOwned } := rfl
    _ = u := by rw [h]; rfl

/-- An edge moves the inside by the operation in progress alone. -/
theorem Clock.edge_inside {p : Pins} (hrst : p.rstN = true) (s : State) :
    (Clock.edge p s).inside = (s.clearPulses.opEdge p).inside := by
  rw [Clock.edge_run hrst]
  simp

/-- The accepting edge of the clock leaves the inside of the accepted state. -/
theorem Clock.edge_accept_inside {s : State} {p : Pins} {w : CmdWord} (hfsm : s.fsm = .idle)
    (hrst : p.rstN = true) (hop : p.op = some w) :
    (Clock.edge p s).inside = (s.acceptEdge (.op w)).inside := by
  rw [Clock.edge_inside hrst, State.opEdge_idle_some (s := s.clearPulses) hfsm hop]
  simp [State.acceptEdge, Presented.word]

/-! ## The ownership -/

/-- Over an edge that runs no meaning, the ownership ends with a `tx_done` only. -/
theorem Clock.edge_frameOwned {s : State} {p : Pins}
    (h : s.fsm = .idle ∨ s.fsm = .xfer ∨ s.fsm = .delay ∨ s.fsm = .guard) (hrst : p.rstN = true) :
    (Clock.edge p s).frameOwned = (s.frameOwned && !p.txDone) := by
  have hkept := (State.opEdge_keeps_frame (s := s.clearPulses) h p).2
  rw [Clock.edge_run hrst]
  cases ho : s.frameOwned <;> simp [hkept, ho]

/-- Over edges that run no meaning, an ownership stands where no `tx_done` came (20_memory.md R56). -/
theorem Clock.run_ownershipKept {s : State} {p : Nat → Pins} {n : Nat}
    (h : ∀ k < n, (Clock.run p k s).fsm = .idle ∨ (Clock.run p k s).fsm = .xfer ∨
      (Clock.run p k s).fsm = .delay ∨ (Clock.run p k s).fsm = .guard)
    (hrst : ∀ k, (p k).rstN = true) :
    Spec.ownershipKept s.frameOwned p n (Clock.run p n s) := by
  unfold Spec.ownershipKept
  induction n with
  | zero => simp [Clock.run]
  | succ n ih =>
    rw [Clock.run, Clock.edge_frameOwned (h n (Nat.lt_succ_self n)) (hrst n), Bool.and_eq_true,
      ih fun k hk => h k (Nat.lt_succ_of_lt hk), Bool.not_eq_true', and_assoc,
      Nat.forall_lt_succ_right]

/-! ## Waits -/

theorem State.countEdge_inside (s done : State) :
    (s.countEdge done).inside = s.inside.countEdge done.inside := by
  exact apply_ite State.inside (s.dcnt = s.dtarget) done _

theorem Clock.edge_delay_inside {s : State} {p : Pins} (hfsm : s.fsm = .delay)
    (hrst : p.rstN = true) :
    (Clock.edge p s).inside = s.inside.clearPulses.countEdge
      (s.inside.clearPulses.finishDelay (operandCount s.inside.curArg0)) := by
  rw [Clock.edge_inside hrst, State.opEdge_delay (s := s.clearPulses) hfsm, State.countEdge_inside]
  rfl

theorem Clock.edge_guard_inside {s : State} {p : Pins} (hfsm : s.fsm = .guard)
    (hrst : p.rstN = true) :
    (Clock.edge p s).inside = s.inside.clearPulses.countEdge
      (s.inside.clearPulses.releaseSelect.complete 0#32) := by
  rw [Clock.edge_inside hrst, State.opEdge_guard (s := s.clearPulses) hfsm, State.countEdge_inside,
    State.releaseSelect_eq, State.releaseSelect_eq]
  rfl

/-- The inside of a block in the wait `a`, `c` cycles of it counted. -/
def State.counting (a : State) (c : Nat) : State := { a.inside with dcnt := c }

@[simp] theorem State.counting_fsm (a : State) (c : Nat) : (a.counting c).fsm = a.fsm := rfl
@[simp] theorem State.counting_csActive (a : State) (c : Nat) :
    (a.counting c).csActive = a.csActive := rfl
@[simp] theorem State.counting_dcnt (a : State) (c : Nat) : (a.counting c).dcnt = c := rfl
@[simp] theorem State.counting_dtarget (a : State) (c : Nat) :
    (a.counting c).dtarget = a.dtarget := rfl

/-- A wait, started at `a` with the pulses over, whose edges count towards the end `f`. -/
structure Clock.Waits (p : Nat → Pins) (s a : State) (f : State → State) : Prop where
  done : a.doneR = false
  txStart : a.txStartR = false
  start : (Clock.run p 1 s).inside = a.counting 0
  edge : ∀ k, (Clock.run p k s).fsm = a.fsm → (Clock.run p (k + 1) s).inside =
    (Clock.run p k s).inside.clearPulses.countEdge (f (Clock.run p k s).inside.clearPulses)

section
variable {p : Nat → Pins} {s a : State} {f : State → State}

theorem Clock.Waits.edge_counting (h : Clock.Waits p s a f) {k c : Nat}
    (hc : (Clock.run p k s).inside = a.counting c) :
    (Clock.run p (k + 1) s).inside = (a.counting c).countEdge (f (a.counting c)) := by
  have hfsm : (Clock.run p k s).fsm = a.fsm := by
    rw [← State.inside_fsm, hc, State.counting_fsm]
  have hpulses : (a.counting c).clearPulses = a.counting c := by
    simp [State.counting, State.inside, State.clearPulses, h.done, h.txStart]
  rw [h.edge k hfsm, hc, hpulses]

/-- One cycle is counted on each edge, up to the target. -/
theorem Clock.Waits.run_inside (h : Clock.Waits p s a f) {c : Nat} (hc : c ≤ a.dtarget) :
    (Clock.run p (c + 1) s).inside = a.counting c := by
  induction c with
  | zero => exact h.start
  | succ c ih =>
    rw [h.edge_counting (ih (Nat.le_of_succ_le hc))]
    exact if_neg (Nat.ne_of_lt hc)

/-- The edge after ends the wait. -/
theorem Clock.Waits.run_end (h : Clock.Waits p s a f) :
    (Clock.run p (a.dtarget + 2) s).inside = f (a.counting a.dtarget) := by
  rw [h.edge_counting (h.run_inside (Nat.le_refl _))]
  exact if_pos rfl

/-- What a wait leaves alone while it counts. -/
theorem Clock.Waits.run_fields (h : Clock.Waits p s a f) {k : Nat} (hk : 1 ≤ k)
    (hle : k ≤ a.dtarget + 1) :
    (Clock.run p k s).fsm = a.fsm ∧ (Clock.run p k s).dcnt = k - 1 ∧
    (Clock.run p k s).dtarget = a.dtarget ∧ (Clock.run p k s).csActive = a.csActive := by
  obtain ⟨c, rfl⟩ : ∃ c, k = c + 1 := ⟨k - 1, by omega⟩
  have hinside := h.run_inside (Nat.le_of_succ_le_succ hle)
  rw [← State.inside_fsm, ← State.inside_dcnt, ← State.inside_dtarget, ← State.inside_csActive, hinside]
  simp

/-- A wait hands nothing off. -/
theorem Clock.Waits.ownershipKept (h : Clock.Waits p s a f) (hidle : s.fsm = .idle)
    (hfsm : a.fsm = .delay ∨ a.fsm = .guard) (hrst : ∀ k, (p k).rstN = true) :
    Spec.ownershipKept s.frameOwned p (a.dtarget + 2) (Clock.run p (a.dtarget + 2) s) := by
  refine Clock.run_ownershipKept (fun k hk => ?_) hrst
  rcases Nat.eq_zero_or_pos k with rfl | hpos
  · exact .inl hidle
  · rw [(h.run_fields hpos (by omega)).1]
    exact .inr (.inr hfsm)

end

/-! ## DELAY and CSEL 0 -/

/-- What accepting a DELAY starts. -/
theorem State.acceptEdge_delay (s : State) {w : CmdWord} (h : fieldOpCode w = 0x2#4) :
    (s.acceptEdge (.op w)).fsm = .delay ∧ (s.acceptEdge (.op w)).dcnt = 0 ∧
    (s.acceptEdge (.op w)).dtarget = (operandCount (fieldArg0 w)).toNat * s.cfg.clkPerUs ∧
    (s.acceptEdge (.op w)).curArg0 = fieldArg0 w := by
  simp [State.acceptEdge, State.accept, State.startOp, Presented.word, acceptFsm, h]

/-- What accepting a CSEL 0 starts. -/
theorem State.acceptEdge_release (s : State) {w : CmdWord} (h : fieldOpCode w = 0x3#4)
    (hflag : operandFlag (fieldArg0 w) = false) :
    (s.acceptEdge (.op w)).fsm = .guard ∧ (s.acceptEdge (.op w)).dcnt = 0 ∧
    (s.acceptEdge (.op w)).dtarget = 2 * s.cfg.clkPerUs := by
  simp [State.acceptEdge, State.accept, State.startOp, Presented.word, acceptFsm, h, hflag]

theorem State.counting_zero {a : State} (h : a.dcnt = 0) : a.counting 0 = a.inside := by
  rw [State.counting, ← h]
  rfl

theorem Clock.waits_delay {s : State} {w : CmdWord} {p : Nat → Pins} (hfsm : s.fsm = .idle)
    (hop : (p 0).op = some w) (hcode : fieldOpCode w = 0x2#4) (hrst : ∀ k, (p k).rstN = true) :
    Clock.Waits p s (s.acceptEdge (.op w)) fun u => u.finishDelay (operandCount u.curArg0) := by
  obtain ⟨hdelay, hzero, -⟩ := s.acceptEdge_delay hcode
  exact {
    done := s.acceptEdge_doneR _, txStart := s.acceptEdge_txStartR _
    start := by rw [State.counting_zero hzero]; exact Clock.edge_accept_inside hfsm (hrst 0) hop
    edge := fun k hk => Clock.edge_delay_inside (hk.trans hdelay) (hrst k) }

theorem Clock.waits_release {s : State} {w : CmdWord} {p : Nat → Pins} (hfsm : s.fsm = .idle)
    (hop : (p 0).op = some w) (hcode : fieldOpCode w = 0x3#4)
    (hflag : operandFlag (fieldArg0 w) = false) (hrst : ∀ k, (p k).rstN = true) :
    Clock.Waits p s (s.acceptEdge (.op w)) fun u => u.releaseSelect.complete 0#32 := by
  obtain ⟨hguard, hzero, -⟩ := s.acceptEdge_release hcode hflag
  exact {
    done := s.acceptEdge_doneR _, txStart := s.acceptEdge_txStartR _
    start := by rw [State.counting_zero hzero]; exact Clock.edge_accept_inside hfsm (hrst 0) hop
    edge := fun k hk => Clock.edge_guard_inside (hk.trans hguard) (hrst k) }

/-- The meaning of DELAY leaves what its clock edges leave. -/
theorem State.counting_finishDelay {a : State} {n : BitVec 16}
    (h : a.dtarget = n.toNat * a.cfg.clkPerUs) :
    ((a.waitUs n.toNat).finishDelay n).inside = (a.counting a.dtarget).finishDelay n := by
  simp only [State.waitUs, State.waitTarget, ← h]
  rfl

theorem State.counting_releaseSelect {a : State} (h : a.dtarget = 2 * a.cfg.clkPerUs) :
    ((a.waitUs Config.guardUs).releaseSelect.complete 0#32).inside =
      (a.counting a.dtarget).releaseSelect.complete 0#32 := by
  rw [State.releaseSelect_eq, State.releaseSelect_eq]
  simp only [State.waitUs, State.waitTarget, ← h]
  rfl

theorem decodeWord_delay {w : CmdWord} (h : fieldOpCode w = 0x2#4) :
    decodeWord w = .delay (operandCount (fieldArg0 w)) := by
  simp only [decodeWord, h, decodeFields]

theorem decodeWord_csel {w : CmdWord} (h : fieldOpCode w = 0x3#4) :
    decodeWord w = .csel (operandFlag (fieldArg0 w)) := by
  simp only [decodeWord, h, decodeFields]

theorem decodeWord_xchg {w : CmdWord} (h : fieldOpCode w = 0x1#4) :
    decodeWord w = .xchg (operandByte (fieldArg0 w)) := by
  simp only [decodeWord, h, decodeFields]

end Sys2Proof.Machine
end

section
/-! The statements about clocked waits. -/

namespace Sys2Proof.Machine

/-- Settles O38. The wait counts to its target, and the state it then completes is that of the meaning. -/
theorem delayClockedGivesMeaning : Obligations.DelayClockedGivesMeaning := by
  intro s w p hfsm hop hcode hrst n
  obtain ⟨hdelay, -, htarget, harg⟩ := s.acceptEdge_delay hcode
  have hwaits := Clock.waits_delay hfsm hop hcode hrst
  rw [← htarget]
  refine ⟨fun k hk hle => ?_, hwaits.ownershipKept hfsm (.inl hdelay) hrst, _,
    by rw [decodeWord_delay hcode]; rfl, sameButOutside_of_inside ?_⟩
  · obtain ⟨hkept, hcount, hgoal, -⟩ := hwaits.run_fields hk hle
    exact ⟨hkept.trans hdelay, hcount, hgoal⟩
  · rw [hwaits.run_end, State.counting_finishDelay (by simpa using htarget)]
    exact congrArg (fun c => State.finishDelay _ (operandCount c)) harg.symm

/-- Settles O39. Chip select is no part of a wait, and its end releases it. -/
theorem guardClockedGivesMeaning : Obligations.GuardClockedGivesMeaning := by
  intro s w p hfsm hop hcode hflag hrst
  obtain ⟨hguard, -, htarget⟩ := s.acceptEdge_release hcode hflag
  have hwaits := Clock.waits_release hfsm hop hcode hflag hrst
  have hend := hwaits.run_end
  rw [← htarget]
  refine ⟨fun k hk hle => ?_, ?_, hwaits.ownershipKept hfsm (.inr hguard) hrst, _,
    by rw [decodeWord_csel hcode, hflag]; rfl, sameButOutside_of_inside ?_⟩
  · obtain ⟨hkept, -, -, hcs⟩ := hwaits.run_fields hk hle
    exact ⟨hkept.trans hguard, by simp [hcs]⟩
  · rw [State.csN_eq, ← State.inside_csActive, hend]
    simp [State.releaseSelect_eq]
  · rw [hend, State.counting_releaseSelect (by simpa using htarget)]

end Sys2Proof.Machine
end

section
/-! SUPPORT. The one cycle of a one-cycle operation (10_state.md R30): the edge after acceptance runs the meaning at
the accepted state, which the clock reaches but for the sample of the accepting edge. -/

namespace Sys2Proof.Machine

open Sys2Proof

/-- The accepting edge of the clock leaves the accepted state, with the level on the pin sampled. -/
theorem Clock.edge_accept {s : State} {p : Pins} {w : CmdWord} (hfsm : s.fsm = .idle)
    (hrst : p.rstN = true) (hop : p.op = some w) (hdone : s.inp.txDone = p.txDone) :
    Clock.edge p s = (s.acceptEdge (.op w)).withOutside p.drdyN s.inp := by
  obtain ⟨-, -, -, -, -, -, -, -, -, -, -, -, hinp, -⟩ := s.clearPulses.accept_frame w
  rw [Clock.edge_run hrst, State.opEdge_idle_some (s := s.clearPulses) hfsm hop]
  simp [State.acceptEdge, State.withOutside, State.syncEdge, Presented.word, hdone, hinp]

/-- An operation that goes to SINGLE is none that anything holds. -/
theorem not_holds_of_acceptFsm_single {s : State} {w : CmdWord}
    (h : acceptFsm (fieldOpCode w) (fieldArg0 w) s.frameOwned = .single) :
    ¬ (s.acceptEdge (.op w)).Holds (decodeWord w) := by
  have hcode := decodeWord_opCode w
  rintro (⟨hi, -⟩ | ⟨c1, c2, c3, c4, hi, hown⟩)
  · rw [hi] at hcode
    simp [acceptFsm, ← hcode, Instr.opCode] at h
  · rw [hi] at hcode
    simp only [State.acceptEdge_frameOwned, Bool.and_eq_true] at hown
    simp [acceptFsm, ← hcode, Instr.opCode, hown.1] at h

/-- The edge of a state in SINGLE that differs from `u` in the first flop leaves what the meaning leaves at `u`,
but for the synchronizer. -/
theorem Clock.edge_single_withOutside {u t : State} {p : Pins} {m : Bool} (hfsm : u.fsm = .single)
    (hdone : u.doneR = false) (hstart : u.txStartR = false) (hrst : p.rstN = true)
    (htx : p.txDone = false) (ht : exec u.latchedInstr u = .next t) :
    Spec.sameButSampling t (Clock.edge p (u.withOutside m u.inp)) := by
  have hpulses : (u.withOutside m u.inp).clearPulses = u.withOutside m u.inp := by
    simp [State.clearPulses, State.withOutside, hdone, hstart]
  obtain ⟨t', ht', he⟩ := State.opEdge_runs (s := u.withOutside m u.inp) (.inl hfsm) p
  have hexec : exec u.latchedInstr (u.withOutside m u.inp) = .next (t.withOutside m u.inp) := by
    rw [exec_withOutside rfl rfl, ht, mapNext_next]
  obtain rfl := Host.Outcome.next.inj (hexec.symm.trans ht')
  obtain ⟨-, hinp, -⟩ := exec_sameContext ht
  rw [Clock.edge_run hrst, hpulses, he, htx, State.txDoneEdge_eq]
  simp [Spec.sameButSampling, State.withOutside, State.syncEdge, ← hinp]

end Sys2Proof.Machine
end

section
/-! The statement about clocked one-cycle operations. -/

namespace Sys2Proof.Machine

/-- Settles O40. The edge after acceptance runs the latched operation at the accepted state, and what goes to SINGLE
is not held. -/
theorem oneCycleOperationsClockedGiveMeaning : Obligations.OneCycleOperationsClockedGiveMeaning := by
  intro s w p hfsm hop hsingle hrst₀ hrst₁ hdone htx
  have hacc : Clock.run p 1 s = (s.acceptEdge (.op w)).withOutside (p 0).drdyN s.inp :=
    Clock.edge_accept hfsm hrst₀ hop hdone
  have hfsm₁ : (s.acceptEdge (.op w)).fsm = .single := by
    simpa [State.acceptEdge, Presented.word] using hsingle
  have hinstr : (s.acceptEdge (.op w)).latchedInstr = decodeWord w := by
    rw [State.latchedInstr, State.acceptEdge_latchedWord, Presented.word]
  obtain ⟨t, ht⟩ := exec_next (decodeWord w) (s.acceptEdge (.op w))
  have hidle : t.fsm = .idle := by
    rcases exec_completes_or_holds ht with ⟨-, hidle, -⟩ | ⟨hholds, -⟩
    · exact hidle
    · exact absurd hholds (not_holds_of_acceptFsm_single hsingle)
  have hedge := Clock.edge_single_withOutside (m := (p 0).drdyN) hfsm₁ (s.acceptEdge_doneR _)
    (s.acceptEdge_txStartR _) hrst₁ htx (by rw [hinstr]; exact ht)
  refine ⟨?_, t, ht, hidle, ?_⟩
  · rw [hacc]
    simp [State.withOutside, hfsm₁]
  · rw [Clock.run, hacc]
    rwa [State.acceptEdge_inp] at hedge

end Sys2Proof.Machine
end

section
/-! SUPPORT. The transfer half period by half period (40_bus_primitive.md R103): half period `q` of a transfer is its
clk cycles `q*h` to `q*h + h - 1`, where `h` is half of `SCLK_DIV`. -/

namespace Sys2Proof

/-- Half of `SCLK_DIV`: the clk cycles at each SCLK level. -/
def Config.half (c : Config) : Nat := c.sclkDiv / 2

end Sys2Proof

namespace Sys2Proof.Machine

open Sys2Proof

/-! ## The shift register -/

theorem getLsbD_shiftIn_zero (r : Byte) (miso : Bool) : (shiftIn r miso).getLsbD 0 = miso := by
  calc (shiftIn r miso).getLsbD 0 = (BitVec.ofBool miso).getLsbD 0 := BitVec.getLsbD_append
    _ = miso := by simp

theorem getLsbD_shiftIn_succ (r : Byte) (miso : Bool) {i : Nat} (hi : i < 7) :
    (shiftIn r miso).getLsbD (i + 1) = r.getLsbD i := by
  calc (shiftIn r miso).getLsbD (i + 1) = (r.extractLsb' 0 7).getLsbD i := BitVec.getLsbD_append
    _ = r.getLsbD i := by simp [hi]

/-- What stands in a shift register that held `r` after the first `n` samples. -/
def shiftedIn (c : Config) (p : Nat → Pins) (r : Byte) (n : Nat) : Byte :=
  (List.range n).foldl (fun r k => shiftIn r (p (sampleEdge c k)).miso) r

@[simp] theorem shiftedIn_zero (c : Config) (p : Nat → Pins) (r : Byte) : shiftedIn c p r 0 = r := rfl

theorem shiftedIn_succ (c : Config) (p : Nat → Pins) (r : Byte) (n : Nat) :
    shiftedIn c p r (n + 1) = shiftIn (shiftedIn c p r n) (p (sampleEdge c n)).miso := by
  simp [shiftedIn, List.range_succ]

/-- Each sample moves the bits that were there one place up. -/
theorem getLsbD_shiftedIn_above (c : Config) (p : Nat → Pins) (r : Byte) {n i : Nat} (hn : n ≤ i)
    (hi : i < 8) : (shiftedIn c p r n).getLsbD i = r.getLsbD (i - n) := by
  induction n generalizing i with
  | zero => rfl
  | succ n ih =>
    obtain ⟨j, rfl⟩ : ∃ j, i = j + 1 := ⟨i - 1, by omega⟩
    rw [shiftedIn_succ, getLsbD_shiftIn_succ _ _ (by omega), ih (by omega) (by omega),
      Nat.add_sub_add_right]

/-- The places the samples have taken hold nothing of what was there. -/
theorem getLsbD_shiftedIn_below (c : Config) (p : Nat → Pins) (r r' : Byte) {n i : Nat} (hn : i < n)
    (hi : i < 8) : (shiftedIn c p r n).getLsbD i = (shiftedIn c p r' n).getLsbD i := by
  induction n generalizing i with
  | zero => omega
  | succ n ih =>
    rw [shiftedIn_succ, shiftedIn_succ]
    cases i with
    | zero => rw [getLsbD_shiftIn_zero, getLsbD_shiftIn_zero]
    | succ j =>
      rw [getLsbD_shiftIn_succ _ _ (by omega), getLsbD_shiftIn_succ _ _ (by omega),
        ih (by omega) (by omega)]

/-- Eight samples make the byte received, whatever was sent. -/
theorem shiftedIn_eight (c : Config) (p : Nat → Pins) (r : Byte) :
    shiftedIn c p r 8 = sampledByte c p :=
  BitVec.eq_of_getLsbD_eq fun _ hi => getLsbD_shiftedIn_below c p r 0#8 hi hi

/-! ## The state in a half period -/

/-- The samples taken by half period `q`. -/
def samplesBy (c : Config) (q : Nat) : Nat := if c.spiCpha then q / 2 else (q + 1) / 2

/-- MOSI in half period `q` of a transfer of `tx`: the top of the shift register at the last edge that changed it,
the start of the transfer included where the first bit stands before the first edge. -/
def mosiIn (c : Config) (p : Nat → Pins) (tx : Byte) (q : Nat) : Bool :=
  if c.spiCpha then
    if q = 0 then false else (shiftedIn c p tx ((q - 1) / 2)).getLsbD 7
  else (shiftedIn c p tx (q / 2)).getLsbD 7

/-- The inside of a block that accepted an exchange at `a` and is `r` cycles into half period `q` of it. -/
def State.transferAt (a : State) (p : Nat → Pins) (q r : Nat) : State :=
  { a.inside with
    sclkCnt := r, sclk := if q % 2 = 0 then a.cfg.spiCpol else !a.cfg.spiCpol
    mosi := mosiIn a.cfg p a.shreg q, shreg := shiftedIn a.cfg p a.shreg (samplesBy a.cfg q)
    bitcnt := samplesBy a.cfg q, wdog := q * a.cfg.half + r }

/-- Inside a half period the shifter counts. -/
theorem State.transferAt_count (a : State) (p : Nat → Pins) {q r : Nat} (hr : r + 1 < a.cfg.half)
    (miso : Bool) :
    (a.transferAt p q r).transferEdge miso false = a.transferAt p q (r + 1) := by
  have hcount : (a.transferAt p q r).shifterEdge miso =
      { a.transferAt p q r with sclkCnt := r + 1 } := if_pos hr
  rw [State.transferEdge, if_neg (by simp), hcount]
  rfl

/-- The end of an even half period is a leading edge. With `SPI_CPHA = 0` it takes sample `k`. -/
theorem State.transferAt_leading (a : State) (p : Nat → Pins) {k r : Nat} (hr : r + 1 = a.cfg.half)
    {miso : Bool} (hmiso : a.cfg.spiCpha = false → miso = (p (sampleEdge a.cfg k)).miso) :
    (a.transferAt p (2 * k) r).transferEdge miso false = a.transferAt p (2 * k + 1) 0 := by
  have heven : 2 * k % 2 = 0 := by omega
  have hodd : ¬ (2 * k + 1) % 2 = 0 := by omega
  have hk : 2 * k / 2 = k ∧ (2 * k + 1) / 2 = k ∧ (2 * k + 1 + 1) / 2 = k + 1 := by omega
  have hwdog : 2 * k * a.cfg.half + r + 1 = (2 * k + 1) * a.cfg.half := by
    rw [Nat.add_one_mul (2 * k), Nat.add_assoc, hr]
  have hnot : ¬ r + 1 < a.cfg.half := by omega
  have hlead : (a.transferAt p (2 * k) r).shifterEdge miso =
      (a.transferAt p (2 * k) r).leadingEdge miso :=
    (if_neg hnot).trans (if_pos (if_pos heven))
  rw [State.transferEdge, if_neg (by simp), hlead]
  cases hpha : a.cfg.spiCpha with
  | false =>
    simp [State.leadingEdge, State.transferAt, State.inside, samplesBy, mosiIn, hpha, hk, hwdog,
      shiftedIn_succ, hmiso hpha]
  | true =>
    simp [State.leadingEdge, State.transferAt, State.inside, samplesBy, mosiIn, hpha, hk, hwdog]

/-- The end of an odd half period is a trailing edge. With `SPI_CPHA = 1` it takes sample `k`. -/
theorem State.transferAt_trailing (a : State) (p : Nat → Pins) {k r : Nat} (hr : r + 1 = a.cfg.half)
    {miso : Bool} (hmiso : a.cfg.spiCpha = true → miso = (p (sampleEdge a.cfg k)).miso) :
    (a.transferAt p (2 * k + 1) r).transferEdge miso false = a.transferAt p (2 * k + 2) 0 := by
  have hodd : ¬ (2 * k + 1) % 2 = 0 := by omega
  have hk : (2 * k + 1) / 2 = k ∧ (2 * k + 2) / 2 = k + 1 ∧ (2 * k + 2 + 1) / 2 = k + 1 ∧
      (2 * k + 2 - 1) / 2 = k ∧ (2 * k + 1 - 1) / 2 = k := by omega
  have hwdog : (2 * k + 1) * a.cfg.half + r + 1 = (2 * k + 2) * a.cfg.half := by
    rw [Nat.add_assoc, hr, ← Nat.add_one_mul]
  have hnot : ¬ r + 1 < a.cfg.half := by omega
  have hlevel : (a.transferAt p (2 * k + 1) r).sclk ≠ a.cfg.spiCpol := by
    simp [State.transferAt]
  have htrail : (a.transferAt p (2 * k + 1) r).shifterEdge miso =
      (a.transferAt p (2 * k + 1) r).trailingEdge miso :=
    (if_neg hnot).trans (if_neg hlevel)
  rw [State.transferEdge, if_neg (by simp), htrail]
  cases hpha : a.cfg.spiCpha with
  | false =>
    simp [State.trailingEdge, State.transferAt, State.inside, samplesBy, mosiIn, hpha, hk, hwdog]
  | true =>
    simp [State.trailingEdge, State.transferAt, State.inside, samplesBy, mosiIn, hpha, hk, hwdog,
      shiftedIn_succ, hmiso hpha]

/-- The edges that take the samples, counted in half periods. -/
theorem sampleEdge_eq {c : Config} (hdiv : c.sclkDiv = 2 * c.half) (k : Nat) :
    sampleEdge c k = (if c.spiCpha then 2 * k + 2 else 2 * k + 1) * c.half := by
  unfold sampleEdge
  split
  · calc (k + 1) * c.sclkDiv = (k + 1) * (2 * c.half) := by rw [← hdiv]
      _ = (2 * k + 2) * c.half := by ring
  · calc k * c.sclkDiv + c.half = k * (2 * c.half) + c.half := by rw [← hdiv]
      _ = (2 * k + 1) * c.half := by ring

/-! ## The run of a transfer -/

theorem State.transferEdge_inside (s : State) (miso stall : Bool) :
    (s.transferEdge miso stall).inside = s.inside.transferEdge miso stall := by
  cases stall with
  | true => rfl
  | false =>
    have hshift : (s.shifterEdge miso).inside = s.inside.shifterEdge miso := by
      rcases s.shifterEdge_cases miso with ⟨hc, h⟩ | ⟨hc, hl, h⟩ | ⟨hc, hl, h⟩
      · rw [h]
        exact (if_pos (c := s.sclkCnt + 1 < s.cfg.sclkDiv / 2) hc).symm
      · rw [h]
        exact ((if_neg (c := s.sclkCnt + 1 < s.cfg.sclkDiv / 2) (by omega)).trans
          (if_pos (c := s.sclk = s.cfg.spiCpol) hl)).symm
      · rw [h]
        exact ((if_neg (c := s.sclkCnt + 1 < s.cfg.sclkDiv / 2) (by omega)).trans
          (if_neg (c := s.sclk = s.cfg.spiCpol) hl)).symm
    calc (s.transferEdge miso false).inside
        = { (s.shifterEdge miso).inside with wdog := s.wdog + 1 } := rfl
      _ = s.inside.transferEdge miso false := by rw [hshift]; rfl

/-- The pins and the accepted exchange a transfer runs under: no reset, a working shifter, legal parameters. -/
structure Clock.Transfers (p : Nat → Pins) (s a : State) : Prop where
  legal : a.cfg.Legal
  done : a.doneR = false
  txStart : a.txStartR = false
  fsm : a.fsm = .xfer
  start : (Clock.run p 1 s).inside = a.transferAt p 0 0
  pins : ∀ k, (p k).rstN = true ∧ (p k).stall = false

section
variable {p : Nat → Pins} {s a : State}

theorem Clock.Transfers.sclkDiv_eq (h : Clock.Transfers p s a) : a.cfg.sclkDiv = 2 * a.cfg.half := by
  obtain ⟨-, -, heven, -⟩ := h.legal
  unfold Config.half
  omega

/-- What the shifter leaves on the edge out of cycle `r` of half period `q`, in the terms of the cases of
`Clock.edge_xfer_cases`. -/
theorem Clock.Transfers.shifted (h : Clock.Transfers p s a) {k q r q' r' : Nat}
    (hk : (Clock.run p k s).inside = a.transferAt p q r)
    (hnext : (a.transferAt p q r).transferEdge (p k).miso false = a.transferAt p q' r') :
    (Clock.run p k s).fsm = .xfer ∧
    ((Clock.run p k s).transferEdge (p k).miso (p k).stall).inside = a.transferAt p q' r' := by
  refine ⟨?_, by rw [(h.pins k).2, State.transferEdge_inside, hk, hnext]⟩
  rw [← State.inside_fsm, hk]
  exact h.fsm

/-- An edge inside the transfer goes on with what the shifter leaves. -/
theorem Clock.Transfers.edge_goesOn (h : Clock.Transfers p s a) {k q r q' r' : Nat}
    (hk : (Clock.run p k s).inside = a.transferAt p q r)
    (hnext : (a.transferAt p q r).transferEdge (p k).miso false = a.transferAt p q' r')
    (hq : q' < 16) (hr : r' < a.cfg.half) :
    (Clock.run p (k + 1) s).inside = a.transferAt p q' r' := by
  obtain ⟨hfsm, hshifted⟩ := h.shifted hk hnext
  have hcases := Clock.edge_xfer_cases hfsm (h.pins k).1
  generalize (Clock.run p k s).transferEdge (p k).miso (p k).stall = t at hshifted hcases
  have hbudget : t.wdogExpired = false := by
    obtain ⟨-, -, -, hlimit⟩ := h.legal
    have hdiv := h.sclkDiv_eq
    have hle : q' * a.cfg.half ≤ 15 * a.cfg.half := Nat.mul_le_mul_right _ (by omega)
    have hwdog : (a.transferAt p q' r').wdog = q' * a.cfg.half + r' := rfl
    have hcfg : (a.transferAt p q' r').cfg = a.cfg := rfl
    rw [State.wdogExpired, ← t.inside_wdog, ← t.inside_cfg, hshifted, hwdog, hcfg,
      decide_eq_false_iff_not]
    omega
  have hoff : t.bitcnt = 8 → t.sclk ≠ t.cfg.spiCpol := by
    rw [← t.inside_bitcnt, ← t.inside_sclk, ← t.inside_cfg, hshifted]
    intro h8
    have hodd : ¬ q' % 2 = 0 := by
      simp only [State.transferAt, samplesBy] at h8
      split at h8 <;> omega
    simp [State.transferAt, hodd]
  rcases hcases with ⟨h8, hidle | hlimit, -⟩ | ⟨-, hlimit, -⟩ | ⟨-, -, he⟩
  · exact absurd hidle (hoff h8)
  · simp [hbudget] at hlimit
  · simp [hbudget] at hlimit
  · have hpulses : (a.transferAt p q' r').clearPulses = a.transferAt p q' r' := by
      simp [State.transferAt, State.inside, State.clearPulses, h.done, h.txStart]
    rw [Clock.run, he, State.endEdge_eq, State.inside_syncEdge, State.inside_txDoneEdge]
    calc t.clearPulses.inside = t.inside.clearPulses := rfl
      _ = a.transferAt p q' r' := by rw [hshifted, hpulses]

/-- The last cycle of a half period ends it; the pins before the edge are those of its end. -/
theorem Clock.Transfers.turn (h : Clock.Transfers p s a) (q : Nat) {r : Nat} (hr : r + 1 = a.cfg.half) :
    (a.transferAt p q r).transferEdge (p ((q + 1) * a.cfg.half)).miso false =
      a.transferAt p (q + 1) 0 := by
  obtain ⟨k, rfl | rfl⟩ := Nat.even_or_odd' q
  · refine a.transferAt_leading p hr fun hpha => ?_
    rw [sampleEdge_eq h.sclkDiv_eq, hpha]
    rfl
  · refine a.transferAt_trailing p hr fun hpha => ?_
    rw [sampleEdge_eq h.sclkDiv_eq, hpha]
    rfl

/-- The transfer, clk cycle by clk cycle. -/
theorem Clock.Transfers.run_inside (h : Clock.Transfers p s a) {q : Nat} (hq : q < 16) {r : Nat}
    (hr : r < a.cfg.half) :
    (Clock.run p (q * a.cfg.half + r + 1) s).inside = a.transferAt p q r := by
  induction q generalizing r with
  | zero =>
    induction r with
    | zero => simpa using h.start
    | succ r ihr =>
      exact h.edge_goesOn (ihr (by omega)) (a.transferAt_count p hr _) hq hr
  | succ q ihq =>
    induction r with
    | zero =>
      obtain ⟨r, hlast⟩ : ∃ r, r + 1 = a.cfg.half := ⟨a.cfg.half - 1, by omega⟩
      have hend : q * a.cfg.half + r + 1 = (q + 1) * a.cfg.half := by
        rw [Nat.add_assoc, hlast, Nat.add_one_mul]
      have hprev := ihq (by omega) (r := r) (by omega)
      rw [hend] at hprev
      exact h.edge_goesOn hprev (h.turn q hlast) hq hr
    | succ r ihr =>
      exact h.edge_goesOn (ihr (by omega)) (a.transferAt_count p hr _) hq hr

theorem State.finishXfer_inside (s : State) (tx : Byte) (r : Xfer) :
    (s.finishXfer tx r).inside = s.inside.finishXfer tx r := by
  cases r <;> rfl

/-- The edge after the sixteenth half period completes the transfer with the byte sampled. -/
theorem Clock.Transfers.run_end (h : Clock.Transfers p s a) :
    (Clock.run p (16 * a.cfg.half + 1) s).inside =
      (a.transferAt p 16 0).finishXfer (operandByte a.curArg0) (.ok (sampledByte a.cfg p)) := by
  obtain ⟨-, hdiv, -, -⟩ := h.legal
  have heq := h.sclkDiv_eq
  obtain ⟨r, hlast⟩ : ∃ r, r + 1 = a.cfg.half := ⟨a.cfg.half - 1, by omega⟩
  have hprev := h.run_inside (q := 15) (by omega) (r := r) (by omega)
  have hend : 15 * a.cfg.half + r + 1 = 16 * a.cfg.half := by omega
  rw [hend] at hprev
  have hturn : (a.transferAt p 15 r).transferEdge (p (16 * a.cfg.half)).miso false =
      a.transferAt p 16 0 := h.turn 15 hlast
  obtain ⟨hfsm, hshifted⟩ := h.shifted hprev hturn
  have hcases := Clock.edge_xfer_cases hfsm (h.pins (16 * a.cfg.half)).1
  generalize (Clock.run p (16 * a.cfg.half) s).transferEdge _ _ = t at hshifted hcases
  have height : samplesBy a.cfg 16 = 8 := by
    unfold samplesBy
    split <;> rfl
  have h8 : t.bitcnt = 8 := by rw [← t.inside_bitcnt, hshifted]; exact height
  have hidle : t.sclk = t.cfg.spiCpol := by
    rw [← t.inside_sclk, ← t.inside_cfg, hshifted]
    rfl
  have hreg : t.shreg = sampledByte a.cfg p := by
    rw [← t.inside_shreg, hshifted, ← shiftedIn_eight a.cfg p a.shreg, ← height]
    rfl
  have harg : t.curArg0 = a.curArg0 := by
    rw [← t.inside_curArg0, hshifted]
    rfl
  rcases hcases with ⟨-, -, he⟩ | ⟨hne, -⟩ | ⟨-, hoff, -⟩
  · rw [Clock.run, he, State.endEdge_eq, State.inside_syncEdge, State.inside_txDoneEdge,
      State.finishXfer_inside, hreg, harg]
    have hpulses : (a.transferAt p 16 0).clearPulses = a.transferAt p 16 0 := by
      simp [State.transferAt, State.inside, State.clearPulses, h.done, h.txStart]
    have hinside : t.clearPulses.inside = a.transferAt p 16 0 := by
      calc t.clearPulses.inside = t.inside.clearPulses := rfl
        _ = a.transferAt p 16 0 := by rw [hshifted, hpulses]
    rw [hinside]
  · exact absurd h8 hne
  · exact absurd hidle (hoff h8)

/-- The meaning of XCHG leaves what the clock edges of its transfer leave. -/
theorem Clock.Transfers.afterExchange_inside (h : Clock.Transfers p s a) (tx rx : Byte) :
    (Spec.afterExchange tx rx a).inside = (a.transferAt p 16 0).finishXfer tx (.ok rx) := by
  have hwdog : 8 * a.cfg.sclkDiv = 16 * a.cfg.half + 0 := by rw [h.sclkDiv_eq]; omega
  simp only [Spec.afterExchange, hwdog]
  rfl

end

end Sys2Proof.Machine
end

section
/-! SUPPORT. The levels of the wires in a clk cycle of a transfer, as the spec states them (40_bus_primitive.md R103),
and the transfer that an accepted XCHG starts. -/

namespace Sys2Proof.Machine

open Sys2Proof

/-! ## Levels by cycle and by half period -/

section
variable {c : Config} {q r : Nat}

/-- The period of a cycle is half its half period. -/
theorem period_of_cycle (hdiv : c.sclkDiv = 2 * c.half) (hr : r < c.half) :
    (q * c.half + r) / c.sclkDiv = q / 2 := by
  rw [hdiv, Nat.mul_comm 2, ← Nat.div_div_eq_div_mul, Nat.mul_comm q, Nat.mul_add_div (by omega),
    Nat.div_eq_of_lt hr, Nat.add_zero]

theorem sclkLevel_eq (hdiv : c.sclkDiv = 2 * c.half) (hr : r < c.half) :
    Spec.sclkLevel c (q * c.half + r) = if q % 2 = 0 then c.spiCpol else !c.spiCpol := by
  have hiff : (q * c.half + r) % c.sclkDiv < c.half ↔ q % 2 = 0 := by
    have hmod := Nat.div_add_mod (q * c.half + r) c.sclkDiv
    rw [period_of_cycle hdiv hr] at hmod
    obtain ⟨k, rfl | rfl⟩ := Nat.even_or_odd' q
    · have hk : 2 * k / 2 = k := by omega
      have hwhole : c.sclkDiv * k = 2 * k * c.half := by rw [hdiv]; ring
      rw [hk] at hmod
      omega
    · have hk : (2 * k + 1) / 2 = k := by omega
      have hwhole : (2 * k + 1) * c.half = c.sclkDiv * k + c.half := by rw [hdiv]; ring
      rw [hk] at hmod
      omega
  exact if_congr hiff rfl rfl

/-- The top of the shift register in the transfer of `tx`, by the samples taken. -/
theorem shiftedIn_top (c : Config) (p : Nat → Pins) (tx : Byte) {n : Nat} (hn : n ≤ 7) :
    (shiftedIn c p tx n).getLsbD 7 = tx.getLsbD (7 - n) :=
  getLsbD_shiftedIn_above c p tx hn (by decide)

theorem mosiLevel_eq (hdiv : c.sclkDiv = 2 * c.half) (hr : r < c.half) (hq : q < 16)
    (p : Nat → Pins) (tx : Byte) :
    Spec.mosiLevel c tx (q * c.half + r) = mosiIn c p tx q := by
  have hhalf : c.sclkDiv / 2 = c.half := rfl
  unfold Spec.mosiLevel mosiIn
  rw [hhalf]
  cases hpha : c.spiCpha with
  | false => rw [if_neg (by simp), if_neg (by simp), period_of_cycle hdiv hr, shiftedIn_top]; omega
  | true =>
    rw [if_pos rfl, if_pos rfl]
    cases q with
    | zero => simp [hr]
    | succ q =>
      have hlate : ¬ (q + 1) * c.half + r < c.half := by rw [Nat.add_one_mul]; omega
      have hshift : (q + 1) * c.half + r - c.half = q * c.half + r := by rw [Nat.add_one_mul]; omega
      rw [if_neg hlate, if_neg (Nat.succ_ne_zero q), hshift, period_of_cycle hdiv hr,
        Nat.add_sub_cancel, shiftedIn_top]
      omega

/-- Before the edge that samples bit `k`, MOSI is bit `7-k` of the byte sent. -/
theorem mosiIn_before_sample (p : Nat → Pins) (tx : Byte) {k : Nat} (hk : k < 8) :
    mosiIn c p tx (if c.spiCpha then 2 * k + 1 else 2 * k) = tx.getLsbD (7 - k) := by
  unfold mosiIn
  cases hpha : c.spiCpha with
  | false =>
    have hhalf : 2 * k / 2 = k := by omega
    rw [if_neg (by simp), if_neg (by simp), hhalf, shiftedIn_top _ _ _ (by omega)]
  | true =>
    have hhalf : (2 * k + 1 - 1) / 2 = k := by omega
    rw [if_pos rfl, if_pos rfl, if_neg (by omega), hhalf, shiftedIn_top _ _ _ (by omega)]

end

/-! ## The transfer an XCHG starts -/

theorem State.acceptEdge_xchg (s : State) {w : CmdWord} (h : fieldOpCode w = 0x1#4) :
    (s.acceptEdge (.op w)).fsm = .xfer ∧ (s.acceptEdge (.op w)).sclkCnt = 0 ∧
    (s.acceptEdge (.op w)).bitcnt = 0 ∧ (s.acceptEdge (.op w)).wdog = 0 ∧
    (s.acceptEdge (.op w)).shreg = operandByte (fieldArg0 w) ∧
    (s.acceptEdge (.op w)).curArg0 = fieldArg0 w ∧
    (s.acceptEdge (.op w)).mosi =
      if s.cfg.spiCpha then false else (operandByte (fieldArg0 w)).getLsbD 7 := by
  simp [State.acceptEdge, Presented.word, State.accept_xchg h, h]

/-- A transfer starts at the beginning of its first half period. -/
theorem State.transferAt_zero {a : State} (p : Nat → Pins) (hcnt : a.sclkCnt = 0)
    (hbits : a.bitcnt = 0) (hwdog : a.wdog = 0) (hsclk : a.sclk = a.cfg.spiCpol)
    (hmosi : a.mosi = if a.cfg.spiCpha then false else a.shreg.getLsbD 7) :
    a.transferAt p 0 0 = a.inside := by
  cases hpha : a.cfg.spiCpha <;>
    simp [State.transferAt, State.inside, samplesBy, mosiIn, hcnt, hbits, hwdog, hsclk, hmosi, hpha]

theorem Clock.transfers_xchg {s : State} {w : CmdWord} {p : Nat → Pins} (hlegal : s.cfg.Legal)
    (hfsm : s.fsm = .idle) (hwires : s.WiresIdle) (hop : (p 0).op = some w)
    (hcode : fieldOpCode w = 0x1#4) (hpins : ∀ k, (p k).rstN = true ∧ (p k).stall = false) :
    Clock.Transfers p s (s.acceptEdge (.op w)) := by
  obtain ⟨hxfer, hcnt, hbits, hwdog, hreg, -, hmosi⟩ := s.acceptEdge_xchg hcode
  have hzero := State.transferAt_zero p hcnt hbits hwdog (by simpa using hwires.1)
    (by simpa [hreg] using hmosi)
  exact {
    legal := by simpa using hlegal, done := s.acceptEdge_doneR _, txStart := s.acceptEdge_txStartR _
    fsm := hxfer, start := hzero ▸ Clock.edge_accept_inside hfsm (hpins 0).1 hop, pins := hpins }

section
variable {p : Nat → Pins} {s a : State}

/-- The control machine, chip select and the wires in cycle `e` of a transfer. -/
theorem Clock.Transfers.run_levels (h : Clock.Transfers p s a) {e : Nat}
    (he : e < 8 * a.cfg.sclkDiv) :
    (Clock.run p (e + 1) s).fsm = .xfer ∧ (Clock.run p (e + 1) s).csActive = a.csActive ∧
    (Clock.run p (e + 1) s).sclk = Spec.sclkLevel a.cfg e ∧
    (Clock.run p (e + 1) s).mosi = Spec.mosiLevel a.cfg a.shreg e := by
  have hdiv := h.sclkDiv_eq
  have hhalf : 0 < a.cfg.half := by omega
  have hr := Nat.mod_lt e hhalf
  have hq : e / a.cfg.half < 16 := Nat.div_lt_of_lt_mul (by omega)
  have hinside := h.run_inside hq hr
  have hsclk := sclkLevel_eq (q := e / a.cfg.half) hdiv hr
  have hmosi := mosiLevel_eq hdiv hr hq p a.shreg
  rw [Nat.div_add_mod'] at hinside hsclk hmosi
  rw [hsclk, hmosi, ← State.inside_fsm, ← State.inside_csActive, ← State.inside_sclk,
    ← State.inside_mosi, hinside]
  exact ⟨h.fsm, rfl, rfl, rfl⟩

/-- MOSI before the edge that samples bit `k`. -/
theorem Clock.Transfers.run_mosi (h : Clock.Transfers p s a) {k : Nat} (hk : k < 8) :
    (Clock.run p (sampleEdge a.cfg k) s).mosi = a.shreg.getLsbD (7 - k) := by
  obtain ⟨-, hdiv, -, -⟩ := h.legal
  have heq := h.sclkDiv_eq
  obtain ⟨r, hlast⟩ : ∃ r, r + 1 = a.cfg.half := ⟨a.cfg.half - 1, by omega⟩
  have hedge : sampleEdge a.cfg k =
      (if a.cfg.spiCpha then 2 * k + 1 else 2 * k) * a.cfg.half + r + 1 := by
    rw [sampleEdge_eq heq, Nat.add_assoc, hlast]
    cases a.cfg.spiCpha <;> simp [Nat.add_one_mul]
  have hq : (if a.cfg.spiCpha then 2 * k + 1 else 2 * k) < 16 := by split <;> omega
  rw [hedge, ← State.inside_mosi, h.run_inside hq (by omega), ← mosiIn_before_sample p a.shreg hk]
  rfl

theorem Clock.Transfers.ownershipKept (h : Clock.Transfers p s a) (hidle : s.fsm = .idle) :
    Spec.ownershipKept s.frameOwned p (8 * a.cfg.sclkDiv + 1)
      (Clock.run p (8 * a.cfg.sclkDiv + 1) s) := by
  refine Clock.run_ownershipKept (fun k hk => ?_) fun k => (h.pins k).1
  cases k with
  | zero => exact .inl hidle
  | succ e => exact .inr (.inl (h.run_levels (Nat.lt_of_succ_lt_succ hk)).1)

end

end Sys2Proof.Machine
end

section
/-! The statement about a clocked transfer. -/

namespace Sys2Proof.Machine

/-- Settles O37. The transfer runs through sixteen half periods, whose edges move the shift register and the wires
in turn; the eighth sample is in by the last of them, and the state then is that of the meaning. -/
theorem xchgClockedGivesMeaning : Obligations.XchgClockedGivesMeaning := by
  intro s w p hlegal hfsm hwires hop hcode hpins hstall hmiso
  have h := Clock.transfers_xchg hlegal hfsm hwires hop hcode hpins
  obtain ⟨-, -, -, -, hreg, harg, -⟩ := s.acceptEdge_xchg hcode
  have hlevels := fun e => h.run_levels (e := e)
  have hsamples := fun k => h.run_mosi (k := k)
  have howned := h.ownershipKept hfsm
  simp only [State.acceptEdge_cfg, State.acceptEdge_csActive, hreg] at hlevels hsamples howned
  refine ⟨fun e he => ?_, hsamples, howned, _, by rw [decodeWord_xchg hcode]; rfl, ?_, ?_⟩
  · obtain ⟨hxfer, hcs, hsclk, hmosi⟩ := hlevels e he
    exact ⟨hxfer, by simp [hcs], hsclk, hmosi⟩
  · rw [State.exchange_received (by simpa using hstall)]
    simp [Spec.afterExchange]
  · have hlength : 8 * s.cfg.sclkDiv = 16 * (s.acceptEdge (.op w)).cfg.half := by
      rw [← s.acceptEdge_cfg (.op w), h.sclkDiv_eq]
      omega
    rw [State.exchange_received (by simpa using hstall), State.acceptEdge_inp, hmiso, hlength]
    apply sameButOutside_of_inside
    rw [h.run_end, h.afterExchange_inside, harg, State.acceptEdge_cfg]

end Sys2Proof.Machine
end

section
/-! SUPPORT. The bytes of the buffer after a FRAME (44_framer.md R181 to R183): the values of its stores where those
name every address, and in defect mode the same with four bytes kept. -/

namespace Sys2Proof.Machine

open Sys2Proof

/-- The bytes of a memory that reads as a list of stores says, one for each address in order. -/
theorem Memory.bytes_eq_map_snd {m : Memory} {w : List (Nat × Byte)}
    (haddrs : w.map Prod.fst = List.range 24) (hread : ∀ c ∈ w, Memory.read m c.1 = c.2) :
    Memory.bytes m = w.map Prod.snd := by
  calc Memory.bytes m = (w.map Prod.fst).map (Memory.read m) := by rw [haddrs]; rfl
    _ = w.map Prod.snd := by rw [List.map_map]; exact List.map_congr_left hread

/-- A channel in defect mode: its stores, and the byte `kept` at its last offset. -/
def defectChannel (k : Nat) (v : Word32) (kept : Byte) : List (Nat × Byte) :=
  channelStores true k v ++ [(tagOffset k + 4, kept)]

/-- The whole buffer after a FRAME in defect mode, address by address: `kept a` is what stood at `a`. -/
def defectLayout (c1 c2 c3 c4 : Word32) (kept : Nat → Byte) : List (Nat × Byte) :=
  [(0, 0xAA#8), (1, 0xBB#8)] ++ defectChannel 0 c1 (kept 6) ++ defectChannel 1 c2 (kept 11) ++
    defectChannel 2 c3 (kept 16) ++ defectChannel 3 c4 (kept 21) ++ [(22, 0xCC#8), (23, 0xDD#8)]

/-- What stands in the buffer in defect mode was stored, or stands at an offset that is kept. -/
theorem mem_defectLayout {c1 c2 c3 c4 : Word32} {kept : Nat → Byte} {c : Nat × Byte}
    (h : c ∈ defectLayout c1 c2 c3 c4 kept) :
    c ∈ frameStores true c1 c2 c3 c4 ∨ ∃ a ∈ [6, 11, 16, 21], c = (a, kept a) := by
  have htags : tagOffset 0 = 2 ∧ tagOffset 1 = 7 ∧ tagOffset 2 = 12 ∧ tagOffset 3 = 17 := by decide
  simp only [defectLayout, defectChannel, htags, frameStores, List.mem_append, List.mem_cons,
    List.not_mem_nil, or_false, exists_eq_or_imp, exists_eq_left] at h ⊢
  tauto

/-- The buffer after a FRAME in defect mode reads as `defectLayout` says. -/
theorem State.writeFrame_read_defectLayout {s : State} (hwf : Memory.wf s.frame = true)
    (hmode : s.cfg.frameLsbDefect = true) (c1 c2 c3 c4 : Word32) :
    ∀ c ∈ defectLayout c1 c2 c3 c4 (Memory.read s.frame),
      Memory.read (s.writeFrame c1 c2 c3 c4).frame c.1 = c.2 := by
  intro c hc
  rcases mem_defectLayout hc with hstored | ⟨a, ha, rfl⟩
  · exact State.writeFrame_read_of_mem hwf (by rw [hmode]; exact hstored)
  · exact State.writeFrame_read_kept hwf hmode c1 c2 c3 c4 ha

/-! ## The bits defect mode stores -/

/-- The mask of the bits of a channel that defect mode stores. -/
def defectMask : Word32 := 0xFFFF00FF#32

/-- A byte under a mask of ones is the byte. -/
theorem extractLsb'_and_of_ones {m : Word32} {k : Nat} (h : m.extractLsb' k 8 = BitVec.allOnes 8)
    (a : Word32) : (a &&& m).extractLsb' k 8 = a.extractLsb' k 8 := by
  rw [BitVec.extractLsb'_and, h, BitVec.and_allOnes]

theorem channelStores_defectMask (k : Nat) (a : Word32) :
    channelStores true k (a &&& defectMask) = channelStores true k a := by
  simp only [channelStores, if_true, extractLsb'_and_of_ones (m := defectMask) (k := 24) rfl,
    extractLsb'_and_of_ones (m := defectMask) (k := 16) rfl,
    extractLsb'_and_of_ones (m := defectMask) (k := 0) rfl]

/-- Channels that agree under the mask are stored alike. -/
theorem channelStores_eq_of_defectMask {a b : Word32} (h : a &&& defectMask = b &&& defectMask)
    (k : Nat) : channelStores true k a = channelStores true k b := by
  rw [← channelStores_defectMask k a, h, channelStores_defectMask]

/-- A FRAME depends on its operands through its stores alone. -/
theorem exec_frame_congr {s : State} {a1 a2 a3 a4 b1 b2 b3 b4 : Word32}
    (h : frameStores s.cfg.frameLsbDefect a1 a2 a3 a4 = frameStores s.cfg.frameLsbDefect b1 b2 b3 b4) :
    exec (.frame a1 a2 a3 a4) s = exec (.frame b1 b2 b3 b4) s := by
  have hwrite : s.writeFrame a1 a2 a3 a4 = s.writeFrame b1 b2 b3 b4 := by
    rw [State.writeFrame, h]
    rfl
  cases ho : s.frameOwned with
  | false => rw [exec_frame_free ho, exec_frame_free ho, hwrite]
  | true => rw [exec_frame_owned ho, exec_frame_owned ho]

end Sys2Proof.Machine
end

section
/-! The statements about the bytes of a frame. -/

namespace Sys2Proof.Machine

/-- Settles O53. The stores of the first mode name the 24 addresses in order; in defect mode the four addresses they
leave out keep their bytes. -/
theorem frameLayout : Obligations.FrameLayout := by
  intro s t ch1 ch2 ch3 ch4 hwf hown hexec
  obtain ⟨hframe, -⟩ := exec_frame_free_handoff hown hexec
  rw [hframe]
  refine ⟨fun hmode => ?_, fun hmode => ?_⟩
  · have hread : ∀ c ∈ frameStores false ch1 ch2 ch3 ch4,
        Memory.read (s.writeFrame ch1 ch2 ch3 ch4).frame c.1 = c.2 := fun c hc =>
      State.writeFrame_read_of_mem hwf (by rw [hmode]; exact hc)
    exact Memory.bytes_eq_map_snd (frameStoreAddrs_eq false ch1 ch2 ch3 ch4) hread
  · exact Memory.bytes_eq_map_snd (w := defectLayout ch1 ch2 ch3 ch4 (Memory.read s.frame)) rfl
      (State.writeFrame_read_defectLayout hwf hmode ch1 ch2 ch3 ch4)

/-- Settles O55. In defect mode the bytes stored are those under the mask, so equal masked operands give equal
stores. -/
theorem defectModeDropsBits15To8 : Obligations.DefectModeDropsBits15To8 := by
  intro s a1 a2 a3 a4 b1 b2 b3 b4 hmode h1 h2 h3 h4
  apply exec_frame_congr
  rw [hmode, frameStores, channelStores_eq_of_defectMask h1, channelStores_eq_of_defectMask h2,
    channelStores_eq_of_defectMask h3, channelStores_eq_of_defectMask h4, frameStores]

end Sys2Proof.Machine
end

section
/-! SUPPORT. What the operations of the client's sequences do on the bus (42_bus_commands.md R150 to R156), and what
HOST's run of a list of them leaves: one induction over the list, from which the statements about sequences follow.
`x k` is how the transfer of the `k`-th operation ends, where that operation is an exchange. -/

namespace Sys2Proof.Machine

open Sys2Proof

/-! ## One operation -/

/-- The operations the client's sequences are made of. -/
def Client.isOp : Instr → Bool
  | .xchg _ => true
  | .delay _ => true
  | .csel _ => true
  | .rdyw => true
  | .sx24 _ => true
  | _ => false

@[simp] theorem Client.isOp_xchg (tx : Byte) : Client.isOp (.xchg tx) = true := rfl
@[simp] theorem Client.isOp_delay (n : BitVec 16) : Client.isOp (.delay n) = true := rfl
@[simp] theorem Client.isOp_csel (a : Bool) : Client.isOp (.csel a) = true := rfl
@[simp] theorem Client.isOp_rdyw : Client.isOp .rdyw = true := rfl
@[simp] theorem Client.isOp_sx24 (u : U24) : Client.isOp (.sx24 u) = true := rfl

/-- The byte HOST gets from a transfer. -/
def Xfer.byte : Xfer → Byte
  | .ok rx => rx
  | .timeout p => p.byte

/-- What an exchange shows on the bus. -/
def Xfer.event (tx : Byte) (cs : Bool) : Xfer → Event
  | .ok rx => .byte tx rx cs
  | .timeout _ => .byteTimeout tx cs

/-- The chip select an operation leaves. -/
def Client.csAfter (cs : Bool) : Instr → Bool
  | .csel a => a
  | _ => cs

/-- The events of an operation that completes. -/
def Client.opEvents (x : Xfer) (cs : Bool) : Instr → List Event
  | .xchg tx => [x.event tx cs]
  | .delay n => [.delay n.toNat]
  | .csel true => if cs then [] else [.csAssert]
  | .csel false => if cs then [.guard 2, .csRelease] else [.guard 2]
  | .rdyw => [.readySample true]
  | _ => []

@[simp] theorem Client.opEvents_xchg (x : Xfer) (cs : Bool) (tx : Byte) :
    Client.opEvents x cs (.xchg tx) = [x.event tx cs] := rfl
@[simp] theorem Client.opEvents_delay (x : Xfer) (cs : Bool) (n : BitVec 16) :
    Client.opEvents x cs (.delay n) = [.delay n.toNat] := rfl
@[simp] theorem Client.opEvents_assert (x : Xfer) (cs : Bool) :
    Client.opEvents x cs (.csel true) = if cs then [] else [.csAssert] := rfl
@[simp] theorem Client.opEvents_release (x : Xfer) (cs : Bool) :
    Client.opEvents x cs (.csel false) = if cs then [.guard 2, .csRelease] else [.guard 2] := rfl
@[simp] theorem Client.opEvents_rdyw (x : Xfer) (cs : Bool) :
    Client.opEvents x cs .rdyw = [.readySample true] := rfl
@[simp] theorem Client.opEvents_sx24 (x : Xfer) (cs : Bool) (u : U24) :
    Client.opEvents x cs (.sx24 u) = [] := rfl

@[simp] theorem Client.csAfter_xchg (cs : Bool) (tx : Byte) : Client.csAfter cs (.xchg tx) = cs := rfl
@[simp] theorem Client.csAfter_delay (cs : Bool) (n : BitVec 16) :
    Client.csAfter cs (.delay n) = cs := rfl
@[simp] theorem Client.csAfter_csel (cs a : Bool) : Client.csAfter cs (.csel a) = a := rfl
@[simp] theorem Client.csAfter_rdyw (cs : Bool) : Client.csAfter cs .rdyw = cs := rfl
@[simp] theorem Client.csAfter_sx24 (cs : Bool) (u : U24) : Client.csAfter cs (.sx24 u) = cs := rfl

/-- The result of an operation that completes. -/
def Client.opResult (x : Xfer) : Instr → Word32
  | .xchg _ => zextByte x.byte
  | .sx24 u => sx24Value u
  | _ => 0#32

@[simp] theorem Client.opResult_xchg (x : Xfer) (tx : Byte) :
    Client.opResult x (.xchg tx) = zextByte x.byte := rfl
@[simp] theorem Client.opResult_sx24 (x : Xfer) (u : U24) :
    Client.opResult x (.sx24 u) = sx24Value u := rfl

/-- `t` is where an operation of the client's sequences, its transfer ending as `x`, has completed from `s`. -/
structure State.Completed (s : State) (i : Instr) (x : Xfer) (t : State) : Prop where
  idle : t.fsm = .idle
  csActive : t.csActive = Client.csAfter s.csActive i
  trace : t.trace = s.trace ++ Client.opEvents x s.csActive i
  resData : t.resData = Client.opResult x i
  results : t.results = s.results ++ [Client.opResult x i]

theorem State.exchange_completed (s : State) (tx : Byte) :
    s.Completed (.xchg tx) s.busXfer (s.exchange tx) := by
  cases hs : s.inp.xferStall with
  | false =>
    have hx : s.busXfer = .ok s.inp.misoByte := by simp [State.busXfer, hs]
    rw [State.exchange_received hs, hx]
    exact ⟨rfl, rfl, rfl, rfl, rfl⟩
  | true =>
    have hx : s.busXfer = .timeout (Config.stalled s.tick) := by simp [State.busXfer, hs]
    rw [State.exchange_stalled hs, hx]
    exact ⟨rfl, rfl, rfl, rfl, rfl⟩

/-- An operation of the client's sequences completes, a RDYW where the sample is 1. -/
theorem exec_completes {i : Instr} {s : State} (hi : Client.isOp i = true)
    (hready : i = .rdyw → s.drdySync = false) :
    ∃ t, exec i s = .next t ∧ s.Completed i s.busXfer t := by
  cases i with
  | xchg tx => exact ⟨_, rfl, s.exchange_completed tx⟩
  | delay n => exact ⟨_, rfl, ⟨rfl, rfl, rfl, rfl, rfl⟩⟩
  | csel a =>
    cases a with
    | true => exact ⟨_, exec_csel_true s, ⟨rfl, rfl, rfl, rfl, rfl⟩⟩
    | false => exact ⟨_, exec_csel_false s, ⟨rfl, rfl, rfl, rfl, rfl⟩⟩
  | rdyw => exact ⟨_, exec_rdyw_ready (hready rfl), ⟨rfl, rfl, rfl, rfl, rfl⟩⟩
  | sx24 u =>
    refine ⟨_, congrArg Host.Outcome.next (s.complete_eq_afterResult (sx24Value u)), ?_⟩
    exact ⟨rfl, rfl, rfl, rfl, rfl⟩
  | _ => cases hi

/-! ## One operation HOST issues -/

/-- How an exchange ends that the outside answers with `levels`, the model's counter standing at `tick`. -/
def Client.xferOf (levels : Inputs) (tick : Nat) : Xfer :=
  if levels.xferStall then .timeout (Config.stalled tick) else .ok levels.misoByte

/-- The state in which HOST presents an operation while the outside drives `levels`. -/
def State.issuing (s : State) (i : Instr) (levels : Inputs) : State :=
  { s with inp := { levels with rstN := true, host := some (encode i) } }

/-- What HOST issues to an idle block is accepted and run. -/
theorem hostIssues_idle {s : State} (hidle : s.fsm = .idle) (i : Instr) (levels : Inputs) :
    hostIssues i levels s = mapNext (fun t => t.finishEdge.advance levels)
      (exec i ((s.issuing i levels).acceptEdge (encode i))) := by
  have hrun := runStep_presented (next := levels) (s := s.issuing i levels) (p := encode i) rfl hidle rfl
  rwa [decodePresented_encode] at hrun

/-- An operation HOST issues to an idle block completes, a RDYW where the converter is ready. -/
theorem hostIssues_completes {i : Instr} {s : State} (hidle : s.fsm = .idle)
    (hi : Client.isOp i = true) (hready : i = .rdyw → s.drdyMeta = false) (levels : Inputs) :
    ∃ t, hostIssues i levels s = .next t ∧ s.Completed i (Client.xferOf levels s.tick) t ∧
      t.drdyMeta = levels.drdyN ∧ t.tick = s.tick + 1 := by
  rw [hostIssues_idle hidle]
  generalize ha : State.acceptEdge _ (encode i) = a
  have hsync : a.drdySync = s.drdyMeta := by simp [← ha, State.issuing]
  obtain ⟨t, hexec, hdone⟩ := exec_completes (s := a) hi fun h => hsync.trans (hready h)
  obtain ⟨-, hinp, htick, -⟩ := exec_sameContext hexec
  have hx : a.busXfer = Client.xferOf levels s.tick := by simp [← ha, State.issuing, State.busXfer, Client.xferOf]
  rw [hx] at hdone
  obtain ⟨hfsm, hcs, htrace, hres, hresults⟩ := hdone
  rw [hexec, mapNext_next]
  refine ⟨_, rfl, ⟨?_, ?_, ?_, ?_, ?_⟩, ?_, ?_⟩
  all_goals simp_all [← ha, State.issuing]

/-! ## A list of operations -/

/-- The transfers of a list of operations, by their places. -/
def Client.xferAt (levels : List Inputs) (tick : Nat) (k : Nat) : Xfer :=
  match levels[k]? with
  | some l => Client.xferOf l (tick + k)
  | none => .ok 0#8

theorem Client.xferAt_cons_succ (l : Inputs) (levels : List Inputs) (tick : Nat) :
    (fun k => Client.xferAt (l :: levels) tick (k + 1)) = Client.xferAt levels (tick + 1) := by
  funext k
  simp only [Client.xferAt, List.getElem?_cons_succ, Nat.add_assoc, Nat.add_comm 1 k]

/-- The chip select a list of operations leaves. -/
def Client.csOf (cs : Bool) (ops : List Instr) : Bool := ops.foldl Client.csAfter cs

/-- The events of a list of operations that complete. -/
def Client.eventsOf (ops : List Instr) (x : Nat → Xfer) (cs : Bool) : List Event :=
  match ops with
  | [] => []
  | i :: rest =>
    Client.opEvents (x 0) cs i ++ Client.eventsOf rest (fun k => x (k + 1)) (Client.csAfter cs i)

/-- The results of a list of operations that complete. -/
def Client.resultsOf (ops : List Instr) (x : Nat → Xfer) : List Word32 :=
  match ops with
  | [] => []
  | i :: rest => Client.opResult (x 0) i :: Client.resultsOf rest (fun k => x (k + 1))

/-- `t` is where a list of operations has completed from `s`. -/
structure State.CompletedAll (s : State) (ops : List Instr) (x : Nat → Xfer) (t : State) : Prop where
  idle : t.fsm = .idle
  csActive : t.csActive = Client.csOf s.csActive ops
  trace : t.trace = s.trace ++ Client.eventsOf ops x s.csActive
  results : t.results = s.results ++ Client.resultsOf ops x

theorem State.completedAll_nil {s : State} (h : s.fsm = .idle) (x : Nat → Xfer) :
    s.CompletedAll [] x s :=
  ⟨h, rfl, (List.append_nil _).symm, (List.append_nil _).symm⟩

theorem State.Completed.cons {s u t : State} {i : Instr} {ops : List Instr} {x : Nat → Xfer}
    (h : s.Completed i (x 0) u) (h' : u.CompletedAll ops (fun k => x (k + 1)) t) :
    s.CompletedAll (i :: ops) x t where
  idle := h'.idle
  csActive := by rw [h'.csActive, h.csActive]; rfl
  trace := by rw [h'.trace, h.trace, h.csActive, List.append_assoc]; rfl
  results := by rw [h'.results, h.results, List.append_assoc]; rfl

/-- No operation waits for the converter, or it is ready throughout. -/
def Client.NeverHeld (ops : List Instr) (levels : List Inputs) (s : State) : Prop :=
  .rdyw ∉ ops ∨ s.drdyMeta = false ∧ ∀ l ∈ levels, l.drdyN = false

/-- HOST's run of operations that are never held completes them all. -/
theorem runHost_completes {ops : List Instr} {levels : List Inputs} {s : State}
    (hidle : s.fsm = .idle) (hops : ops.all Client.isOp = true)
    (hlen : levels.length = ops.length) (hready : Client.NeverHeld ops levels s) :
    ∃ t, runHost (ops.zip levels) s = .next t ∧
      s.CompletedAll ops (Client.xferAt levels s.tick) t := by
  induction ops generalizing s levels with
  | nil => exact ⟨s, rfl, State.completedAll_nil hidle _⟩
  | cons i ops ih =>
    obtain ⟨l, levels, rfl⟩ := List.exists_cons_of_length_eq_add_one hlen
    obtain ⟨hi, hrest⟩ := Bool.and_eq_true_iff.mp hops
    have hfirst : i = .rdyw → s.drdyMeta = false := by
      rintro rfl
      exact hready.elim (fun h => absurd List.mem_cons_self h) And.left
    obtain ⟨u, hu, hdone, hmeta, htick⟩ := hostIssues_completes hidle hi hfirst l
    have hnext : Client.NeverHeld ops levels u := by
      refine hready.imp (fun h hmem => h (List.mem_cons_of_mem _ hmem)) fun h => ⟨?_, ?_⟩
      · exact hmeta.trans (h.2 l List.mem_cons_self)
      · exact fun l' hl' => h.2 l' (List.mem_cons_of_mem _ hl')
    obtain ⟨t, hrun, hall⟩ := ih hdone.idle hrest (Nat.succ.inj hlen) hnext
    refine ⟨t, ?_, hdone.cons (x := Client.xferAt (l :: levels) s.tick) ?_⟩
    · simp only [List.zip_cons_cons, runHost, hu, hdone.idle, if_true, hrun]
    · rw [Client.xferAt_cons_succ, ← htick]
      exact hall

/-- A CSEL 1 for each of some levels, then one CSEL 0. -/
def Client.assertsThenRelease (levels : List Inputs) : List Instr :=
  levels.map (fun _ => Instr.csel true) ++ [Instr.csel false]

theorem Client.assertsThenRelease_zip (levels : List Inputs) (last : Inputs) :
    levels.map (fun l => (Instr.csel true, l)) ++ [(Instr.csel false, last)] =
      (Client.assertsThenRelease levels).zip (levels ++ [last]) := by
  rw [Client.assertsThenRelease, List.zip_append (List.length_map _), List.map_prod_right_eq_zip]
  rfl

end Sys2Proof.Machine
end

section
/-! The statement about releasing chip select. -/

namespace Sys2Proof.Machine

/-- Settles O57. The sequence has no RDYW, so it completes; the chip select it leaves is that of its last
operation. -/
theorem oneReleaseUndoesAllAsserts : Obligations.OneReleaseUndoesAllAsserts := by
  intro s levels last hidle
  have hops : (Client.assertsThenRelease levels).all Client.isOp = true := by
    simp [Client.assertsThenRelease]
  have hlen : (levels ++ [last]).length = (Client.assertsThenRelease levels).length := by
    simp [Client.assertsThenRelease]
  have hready : Client.NeverHeld (Client.assertsThenRelease levels) (levels ++ [last]) s :=
    .inl (by simp [Client.assertsThenRelease])
  obtain ⟨t, hrun, hall⟩ := runHost_completes hidle hops hlen hready
  refine ⟨t, (Client.assertsThenRelease_zip levels last).symm ▸ hrun, hall.idle, ?_⟩
  rw [hall.csActive, Client.csOf, Client.assertsThenRelease, List.foldl_append]
  rfl

end Sys2Proof.Machine
end

section
/-! SUPPORT. What HOST owes the converter (42_bus_commands.md R161 to R163), operation by operation: the monitor does
not see what a transfer returns, so it can be followed along the operations HOST issues. -/

namespace Sys2Proof.Machine

open Sys2Proof

/-! ## The monitor along the operations -/

/-- What an operation that completes does to the monitor. -/
def Monitor.onOp (m : Monitor) : Instr → Monitor
  | .xchg tx => m.onByte tx
  | .delay n => { m with gapUs := m.gapUs + n.toNat }
  | .csel false => { m with gapUs := m.gapUs + 2 }
  | .rdyw => { m with ready := true }
  | _ => m

@[simp] theorem Monitor.onOp_xchg (m : Monitor) (tx : Byte) : m.onOp (.xchg tx) = m.onByte tx := rfl
@[simp] theorem Monitor.onOp_delay (m : Monitor) (n : BitVec 16) :
    m.onOp (.delay n) = { m with gapUs := m.gapUs + n.toNat } := rfl
@[simp] theorem Monitor.onOp_assert (m : Monitor) : m.onOp (.csel true) = m := rfl
@[simp] theorem Monitor.onOp_release (m : Monitor) :
    m.onOp (.csel false) = { m with gapUs := m.gapUs + 2 } := rfl
@[simp] theorem Monitor.onOp_rdyw (m : Monitor) : m.onOp .rdyw = { m with ready := true } := rfl
@[simp] theorem Monitor.onOp_sx24 (m : Monitor) (u : U24) : m.onOp (.sx24 u) = m := rfl

theorem Monitor.run_opEvents (m : Monitor) (x : Xfer) (cs : Bool) (i : Instr) :
    m.run (Client.opEvents x cs i) = m.onOp i := by
  cases i with
  | xchg tx => cases x <;> rfl
  | csel a => cases a <;> cases cs <;> rfl
  | rdyw => simp [Monitor.event]
  | _ => rfl

theorem Monitor.run_eventsOf (m : Monitor) (ops : List Instr) (x : Nat → Xfer) (cs : Bool) :
    m.run (Client.eventsOf ops x cs) = ops.foldl Monitor.onOp m := by
  induction ops generalizing m x cs with
  | nil => rfl
  | cons i ops ih => simp only [Client.eventsOf, Monitor.run_append, Monitor.run_opEvents, ih,
      List.foldl_cons]

/-- Operations that HOST may issue between two commands of the converter, and that leave it between two. -/
def Client.Conforms (ops : List Instr) : Prop :=
  ∀ m : Monitor, m.phase = .command → m.ok = true →
    (ops.foldl Monitor.onOp m).phase = .command ∧ (ops.foldl Monitor.onOp m).ok = true

theorem Client.Conforms.append {as bs : List Instr} (ha : Client.Conforms as)
    (hb : Client.Conforms bs) : Client.Conforms (as ++ bs) := by
  intro m hphase hok
  rw [List.foldl_append]
  obtain ⟨hphase', hok'⟩ := ha m hphase hok
  exact hb _ hphase' hok'

/-! ## The commands -/

/-- The byte of WREG is a write command whatever its address (R142). -/
theorem wregByte_and_mask (addr : Byte) : wregByte addr &&& 0xF0#8 = 0x50#8 := by
  decide +revert

theorem Client.conforms_csel (a : Bool) : Client.Conforms [.csel a] := by
  intro m hphase hok
  cases a <;> exact ⟨hphase, hok⟩

theorem Client.conforms_rdyw : Client.Conforms [.rdyw] := fun _ hphase hok => ⟨hphase, hok⟩

theorem Client.conforms_wreg (addr value : Byte) : Client.Conforms (Client.wreg addr value) := by
  intro m hphase hok
  simp [Client.wreg, wregByte_and_mask, hphase, hok,
    Monitor.onByte, Monitor.judge]

theorem Client.conforms_rreg5 (c : ClientParams) : Client.Conforms (Client.rreg5 c) := by
  intro m hphase hok
  simp [Client.rreg5, Client.burstByte, hphase, hok,
    Monitor.onByte, Monitor.judge, rregByte]

theorem Client.conforms_rdata (c : ClientParams) (b0 b1 b2 : Byte) :
    Client.Conforms (.rdyw :: Client.rdata c b0 b1 b2) := by
  intro m hphase hok
  simp [Client.rdata, Client.rdataExchanges, hphase, hok,
    Monitor.onByte, Monitor.judge, rdataByte]

theorem Client.conforms_syncWake (c : ClientParams) : Client.Conforms (Client.syncWake c) := by
  intro m hphase hok
  simp [Client.syncWake, hphase, hok, Monitor.onByte, Monitor.judge, syncByte, wakeupByte,
    rdataByte]

/-! ## The sequences -/

/-- A sequence of the client: its operations, what it owes the converter, and the chip select it leaves. -/
structure Client.Sequence (ops : List Instr) : Prop where
  areOps : ops.all Client.isOp = true
  conforms : Client.Conforms ops
  released : ∀ cs, Client.csOf cs ops = false

theorem Client.csOf_append (cs : Bool) (as bs : List Instr) :
    Client.csOf cs (as ++ bs) = Client.csOf (Client.csOf cs as) bs := List.foldl_append

/-- Operations before a sequence make a sequence with it. -/
theorem Client.Sequence.prepend {as bs : List Instr} (hb : Client.Sequence bs)
    (hops : as.all Client.isOp = true) (hconforms : Client.Conforms as) :
    Client.Sequence (as ++ bs) where
  areOps := by rw [List.all_append, hops, hb.areOps]; rfl
  conforms := hconforms.append hb.conforms
  released cs := by rw [Client.csOf_append]; exact hb.released _

theorem Client.sequence_desel : Client.Sequence Client.desel :=
  ⟨rfl, Client.conforms_csel false, fun _ => rfl⟩

theorem Client.sequence_wreg (addr value : Byte) : Client.Sequence (Client.wreg addr value) :=
  ⟨rfl, Client.conforms_wreg addr value, fun _ => rfl⟩

theorem Client.sequence_rreg5 (c : ClientParams) : Client.Sequence (Client.rreg5 c) :=
  ⟨rfl, Client.conforms_rreg5 c, fun _ => rfl⟩

theorem Client.sequence_rdata (c : ClientParams) (b0 b1 b2 : Byte) :
    Client.Sequence (.rdyw :: Client.rdata c b0 b1 b2) :=
  ⟨rfl, Client.conforms_rdata c b0 b1 b2, fun _ => rfl⟩

theorem Client.scanStep_eq (c : ClientParams) (i : Fin 4) (b0 b1 b2 : Byte) :
    Client.scanStep c i b0 b1 b2 = [.rdyw] ++ (Client.wreg Client.muxAddr (Client.scanPair i) ++
      (Client.syncWake c ++ .rdyw :: Client.rdata c b0 b1 b2)) := by
  simp [Client.scanStep]

theorem Client.sequence_scanStep (c : ClientParams) (i : Fin 4) (b0 b1 b2 : Byte) :
    Client.Sequence (Client.scanStep c i b0 b1 b2) := by
  rw [Client.scanStep_eq]
  exact (((Client.sequence_rdata c b0 b1 b2).prepend rfl (Client.conforms_syncWake c)).prepend rfl
    (Client.conforms_wreg _ _)).prepend rfl Client.conforms_rdyw

/-- The MUX write of `readChannel`: none where HOST has already configured the pair (R155). -/
def Client.muxWrite (last : Option Byte) (pair : Byte) : List Instr :=
  if last = some pair then [] else Client.wreg Client.muxAddr pair

theorem Client.readChannel_eq (c : ClientParams) (last : Option Byte) (pos neg : BitVec 4)
    (b0 b1 b2 : Byte) :
    (Client.readChannel c last pos neg b0 b1 b2).1 = [.csel true] ++ ([.rdyw] ++
      (Client.muxWrite last (Client.pairByte pos neg) ++ (Client.syncWake c ++
        (.rdyw :: Client.rdata c b0 b1 b2 ++ Client.desel)))) := by
  simp [Client.readChannel, Client.muxWrite, Client.desel]

theorem Client.muxWrite_ops (last : Option Byte) (pair : Byte) :
    (Client.muxWrite last pair).all Client.isOp = true ∧
      Client.Conforms (Client.muxWrite last pair) := by
  unfold Client.muxWrite
  split
  · exact ⟨rfl, fun _ hphase hok => ⟨hphase, hok⟩⟩
  · exact ⟨rfl, Client.conforms_wreg _ _⟩

theorem Client.sequence_readChannel (c : ClientParams) (last : Option Byte) (pos neg : BitVec 4)
    (b0 b1 b2 : Byte) : Client.Sequence (Client.readChannel c last pos neg b0 b1 b2).1 := by
  obtain ⟨hwrite, hconforms⟩ := Client.muxWrite_ops last (Client.pairByte pos neg)
  rw [Client.readChannel_eq]
  exact ((((Client.sequence_desel.prepend rfl (Client.conforms_rdata c b0 b1 b2)).prepend rfl
    (Client.conforms_syncWake c)).prepend hwrite hconforms).prepend rfl
    Client.conforms_rdyw).prepend rfl (Client.conforms_csel true)

end Sys2Proof.Machine
end

section
/-! The statement about the client's sequences. -/

namespace Sys2Proof.Machine

/-- Settles O58. Each is a sequence: its operations complete with the converter ready, and the monitor follows the
operations, whatever the transfers return. -/
theorem clientSequencesConform : Obligations.ClientSequencesConform := by
  intro s m c addr value b0 b1 b2 i last pos neg hidle hmeta _ hphase hok ops hmem levels hlen hlevels
  have hseq : Client.Sequence ops := by
    simp only [List.mem_cons, List.not_mem_nil, or_false] at hmem
    rcases hmem with rfl | rfl | rfl | rfl | rfl
    · exact Client.sequence_wreg addr value
    · exact Client.sequence_rreg5 c
    · exact Client.sequence_rdata c b0 b1 b2
    · exact Client.sequence_scanStep c i b0 b1 b2
    · exact Client.sequence_readChannel c last pos neg b0 b1 b2
  obtain ⟨t, hrun, hall⟩ := runHost_completes hidle hseq.areOps hlen (.inr ⟨hmeta, hlevels⟩)
  refine ⟨t, _, hrun, hall.idle, hall.csActive.trans (hseq.released _), hall.trace, ?_⟩
  rw [Monitor.run_eventsOf]
  exact (hseq.conforms m hphase hok).symm

end Sys2Proof.Machine
end

section
/-! SUPPORT. The converter as the bus trace shows it (log 28), along the client's sequences where no exchange times
out (42_bus_commands.md R143, R160, R165). -/

namespace Sys2Proof.Machine

open Sys2Proof

/-! ## Transfers that return the converter's byte -/

/-- No exchange times out. -/
def Client.NoTimeout (x : Nat → Xfer) : Prop := ∃ rx : Nat → Byte, x = fun k => .ok (rx k)

theorem Client.NoTimeout.shift {x : Nat → Xfer} (h : Client.NoTimeout x) (n : Nat) :
    Client.NoTimeout fun k => x (k + n) := by
  obtain ⟨rx, rfl⟩ := h
  exact ⟨fun k => rx (k + n), rfl⟩

/-- Where the shifter works throughout, an exchange returns the byte on MISO. -/
theorem Client.xferAt_working {levels : List Inputs} (h : ∀ l ∈ levels, l.xferStall = false)
    (tick k : Nat) :
    Client.xferAt levels tick k = .ok (((levels[k]?).map Inputs.misoByte).getD 0#8) := by
  unfold Client.xferAt
  cases hk : levels[k]? with
  | none => rfl
  | some l => simp [Client.xferOf, h l (List.mem_of_getElem? hk)]

theorem Client.noTimeout_of_working {levels : List Inputs} (h : ∀ l ∈ levels, l.xferStall = false)
    (tick : Nat) : Client.NoTimeout (Client.xferAt levels tick) :=
  ⟨_, funext (Client.xferAt_working h tick)⟩

theorem Client.misoByte_eq_xferAt {levels : List Inputs} (h : ∀ l ∈ levels, l.xferStall = false)
    (tick : Nat) {k : Nat} (hk : k < levels.length) :
    (levels[k]?).map Inputs.misoByte = some (Client.xferAt levels tick k).byte := by
  rw [Client.xferAt_working h, List.getElem?_eq_getElem hk]
  rfl

/-! ## What the view shows between two commands -/

theorem Client.eventsOf_append (as bs : List Instr) (x : Nat → Xfer) (cs : Bool) :
    Client.eventsOf (as ++ bs) x cs = Client.eventsOf as x cs ++
      Client.eventsOf bs (fun k => x (k + as.length)) (Client.csOf cs as) := by
  induction as generalizing x cs with
  | nil => rfl
  | cons i as ih =>
    simp only [List.cons_append, Client.eventsOf, ih, List.append_assoc, Client.csOf, List.foldl_cons,
      List.length_cons, Nat.add_assoc]

/-- A view that follows the converter: HOST has met its obligations, and the converter takes its bytes as the monitor
reads them. -/
def ConverterView.following (phase : ClientPhase) (ready : Bool) (gapUs : Nat) (writing : BitVec 4)
    (regs readBack : ConvRegs) (inFlight : Option Byte) (reads : List ResultRead) : ConverterView :=
  ⟨⟨phase, ready, gapUs, true⟩, false, writing, regs, readBack, inFlight, reads⟩

/-- A view that follows the converter, between two of its commands, and shows these registers, conversion in flight
and results. -/
def ConverterView.Shows (v : ConverterView) (regs : ConvRegs) (inFlight : Option Byte)
    (reads : List ResultRead) : Prop :=
  ∃ ready gapUs writing readBack,
    v = .following .command ready gapUs writing regs readBack inFlight reads

@[simp] theorem ConverterView.following_shows (ready : Bool) (gapUs : Nat) (writing : BitVec 4)
    (regs readBack : ConvRegs) (inFlight : Option Byte) (reads : List ResultRead) :
    (ConverterView.following .command ready gapUs writing regs readBack inFlight reads).Shows
      regs inFlight reads :=
  ⟨ready, gapUs, writing, readBack, rfl⟩

@[simp] theorem ConverterView.following_readBack (phase : ClientPhase) (ready : Bool) (gapUs : Nat)
    (writing : BitVec 4) (regs readBack : ConvRegs) (inFlight : Option Byte)
    (reads : List ResultRead) :
    (ConverterView.following phase ready gapUs writing regs readBack inFlight reads).readBack =
      readBack := rfl

theorem ConverterView.shows_self {v : ConverterView} (hphase : v.monitor.phase = .command)
    (hok : v.monitor.ok = true) (hlost : v.lost = false) :
    v.Shows v.regs v.inFlight v.reads := by
  obtain ⟨⟨phase, ready, gapUs, ok⟩, lost, writing, regs, readBack, inFlight, reads⟩ := v
  obtain rfl : phase = .command := hphase
  obtain rfl : ok = true := hok
  obtain rfl : lost = false := hlost
  exact ⟨ready, gapUs, writing, readBack, rfl⟩

namespace ConverterView
section
variable (phase : ClientPhase) (ready : Bool) (gapUs need left : Nat) (writing : BitVec 4)
  (regs readBack : ConvRegs) (inFlight : Option Byte) (reads : List ResultRead) (tx rx : Byte)

/-! ### Waits, samples and chip select -/

@[simp] theorem following_delay (n : Nat) :
    (following phase ready gapUs writing regs readBack inFlight reads).event (.delay n) =
      following phase ready (gapUs + n) writing regs readBack inFlight reads := rfl

@[simp] theorem following_guard (n : Nat) :
    (following phase ready gapUs writing regs readBack inFlight reads).event (.guard n) =
      following phase ready (gapUs + n) writing regs readBack inFlight reads := rfl

@[simp] theorem following_ready :
    (following phase ready gapUs writing regs readBack inFlight reads).event (.readySample true) =
      following phase true gapUs writing regs readBack inFlight reads := by
  cases ready <;> rfl

@[simp] theorem following_csAssert :
    (following .command ready gapUs writing regs readBack inFlight reads).event .csAssert =
      following .command ready gapUs writing regs readBack inFlight reads := rfl

@[simp] theorem following_csRelease :
    (following .command ready gapUs writing regs readBack inFlight reads).event .csRelease =
      following .command ready gapUs writing regs readBack inFlight reads := rfl

/-! ### SYNC and WAKEUP, with chip select released too -/

@[simp] theorem following_sync (cs : Bool) :
    (following .command ready gapUs writing regs readBack inFlight reads).event
        (.byte syncByte rx cs) =
      following .command false 0 writing regs readBack inFlight reads := by
  cases cs <;> rfl

@[simp] theorem following_wakeup (cs : Bool) :
    (following .command ready gapUs writing regs readBack inFlight reads).event
        (.byte wakeupByte rx cs) =
      following .command false 0 writing regs readBack inFlight reads := by
  cases cs <;> rfl

/-! ### A write of MUX (R142) -/

@[simp] theorem following_wreg_command :
    (following .command true gapUs writing regs readBack inFlight reads).event
        (.byte (wregByte Client.muxAddr) rx true) =
      following .wregCount false 0 1#4 regs readBack inFlight reads := rfl

@[simp] theorem following_wreg_count :
    (following .wregCount ready 5 writing regs readBack inFlight reads).event
        (.byte 0x00#8 rx true) =
      following .wregValue false 0 writing regs readBack inFlight reads := rfl

@[simp] theorem following_wreg_value :
    (following .wregValue ready 5 1#4 regs readBack inFlight reads).event (.byte tx rx true) =
      following .command false 0 1#4 { regs with mux := some tx } readBack inFlight reads := rfl

/-! ### A result read (R144) -/

@[simp] theorem following_rdata_command :
    (following .command true gapUs writing regs readBack inFlight reads).event
        (.byte rdataByte rx true) =
      following (.rdataByte 5 3) false 0 writing regs readBack inFlight reads := rfl

@[simp] theorem following_rdata_byte (h : need ≤ gapUs) :
    (following (.rdataByte need (left + 2)) ready gapUs writing regs readBack inFlight reads).event
        (.byte tx rx true) =
      following (.rdataByte 0 (left + 1)) false 0 writing regs readBack inFlight reads := by
  simp [following, event, act, take, Monitor.event, Monitor.onByte, Monitor.judge, h]

@[simp] theorem following_rdata_last :
    (following (.rdataByte 0 1) ready gapUs writing regs readBack inFlight reads).event
        (.byte tx rx true) =
      following .command false 0 writing regs readBack regs.mux
        (reads ++ [⟨regs.mux, inFlight⟩]) := rfl

/-! ### A burst read (R143) -/

@[simp] theorem following_rreg_command :
    (following .command ready gapUs writing regs readBack inFlight reads).event
        (.byte (rregByte 0#4) rx true) =
      following .rregCount false 0 writing regs readBack inFlight reads := rfl

@[simp] theorem following_rreg_count :
    (following .rregCount ready 5 writing regs readBack inFlight reads).event
        (.byte 0x04#8 rx true) =
      following (.rregData 10 5) false 0 writing regs readBack inFlight reads := rfl

@[simp] theorem following_rreg_data (h : need ≤ gapUs) :
    (following (.rregData need (left + 2)) ready gapUs writing regs readBack inFlight reads).event
        (.byte tx rx true) =
      following (.rregData 5 (left + 1)) false 0 writing regs
        (readBack.set (Client.burstAddr (left + 2)) rx) inFlight reads := by
  simp [following, event, act, take, readRegister, Monitor.event, Monitor.onByte, Monitor.judge, h]

@[simp] theorem following_rreg_last (h : need ≤ gapUs) :
    (following (.rregData need 1) ready gapUs writing regs readBack inFlight reads).event
        (.byte tx rx true) =
      following .command false 0 writing regs (readBack.set (Client.burstAddr 1) rx)
        inFlight reads := by
  simp [following, event, act, take, readRegister, Monitor.event, Monitor.onByte, Monitor.judge, h]

end
end ConverterView

/-! ## The sequences' parts -/

section
variable {v : ConverterView} {regs : ConvRegs} {inFlight : Option Byte} {reads : List ResultRead}
  {x : Nat → Xfer}

theorem ConverterView.Shows.csel (h : v.Shows regs inFlight reads) (x : Nat → Xfer) (cs a : Bool) :
    (v.run (Client.eventsOf [.csel a] x cs)).Shows regs inFlight reads := by
  obtain ⟨ready, gapUs, writing, readBack, rfl⟩ := h
  cases a with
  | true => cases cs <;> exact ⟨_, _, _, _, rfl⟩
  | false => cases cs <;> exact ⟨_, _, _, _, rfl⟩

theorem ConverterView.Shows.rdyw (h : v.Shows regs inFlight reads) (x : Nat → Xfer) (cs : Bool) :
    (v.run (Client.eventsOf [.rdyw] x cs)).Shows regs inFlight reads := by
  obtain ⟨ready, gapUs, writing, readBack, rfl⟩ := h
  exact ⟨_, _, _, _, rfl⟩

theorem ConverterView.Shows.syncWake (h : v.Shows regs inFlight reads) (c : ClientParams)
    (hx : Client.NoTimeout x) (cs : Bool) :
    (v.run (Client.eventsOf (Client.syncWake c) x cs)).Shows regs inFlight reads := by
  obtain ⟨ready, gapUs, writing, readBack, rfl⟩ := h
  obtain ⟨rx, rfl⟩ := hx
  simp [Client.syncWake, Client.eventsOf, Xfer.event]

theorem ConverterView.Shows.rdata (h : v.Shows regs inFlight reads) (c : ClientParams) (b0 b1 b2 : Byte)
    (hx : Client.NoTimeout x) (cs : Bool) :
    (v.run (Client.eventsOf (.rdyw :: Client.rdata c b0 b1 b2) x cs)).Shows regs regs.mux
      (reads ++ [⟨regs.mux, inFlight⟩]) := by
  obtain ⟨ready, gapUs, writing, readBack, rfl⟩ := h
  obtain ⟨rx, rfl⟩ := hx
  cases cs <;> simp [Client.rdata, Client.rdataExchanges, Client.eventsOf, Xfer.event]

theorem ConverterView.Shows.wregMux (h : v.Shows regs inFlight reads) (value : Byte)
    (hx : Client.NoTimeout x) (cs : Bool) :
    (v.run (Client.eventsOf (Client.wreg Client.muxAddr value) x cs)).Shows
      { regs with mux := some value } inFlight reads := by
  obtain ⟨ready, gapUs, writing, readBack, rfl⟩ := h
  obtain ⟨rx, rfl⟩ := hx
  cases cs <;> simp [Client.wreg, Client.eventsOf, Xfer.event]

/-! ## The sequences that read a result -/

/-- The view after a result read under `pair`, whose conversion is in flight from there on (R160, R165). -/
def ConverterView.ReadUnder (w v : ConverterView) (pair : Byte) : Prop :=
  ∃ regs, regs.mux = some pair ∧ w.Shows regs (some pair) (v.reads ++ [⟨some pair, v.inFlight⟩])

/-- SYNCWAKE, the ready poll and the result read, with the MUX register at the pair. -/
theorem ConverterView.Shows.convert {w : ConverterView} {pair : Byte} (hmux : regs.mux = some pair)
    (h : w.Shows regs v.inFlight v.reads) (c : ClientParams) (b0 b1 b2 : Byte)
    (hx : Client.NoTimeout x) (cs : Bool) :
    (w.run (Client.eventsOf (Client.syncWake c ++ .rdyw :: Client.rdata c b0 b1 b2) x cs)).ReadUnder
      v pair := by
  rw [Client.eventsOf_append, ConverterView.run_append]
  have hread := (h.syncWake c hx cs).rdata c b0 b1 b2
    (hx.shift (Client.syncWake c).length) (Client.csOf cs (Client.syncWake c))
  rw [hmux] at hread
  exact ⟨regs, hmux, hread⟩

/-- The MUX write of `readChannel`, or the register as HOST's last-configured pair says it stands (R155). -/
theorem ConverterView.Shows.muxWrite {last : Option Byte} (h : v.Shows regs inFlight reads)
    (hlast : ∀ y, last = some y → regs.mux = some y) (pair : Byte) (hx : Client.NoTimeout x) (cs : Bool) :
    ∃ regs', regs'.mux = some pair ∧
      (v.run (Client.eventsOf (Client.muxWrite last pair) x cs)).Shows regs' inFlight reads := by
  unfold Client.muxWrite
  split
  · exact ⟨regs, hlast pair ‹_›, h⟩
  · exact ⟨_, rfl, h.wregMux pair hx cs⟩

theorem ConverterView.Shows.scanStep (h : v.Shows v.regs v.inFlight v.reads) (c : ClientParams)
    (i : Fin 4) (b0 b1 b2 : Byte) (hx : Client.NoTimeout x) (cs : Bool) :
    (v.run (Client.eventsOf (Client.scanStep c i b0 b1 b2) x cs)).ReadUnder v (Client.scanPair i) := by
  rw [Client.scanStep_eq, Client.eventsOf_append, ConverterView.run_append, Client.eventsOf_append,
    ConverterView.run_append]
  exact ((h.rdyw x cs).wregMux _ (hx.shift _) _).convert rfl c b0 b1 b2 ((hx.shift _).shift _) _

theorem ConverterView.Shows.readChannel {last : Option Byte} (h : v.Shows v.regs v.inFlight v.reads)
    (hlast : ∀ y, last = some y → v.regs.mux = some y) (c : ClientParams) (pos neg : BitVec 4)
    (b0 b1 b2 : Byte) (hx : Client.NoTimeout x) (cs : Bool) :
    (v.run (Client.eventsOf (Client.readChannel c last pos neg b0 b1 b2).1 x cs)).ReadUnder v
      (Client.pairByte pos neg) := by
  rw [Client.readChannel_eq]
  iterate 3 rw [Client.eventsOf_append, ConverterView.run_append]
  obtain ⟨regs, hmux, hwrite⟩ := (((h.csel x cs true).rdyw _ _).muxWrite hlast
    (Client.pairByte pos neg) ((hx.shift _).shift _) _)
  rw [← List.append_assoc, Client.eventsOf_append, ConverterView.run_append]
  obtain ⟨regs', hmux', hread⟩ :=
    hwrite.convert hmux c b0 b1 b2 (((hx.shift _).shift _).shift _) _
  exact ⟨regs', hmux', hread.csel _ _ false⟩

/-! ## The burst read -/

/-- The five data bytes of a burst read are STATUS, MUX, ADCON, DRATE and IO (R143). -/
@[simp] theorem ConvRegs.set_burst (r : ConvRegs) (status mux adcon drate io : Byte) :
    ((((r.set (Client.burstAddr 5) status).set (Client.burstAddr 4) mux).set (Client.burstAddr 3)
      adcon).set (Client.burstAddr 2) drate).set (Client.burstAddr 1) io =
      ⟨some status, some mux, some adcon, some drate, some io⟩ := rfl

/-- RREG5 gives the registers in the order of its data exchanges, and changes none (R143, R152). -/
theorem ConverterView.Shows.rreg5 (h : v.Shows regs inFlight reads) (c : ClientParams)
    (hx : Client.NoTimeout x) (cs : Bool) :
    (v.run (Client.eventsOf (Client.rreg5 c) x cs)).Shows regs inFlight reads ∧
      (v.run (Client.eventsOf (Client.rreg5 c) x cs)).readBack =
        ⟨some (x 6).byte, some (x 8).byte, some (x 10).byte, some (x 12).byte,
          some (x 14).byte⟩ := by
  obtain ⟨ready, gapUs, writing, readBack, rfl⟩ := h
  obtain ⟨rx, rfl⟩ := hx
  cases cs <;> simp [Client.rreg5, Client.burstByte, Client.eventsOf, Xfer.event,
    Xfer.byte]

/-- What HOST makes of the results of RREG5 (R152). -/
theorem Client.burstRegisters_resultsOf (c : ClientParams) (x : Nat → Xfer) :
    Client.burstRegisters (Client.resultsOf (Client.rreg5 c) x) =
      ⟨some (x 6).byte, some (x 8).byte, some (x 10).byte, some (x 12).byte, some (x 14).byte⟩ := by
  simp [Client.rreg5, Client.burstByte, Client.resultsOf, Client.burstRegisters, Client.burstResults,
    Client.byteAt, zextByte]

end
end Sys2Proof.Machine
end

section
/-! SUPPORT. Where received bytes go (42_bus_commands.md R143, R149, R153, R160, R165, R166): the scan buffer, the one
event that writes a register, and the operand HOST builds for SX24. -/

namespace Sys2Proof.Machine

open Sys2Proof

/-! ## The scan buffer -/

/-- A scan cycle fills slots 0 to 2 with its own pairs, and slot 3 with what was in flight before it. -/
theorem ScanBuffer.scanCycle_eq {b : ScanBuffer} (h : b.slots.length = 4) :
    b.scanCycle = ⟨[some 0, some 1, some 2, b.inFlight], some 3⟩ := by
  obtain ⟨slots, inFlight⟩ := b
  obtain ⟨p, q, r, s, rfl⟩ := List.length_eq_four.mp h
  rfl

theorem ScanBuffer.scanCycle_slot3 {b : ScanBuffer} (h : b.slots.length = 4) :
    b.scanCycle.slots[3]? = some b.inFlight := by
  rw [ScanBuffer.scanCycle_eq h]
  rfl

/-- After two cycles every slot holds a result of its own pair. -/
theorem ScanBuffer.scanCycle_twice {b : ScanBuffer} (h : b.slots.length = 4) (i : Fin 4) :
    b.scanCycle.scanCycle.slots[i.val]? = some (some i) := by
  have hlen : b.scanCycle.slots.length = 4 := by rw [ScanBuffer.scanCycle_eq h]; rfl
  rw [ScanBuffer.scanCycle_eq hlen, ScanBuffer.scanCycle_eq h]
  dsimp only
  clear hlen h b
  revert i
  decide

/-! ## What an event can do to a register -/

/-- Losing the converter's reading does not by itself change what is known of the registers. -/
theorem ConverterView.regs_ite_lose (v : ConverterView) (p : Prop) [Decidable p] :
    (if p then v else v.lose).regs = v.regs := by
  split <;> rfl

/-- An event leaves the registers, leaves nothing known, or is the value byte of a write command, taken with chip
select asserted. -/
theorem ConverterView.act_regs (v : ConverterView) (e : Event) :
    (v.act e).regs = v.regs ∨ (v.act e).regs = ConvRegs.unknown ∨
      ∃ x rx, v.monitor.phase = .wregValue ∧ e = .byte x rx true ∧
        (v.act e).regs = v.regs.set v.writing x := by
  cases e with
  | byte tx rx cs =>
    by_cases htake : (cs || v.plain tx) = true
    · have hact : v.act (.byte tx rx cs) = v.take tx rx := if_pos htake
      rw [hact]
      refine (v.take_regs tx rx).imp id (Or.imp id fun ⟨hphase, hset⟩ => ?_)
      have hplain : v.plain tx = false := by simp [ConverterView.plain, hphase]
      have hcs : cs = true := by simpa [hplain] using htake
      exact ⟨tx, rx, hphase, by rw [hcs], hset⟩
    · have hact : v.act (.byte tx rx cs) = v.lose := if_neg htake
      rw [hact]
      exact .inl rfl
  | csAssert => exact .inl (v.regs_ite_lose _)
  | csRelease => exact .inl (v.regs_ite_lose _)
  | _ => exact .inl rfl

/-- A register value known after an event was known before it, or is the value byte of a write to that register. -/
theorem ConverterView.event_regs {v : ConverterView} {e : Event} {a : BitVec 4} {x : Byte}
    (h : (v.event e).regs.get a = some x) :
    v.regs.get a = some x ∨
      (v.monitor.phase = .wregValue ∧ v.writing = a ∧ ∃ rx, e = .byte x rx true) := by
  rcases v.event_cases e with ⟨-, -, hev⟩ | ⟨-, hev⟩
  · have hget : (v.act e).regs.get a = some x := by rwa [hev] at h
    rcases v.act_regs e with hregs | hregs | ⟨y, rx, hphase, rfl, hregs⟩
    · exact .inl (hregs ▸ hget)
    · simp [hregs] at hget
    · rw [hregs] at hget
      exact (ConvRegs.set_get hget).elim
        (fun ⟨ha, hx⟩ => .inr ⟨hphase, ha.symm, rx, by rw [hx]⟩) .inl
  · have hget : ConvRegs.unknown.get a = some x := by rwa [hev] at h
    simp at hget

/-! ## Runs -/

/-- A result read with the converter ready and no exchange timing out, on the block and in the view. -/
theorem runHost_readsUnder {s : State} {v : ConverterView} {ops : List Instr} {pair : Byte}
    {levels : List Inputs} (hidle : s.fsm = .idle) (hmeta : s.drdyMeta = false)
    (hseq : Client.Sequence ops) (hlen : levels.length = ops.length)
    (hlevels : ∀ l ∈ levels, l.drdyN = false ∧ l.xferStall = false)
    (hview : ∀ x cs, Client.NoTimeout x → (v.run (Client.eventsOf ops x cs)).ReadUnder v pair) :
    ∃ t es read, runHost (ops.zip levels) s = .next t ∧ t.trace = s.trace ++ es ∧
      (v.run es).reads = v.reads ++ [read] ∧ read.attributable pair = true ∧
      read.source = v.inFlight ∧ (v.run es).regs.mux = some pair ∧
      (v.run es).inFlight = some pair ∧ (v.run es).lost = false ∧
      (v.run es).monitor.phase = .command ∧ (v.run es).monitor.ok = true := by
  obtain ⟨t, hrun, hall⟩ := runHost_completes hidle hseq.areOps hlen
    (.inr ⟨hmeta, fun l hl => (hlevels l hl).1⟩)
  obtain ⟨regs, hmux, ready, gapUs, writing, readBack, heq⟩ := hview _ s.csActive
    (Client.noTimeout_of_working (fun l hl => (hlevels l hl).2) s.tick)
  refine ⟨t, _, ⟨some pair, v.inFlight⟩, hrun, hall.trace, ?_⟩
  rw [heq]
  exact ⟨rfl, by simp [ResultRead.attributable], rfl, hmux, rfl, rfl, rfl, rfl⟩

/-! ## The burst read -/

/-- A burst read with the converter ready and no exchange timing out, on the block and in the view (R143, R152). -/
theorem runHost_burst {s : State} {v : ConverterView} {c : ClientParams} {levels : List Inputs}
    {b : Fin 5 → Byte} (hidle : s.fsm = .idle) (hmeta : s.drdyMeta = false)
    (hshows : v.Shows v.regs v.inFlight v.reads) (hlen : levels.length = (Client.rreg5 c).length)
    (hlevels : ∀ l ∈ levels, l.drdyN = false ∧ l.xferStall = false)
    (hb : ∀ j : Fin 5, (levels[6 + 2 * j.val]?).map Inputs.misoByte = some (b j)) :
    ∃ t es rs, runHost ((Client.rreg5 c).zip levels) s = .next t ∧ t.trace = s.trace ++ es ∧
      t.results = s.results ++ rs ∧
      Client.burstRegisters rs = ⟨some (b 0), some (b 1), some (b 2), some (b 3), some (b 4)⟩ ∧
      (v.run es).readBack = Client.burstRegisters rs ∧ (v.run es).regs = v.regs ∧
      (v.run es).monitor.ok = true ∧ (v.run es).lost = false := by
  obtain ⟨t, hrun, hall⟩ := runHost_completes hidle (Client.sequence_rreg5 c).areOps hlen
    (.inr ⟨hmeta, fun l hl => (hlevels l hl).1⟩)
  have hworking : ∀ l ∈ levels, l.xferStall = false := fun l hl => (hlevels l hl).2
  have hbyte : ∀ j : Fin 5, (Client.xferAt levels s.tick (6 + 2 * j.val)).byte = b j := by
    intro j
    have hj : 6 + 2 * j.val < levels.length := by
      have hlen17 : levels.length = 17 := hlen
      omega
    exact Option.some.inj ((Client.misoByte_eq_xferAt hworking s.tick hj).symm.trans (hb j))
  obtain ⟨⟨ready, gapUs, writing, readBack, heq⟩, hback⟩ :=
    hshows.rreg5 c (Client.noTimeout_of_working hworking s.tick) s.csActive
  refine ⟨t, _, _, hrun, hall.trace, hall.results, ?_, ?_, ?_⟩
  · rw [Client.burstRegisters_resultsOf, ← hbyte 0, ← hbyte 1, ← hbyte 2, ← hbyte 3, ← hbyte 4]
    rfl
  · rw [hback, Client.burstRegisters_resultsOf]
  · rw [heq]
    exact ⟨rfl, rfl, rfl⟩

/-! ## Operations before others -/

/-- Operations that complete, before anything else HOST issues. -/
theorem runItems_ops_append {as : List (Instr × Inputs)} {s t : State} (hrun : runHost as s = .next t)
    (hidle : t.fsm = .idle) (bs : List (AsmItem × Inputs)) :
    runItems ((as.map fun p => (.op p.1, p.2)) ++ bs) s = runItems bs t := by
  induction as generalizing s with
  | nil => rw [Host.Outcome.next.inj hrun]; rfl
  | cons p as ih =>
    simp only [runHost] at hrun
    simp only [List.map_cons, List.cons_append, runItems, AsmItem.instr]
    cases hissue : hostIssues p.1 p.2 s with
    | next u =>
      rw [hissue] at hrun
      by_cases hu : u.fsm = .idle
      · simp only [hu, if_true] at hrun ⊢
        exact ih hrun
      · simp only [hu, if_false] at hrun
        exact absurd (Host.Outcome.next.inj hrun ▸ hidle) hu
    | fault r => rw [hissue] at hrun; cases hrun
    | refused r => rw [hissue] at hrun; cases hrun

theorem runHost_append {as : List (Instr × Inputs)} {s t : State} (hrun : runHost as s = .next t)
    (hidle : t.fsm = .idle) (bs : List (Instr × Inputs)) :
    runHost (as ++ bs) s = runHost bs t := by
  rw [← runItems_op, ← runItems_op, List.map_append, runItems_ops_append hrun hidle]

theorem runHost_singleton {i : Instr} {l : Inputs} {s t : State} (h : hostIssues i l s = .next t)
    (hidle : t.fsm = .idle) : runHost [(i, l)] s = .next t := by
  simp only [runHost, h, hidle, if_true]

/-! ## RDATA -/

theorem Client.resultsOf_rdataExchanges (c : ClientParams) (x : Nat → Xfer) :
    Client.resultsOf (Client.rdataExchanges c) x =
      [0#32, zextByte (x 1).byte, 0#32, zextByte (x 3).byte, zextByte (x 4).byte,
        zextByte (x 5).byte, 0#32] := rfl

/-- The SX24 whose operand HOST builds, after RDATA's exchanges. -/
theorem runItems_sx24FromHost {s t : State} {r : List Word32} {c : ClientParams} {x : Nat → Xfer} {l : Inputs}
    (hresults : s.results = r ++ Client.resultsOf (Client.rdataExchanges c) x)
    (hissue : hostIssues (.sx24 (Client.resultOperand (x 3).byte (x 4).byte (x 5).byte)) l s = .next t)
    (hidle : t.fsm = .idle) : runItems [(.sx24FromHost, l)] s = .next t := by
  have hoperand : Client.lastOperand s.results =
      some (Client.resultOperand (x 3).byte (x 4).byte (x 5).byte) := by
    rw [hresults, Client.resultsOf_rdataExchanges, Client.lastOperand_append]
    simp [zextByte]
  simp only [runItems, AsmItem.instr, hoperand, Option.map_some, hissue, hidle, if_true]

/-- RDATA whole, its operand built by HOST from the three bytes received (R149, R153). -/
theorem Client.rdata_runs (c : ClientParams) {s : State} {ls : List Inputs} (l : Inputs)
    (hidle : s.fsm = .idle) (hlen : ls.length = (Client.rdataExchanges c).length) {x : Nat → Xfer}
    (hx : Client.xferAt ls s.tick = x) :
    ∃ t, t.fsm = .idle ∧
      t.results = s.results ++ (Client.resultsOf (Client.rdataExchanges c) x ++
        [sx24Value (Client.resultOperand (x 3).byte (x 4).byte (x 5).byte)]) ∧
      t.resData = sx24Value (Client.resultOperand (x 3).byte (x 4).byte (x 5).byte) ∧
      runItems ((Client.rdataItems c).zip (ls ++ [l])) s = .next t ∧
      runHost ((Client.rdata c (x 3).byte (x 4).byte (x 5).byte).zip (ls ++ [l])) s = .next t := by
  obtain ⟨u, hrun, hall⟩ := runHost_completes hidle (ops := Client.rdataExchanges c) rfl hlen
    (.inl (by simp [Client.rdataExchanges]))
  rw [hx] at hall
  obtain ⟨t, hissue, hdone, -⟩ := hostIssues_completes hall.idle
    (Client.isOp_sx24 (Client.resultOperand (x 3).byte (x 4).byte (x 5).byte)) (by simp) l
  refine ⟨t, hdone.idle, ?_, hdone.resData, ?_, ?_⟩
  · rw [hdone.results, hall.results, List.append_assoc, Client.opResult_sx24]
  · have hmap : ((Client.rdataExchanges c).map AsmItem.op).zip ls =
        ((Client.rdataExchanges c).zip ls).map fun p => (.op p.1, p.2) := List.zip_map_left
    rw [Client.rdataItems, List.zip_append (by simpa using hlen.symm), hmap,
      runItems_ops_append hrun hall.idle]
    exact runItems_sx24FromHost hall.results hissue hdone.idle
  · rw [Client.rdata, List.zip_append hlen.symm, runHost_append hrun hall.idle]
    exact runHost_singleton hissue hdone.idle

end Sys2Proof.Machine
end

section
/-! The statement about where received bytes go. -/

namespace Sys2Proof.Machine

/-- Settles O60, by its parts: the slots of the scan buffer, the one event that writes a register, the sequences that
read a result, the burst read, and RDATA with HOST's operand. -/
theorem receivedBytesGoToTheirRegistersAndSlots :
    Obligations.ReceivedBytesGoToTheirRegistersAndSlots := by
  refine ⟨fun b hb => ⟨ScanBuffer.scanCycle_slot3 hb, ScanBuffer.scanCycle_twice hb⟩,
    fun v e a x => ConverterView.event_regs, ?_, ?_, ?_⟩
  · intro s v c b0 b1 b2 i last pos neg hidle hmeta _ hphase hok hlost hlast r hr levels hlen hlevels
    have hshows := ConverterView.shows_self hphase hok hlost
    simp only [List.mem_cons, List.not_mem_nil, or_false] at hr
    rcases hr with rfl | rfl
    · exact runHost_readsUnder hidle hmeta (Client.sequence_scanStep c i b0 b1 b2) hlen hlevels
        fun x cs hx => hshows.scanStep c i b0 b1 b2 hx cs
    · exact runHost_readsUnder hidle hmeta (Client.sequence_readChannel c last pos neg b0 b1 b2) hlen
        hlevels fun x cs hx => hshows.readChannel hlast c pos neg b0 b1 b2 hx cs
  · intro s v c levels b hidle hmeta _ hphase hok hlost hlen hlevels hb
    exact runHost_burst hidle hmeta (ConverterView.shows_self hphase hok hlost) hlen hlevels hb
  · intro s c levels hidle hlen
    obtain ⟨ls, l, rfl⟩ := (List.eq_nil_or_concat' levels).resolve_left (by rintro rfl; cases hlen)
    have hls : ls.length = 7 := by simpa [Client.rdataItems, Client.rdataExchanges] using hlen
    obtain ⟨t, hdone, hresults, hres, hitems, hhost⟩ := Client.rdata_runs c l hidle hls rfl
    refine ⟨t, _, fun j => (Client.xferAt ls s.tick (3 + j.val)).byte, hitems, hdone, hresults, ?_,
      hres.trans (sx24Value_eq_ofInt_sext32 _), hhost, fun hstall j => ?_⟩
    · rw [Client.resultsOf_rdataExchanges]
      intro j
      match j with
      | 0 | 1 | 2 => rfl
    · rw [List.getElem?_append_left (by omega)]
      exact Client.misoByte_eq_xferAt (fun l' hl' => hstall l' (List.mem_append_left _ hl')) s.tick
        (by omega)

end Sys2Proof.Machine
end
